-- ==== Sys2Proof/Word.lean ====
section
/-! DEFINITION. The word and storage-entry types of HUFFCORE: node indices, node memory entries, code table
entries, and the hidden working state (10_state.md R36 to R51). Plain data only; the bit layout of an entry is
in Machine/Operands.lean. -/

namespace Sys2Proof

/-- A node index, `IDX_BITS = 10` bits (00_scope.md R10). -/
abbrev Idx := BitVec 10

/-- `NIL = 0x3FF`: no node (00_scope.md R10). -/
def idxNil : Idx := 0x3FF#10

/-- A symbol: a byte value 0 to 255, or the sentinel 256 (00_scope.md R9, `NSYM = 257`). -/
abbrev Sym := Fin 257

/-- `SENTINEL = 256` (00_scope.md R9). -/
def sentinel : Sym := 256

/-- One entry of the node memory (10_state.md R42). The weight is a mathematical count (00_scope.md R15). -/
structure Node where
  leaf   : Bool
  sym    : BitVec 9
  left   : Idx
  right  : Idx
  weight : Nat
  deriving DecidableEq, Repr, Inhabited

/-- One entry of the code table (10_state.md R47). -/
structure CodeEntry where
  valid : Bool
  len   : BitVec 9
  bits  : BitVec 256
  deriving DecidableEq, Repr, Inhabited

/-- The invalid code entry, all fields 0 (10_state.md R47). -/
def CodeEntry.none : CodeEntry := { valid := false, len := 0#9, bits := 0#256 }

/-- One entry of the traversal stack (10_state.md R49): a node index for WRTREE and RDTREE; a node index, a path
length and a path number for GENCODE (42_code_generator.md R192). -/
structure StkEntry where
  idx : Nat
  len : Nat := 0
  num : Nat := 0
  deriving DecidableEq, Repr, Inhabited

/-- The side on which the deserializer hangs the next node (43_tree_serial.md R214). -/
inductive Side where
  | left
  | right
  deriving DecidableEq, Repr, Inhabited

/-- The hidden working state (10_state.md R49 to R51). `SP` is the length of `stk`. `link` is RDTREE's pair
(p, side): none is p = NIL (43_tree_serial.md R214). -/
structure Hidden where
  stk   : List StkEntry
  pq    : List Nat
  seen  : Vector Bool 257
  ni    : Nat
  link  : Option (Nat × Side)
  mstep : Nat
  deriving DecidableEq, Repr, Inhabited

/-- The hidden working state when it is empty: at reset and at the successful end of a command (10_state.md R49
to R51, R70; 93_implementation_defined.md U10). -/
def Hidden.empty : Hidden :=
  { stk := [], pq := [], seen := Vector.replicate 257 false, ni := 0, link := Option.none, mstep := 0 }

end Sys2Proof
end

