-- ==== Sys2Proof/Config.lean ====
section
/-! DEFINITION. What a configuration of the block fixes (00_scope.md R10) and the free values of the model: the
values 93_implementation_defined.md U3, U4 and U10 say a model must not fix. -/

namespace Sys2Proof

/-- The configuration parameters of the block (00_scope.md R10): the marker `MAGIC`, the reserved companion
`MAGIC_ALT`, and the width `WBITS` of a count. They never change in a run (10_state.md R30). -/
structure Params where
  magic    : BitVec 32
  magicAlt : BitVec 32
  wbits    : Nat
  deriving DecidableEq, Repr, Inhabited

/-- The OPEN parameter `MAGIC` (92_eei_decisions.md D2): any 32-bit constant. -/
opaque Config.magic : BitVec 32

/-- The source of the OPEN parameter `MAGIC_ALT` (92_eei_decisions.md D3). -/
opaque Config.magicAltSeed : BitVec 32

/-- `MAGIC_ALT`: any 32-bit constant different from `MAGIC` (92_eei_decisions.md D3). -/
def Config.magicAlt : BitVec 32 :=
  if Config.magicAltSeed = Config.magic then ~~~Config.magic else Config.magicAltSeed

/-- The configured parameters of the block that comes out of `State.reset`; `WBITS` has its default, 32
(00_scope.md R10, 92_eei_decisions.md D4). Statements hold for every `Params`, since State holds them. -/
def Config.params : Params :=
  { magic := Config.magic, magicAlt := Config.magicAlt, wbits := 32 }

/-- Free values (93_implementation_defined.md U10): what an unspecified register or memory entry holds. Applied to
the counter `State.free`. -/
opaque Config.freeWord : Nat → Nat

/-- Free values (93_implementation_defined.md U10): the hidden working state that a command which ended in an
error leaves. Applied to the counter `State.free`. -/
opaque Config.freeHidden : Nat → Hidden

end Sys2Proof
end

