-- ==== Sys2Proof/Syntax.lean ====
section
/-! DEFINITION. The encoded things of HUFFCORE, one constructor per row of spec/opcode_table.json: the sixteen
commands (30_encoding.md R140) and the three fixed-width wire tokens (R121 to R123). -/

namespace Sys2Proof

/-- One row of the opcode table. Commands have no operands (30_encoding.md R140); the wire token TREE.LEAF carries
its 9-bit symbol field and MARKER its 32 bits. -/
inductive Instr where
  | nop
  | hist
  | build
  | gencode
  | wrmagic
  | wrtree
  | encode
  | flush
  | rdmagic
  | rdtree
  | decode
  | rewind
  | compress
  | decompress
  | clrerr
  | reset
  | treeInternal
  | treeLeaf (sym : BitVec 9)
  | marker (word : BitVec 32)
  deriving DecidableEq, Repr

/-- The three formats of the opcode table: a command code written to `CMD`; a token of the serialized tree; the
marker of the artifact. -/
inductive Format where
  | cmd4
  | wireToken
  | wireHeader
  deriving DecidableEq, Repr

/-- The format column of the opcode table. -/
def Instr.format : Instr → Format
  | .treeInternal => .wireToken
  | .treeLeaf _ => .wireToken
  | .marker _ => .wireHeader
  | .nop => .cmd4
  | .hist => .cmd4
  | .build => .cmd4
  | .gencode => .cmd4
  | .wrmagic => .cmd4
  | .wrtree => .cmd4
  | .encode => .cmd4
  | .flush => .cmd4
  | .rdmagic => .cmd4
  | .rdtree => .cmd4
  | .decode => .cmd4
  | .rewind => .cmd4
  | .compress => .cmd4
  | .decompress => .cmd4
  | .clrerr => .cmd4
  | .reset => .cmd4

end Sys2Proof
end

