-- ==== Sys2Proof/WellFormed.lean ====
section
/-! DEFINITION. Which encoded things the hardware itself ever writes: every command, and a leaf token only with a
symbol 0 to 256 (30_encoding.md R131). Whether a marker is the accepted one depends on the configuration and is
checked when it is executed (R132). -/

namespace Sys2Proof

/-- A leaf token is well formed when its field is a symbol, 0 to 256 (30_encoding.md R131); everything else is. -/
def Instr.wf : Instr → Bool
  | .treeLeaf sym => decide (sym.toNat ≤ 256)
  | .nop => true
  | .hist => true
  | .build => true
  | .gencode => true
  | .wrmagic => true
  | .wrtree => true
  | .encode => true
  | .flush => true
  | .rdmagic => true
  | .rdtree => true
  | .decode => true
  | .rewind => true
  | .compress => true
  | .decompress => true
  | .clrerr => true
  | .reset => true
  | .treeInternal => true
  | .marker _ => true

end Sys2Proof
end

