-- ==== Sys2Proof/Decode.lean ====
section
/-! DEFINITION. Bit strings (00_scope.md section 6), the decoder, total on any bit string and refusing by name, and
the encoder written from the same tables (30_encoding.md R121 to R123, R140). Bit strings are in stream order,
first bit first. -/

namespace Sys2Proof

/-- `bitsN(v mod 2^N)`: the N-bit string of v, most significant bit first (00_scope.md section 6). -/
def bitsN : Nat → Nat → List Bool
  | 0, _ => []
  | n + 1, v => v.testBit n :: bitsN n v

/-- `val(s)`: the number whose bit string, most significant bit first, is s; `val([]) = 0` (00_scope.md
section 6). -/
def bitsVal : List Bool → Nat
  | [] => 0
  | b :: bs => b.toNat * 2 ^ bs.length + bitsVal bs

/-- Why a bit string is no encoded thing: it ends before the code, the token's flag bit, the token's 9-bit symbol
field or the 32 marker bits are complete. Every other bit string decodes: all sixteen command codes are assigned
(30_encoding.md R141). -/
inductive DecodeError where
  | codeTooShort
  | flagMissing
  | symbolTooShort
  | markerTooShort
  deriving DecidableEq, Repr

/-- The command of a value written to `CMD` (30_encoding.md R140); bits above bit 3 are ignored (R141). -/
def decodeCmd (v : Nat) : Instr :=
  match v % 16 with
  | 0x0 => .nop
  | 0x1 => .hist
  | 0x2 => .build
  | 0x3 => .gencode
  | 0x4 => .wrmagic
  | 0x5 => .wrtree
  | 0x6 => .encode
  | 0x7 => .flush
  | 0x8 => .rdmagic
  | 0x9 => .rdtree
  | 0xA => .decode
  | 0xB => .rewind
  | 0xC => .compress
  | 0xD => .decompress
  | 0xE => .clrerr
  | _   => .reset

/-- The tree token at the head of a bit string (30_encoding.md R122, R123), and the rest. -/
def decodeToken : List Bool → Except DecodeError (Instr × List Bool)
  | [] => .error .flagMissing
  | false :: bs => .ok (.treeInternal, bs)
  | true :: bs =>
    if bs.length < 9 then .error .symbolTooShort
    else .ok (.treeLeaf (BitVec.ofNat 9 (bitsVal (bs.take 9))), bs.drop 9)

/-- Decoding by format: the encoded thing at the head of a bit string, and the rest of the string. -/
def decode (f : Format) (bs : List Bool) : Except DecodeError (Instr × List Bool) :=
  match f with
  | .cmd4 =>
    if bs.length < 4 then .error .codeTooShort
    else .ok (decodeCmd (bitsVal (bs.take 4)), bs.drop 4)
  | .wireToken => decodeToken bs
  | .wireHeader =>
    if bs.length < 32 then .error .markerTooShort
    else .ok (.marker (BitVec.ofNat 32 (bitsVal (bs.take 32))), bs.drop 32)

/-- The encoder: the bit string of an encoded thing, from the same table (30_encoding.md R121 to R123, R140). -/
def encode : Instr → List Bool
  | .nop => bitsN 4 0x0
  | .hist => bitsN 4 0x1
  | .build => bitsN 4 0x2
  | .gencode => bitsN 4 0x3
  | .wrmagic => bitsN 4 0x4
  | .wrtree => bitsN 4 0x5
  | .encode => bitsN 4 0x6
  | .flush => bitsN 4 0x7
  | .rdmagic => bitsN 4 0x8
  | .rdtree => bitsN 4 0x9
  | .decode => bitsN 4 0xA
  | .rewind => bitsN 4 0xB
  | .compress => bitsN 4 0xC
  | .decompress => bitsN 4 0xD
  | .clrerr => bitsN 4 0xE
  | .reset => bitsN 4 0xF
  | .treeInternal => [false]
  | .treeLeaf sym => true :: bitsN 9 sym.toNat
  | .marker w => bitsN 32 w.toNat

/-- The instruction of an encoded thing, without the rest of the string. -/
def decodedInstr (r : Except DecodeError (Instr × List Bool)) : Option Instr :=
  match r with
  | .ok (i, _) => some i
  | .error _ => none

/-- The format a row of the opcode table has, by the number of bits the table gives it: 1 and 10 bits are tree
tokens (a token of 10 bits fills two whole bytes), 32 bits the marker, 4 bits a command (one whole byte). One whole
byte is read as a command, so that TREE.INTERNAL, which is the single bit 0, is reached at nbits = 1 only (DESIGN CHOICE,
log entry 14). -/
def tableFormat (nbits : Nat) : Option (Format × Nat) :=
  match nbits with
  | 1 => some (.wireToken, 1)
  | 4 => some (.cmd4, 4)
  | 8 => some (.cmd4, 4)
  | 10 => some (.wireToken, 10)
  | 16 => some (.wireToken, 10)
  | 32 => some (.wireHeader, 32)
  | _ => none

/-- The instruction the decoder reads from an opcode-table word: the word's bits laid out in stream order, most
significant bit of the row first. -/
def decodeTableWord (nbits w : Nat) : Option Instr :=
  match tableFormat nbits with
  | none => none
  | some (f, n) => decodedInstr (decode f (bitsN n w))

end Sys2Proof
end

