-- ==== Sys2Proof/Machine/State.lean ====
section
/-! DEFINITION. The state of HUFFCORE as plain data (10_state.md R30): registers, memories, hidden working state,
the two streams, and the host's queue of actions; the reasons a step can stop; the reset state (R70). -/

namespace Sys2Proof.Machine

/-- The sequencer (10_state.md R39): idle, or executing one command. The two places inside a command where the
block waits for an encoded word from the source are the marker of RDMAGIC and a token of RDTREE. `STATUS.BUSY` is 1
exactly when it is not idle. -/
inductive Sequencer where
  | idle
  | inMarker
  | inTree
  deriving DecidableEq, Repr

/-- The source stream (20_memory.md R80). -/
structure Source where
  bits : List Bool
  pos  : Nat
  deriving DecidableEq, Repr

/-- The sink stream (20_memory.md R80). -/
structure Sink where
  bits   : List Bool
  closed : Bool
  deriving DecidableEq, Repr

/-- What the host can do between commands: write or read an entry of the register map (10_state.md R58), attach a
source or a sink (20_memory.md R89); and the hardware reset input (70_reset_and_hazards.md R340). -/
inductive HostAction where
  | write (addr : BitVec 12) (value : Nat)
  | read (addr : BitVec 12)
  | attachSrc (bits : List Bool)
  | attachSnk
  | hwReset
  deriving DecidableEq, Repr

/-- The machine's state. `STATUS` is held as its fields (10_state.md R32), with `BUSY` read off the sequencer;
`CMD` holds no value (R31); `NODE` is held as the list of its specified entries 0, 1, …, every other entry being
unspecified (R42; DESIGN CHOICE, log entry 7); the register `MAGIC` returns `cfg.magic` (R35). `pending`, `hostData`
are the host's side (DESIGN CHOICE, log entry 2): the actions it will take, in order, and the value its last read
returned. `free` is the model's own counter of free values (DESIGN CHOICE, log entry 9). -/
structure State where
  err      : Bool
  tv       : Bool
  cv       : Bool
  degen    : Bool
  errcode  : BitVec 4
  errinfo  : BitVec 32
  root     : Idx
  nn       : Idx
  cur      : Idx
  hist     : Vector Nat 257
  node     : List Node
  code     : Vector CodeEntry 257
  seqr     : Sequencer
  hidden   : Hidden
  src      : Source
  snk      : Sink
  cfg      : Params
  pending  : List HostAction
  hostData : Nat
  free     : Nat
  deriving DecidableEq, Repr

/-- Why the machine stops with a fault. -/
inductive Fault where
  /-- Raised by GENCODE, WRTREE and DECODE when `TV = 1` and yet the walk
  reaches a node entry that holds no specified value, does not end, or meets a leaf whose symbol is above 256: the
  node memory then holds no valid tree, which 10_state.md R41 rules out (log entry 13). Safe: the model stops where
  the spec says the case cannot be. -/
  | invalidTree
  deriving DecidableEq, Repr

/-- Why the model gives no meaning. -/
inductive Refusal where
  /-- Raised by exec for an instruction that has no meaning yet. Safe. -/
  | notModelled (mnemonic : String)
  /-- Raised by WRMAGIC, WRTREE, ENCODE, DECODE, FLUSH and the composites at the `SnkWrite` or `SnkFlush` they would
  make on a closed sink (20_memory.md R90, 93_implementation_defined.md U7: "refuse"; log entry 10). Safe. -/
  | sinkClosed
  /-- Raised by every command executed while `STATUS.BUSY = 1` (93_implementation_defined.md U9: "refuse"; log
  entry 11). Safe. -/
  | commandWhileBusy
  deriving DecidableEq, Repr

/-- The machine right after reset (10_state.md R70). The streams belong to the host; until it attaches its own they
are the empty source and the empty open sink (DESIGN CHOICE, log entry 4). -/
def State.reset : State :=
  { err := false, tv := false, cv := false, degen := false,
    errcode := 0#4, errinfo := 0#32,
    root := idxNil, nn := 0#10, cur := idxNil,
    hist := Vector.replicate 257 0,
    node := [],
    code := Vector.replicate 257 CodeEntry.none,
    seqr := .idle,
    hidden := Hidden.empty,
    src := { bits := [], pos := 0 },
    snk := { bits := [], closed := false },
    cfg := Config.params,
    pending := [], hostData := 0, free := 0 }

end Sys2Proof.Machine
end

