-- ==== Sys2Proof/Machine/Operands.lean ====
section
/-! DEFINITION. The operand forms of the commands: reading and writing an entry of HIST, NODE, CODE and SEEN, the
zero extension of a unit to a symbol, and the words an entry is at the host (10_state.md R42, R45, R47). -/

namespace Sys2Proof.Machine

/-- `MAX_NODES = 513` (00_scope.md R10). -/
def maxNodes : Nat := 513

/-- `WMAX = 2^WBITS - 1` (00_scope.md R10). -/
def wmax (p : Params) : Nat := 2 ^ p.wbits - 1

/-- Entry s of a 257-entry memory. -/
def rdSym {α : Type} (t : Vector α 257) (s : Sym) : α := t[s.val]

/-- Write entry s of a 257-entry memory. -/
def wrSym {α : Type} (t : Vector α 257) (s : Sym) (v : α) : Vector α 257 := t.set s.val v

/-- `zext_9` of an 8-bit unit read from a stream, as a symbol 0 to 255 (00_scope.md section 6, R160, R240). -/
def unitSym (u : Nat) : Sym := Fin.ofNat 257 (u % 256)

/-- The symbol of a 9-bit field, none for 257 to 511 (30_encoding.md R131). -/
def symOf (field : BitVec 9) : Option Sym :=
  if h : field.toNat < 257 then some ⟨field.toNat, h⟩ else none

/-- The 9-bit field of a symbol (30_encoding.md R123). -/
def symField (s : Sym) : BitVec 9 := BitVec.ofNat 9 s.val

/-- `NODE[i]` by number: none for an entry that holds no specified value (10_state.md R42). -/
def nodeNat (node : List Node) (i : Nat) : Option Node := node[i]?

/-- `NODE[i]` by a 10-bit index. -/
def nodeAt (node : List Node) (i : Idx) : Option Node := nodeNat node i.toNat

/-- The weight of node i. -/
def weightOf (node : List Node) (i : Nat) : Nat :=
  match nodeNat node i with
  | some n => n.weight
  | none => 0

/-- A leaf entry: both children `NIL` (10_state.md R42). -/
def leafNode (sym : BitVec 9) (weight : Nat) : Node :=
  { leaf := true, sym := sym, left := idxNil, right := idxNil, weight := weight }

/-- An internal entry: `sym = 0` (10_state.md R42). -/
def internalNode (left right : Idx) (weight : Nat) : Node :=
  { leaf := false, sym := 0#9, left := left, right := right, weight := weight }

/-- A node entry as the number the host reads: leaf in bit 0, sym in 9:1, left in 19:10, right in 29:20, weight in
29+WBITS:30 (10_state.md R42). -/
def nodeWord (n : Node) : Nat :=
  n.leaf.toNat + n.sym.toNat * 2 ^ 1 + n.left.toNat * 2 ^ 10 + n.right.toNat * 2 ^ 20 + n.weight * 2 ^ 30

/-- A code table entry as the number the host reads: valid in bit 0, len in 9:1, bits in 265:10 (10_state.md
R47). -/
def codeWord (c : CodeEntry) : Nat :=
  c.valid.toNat + c.len.toNat * 2 ^ 1 + c.bits.toNat * 2 ^ 10

/-- The valid code entry of a path of `len` bits whose number is `num` (42_code_generator.md R190). -/
def codeEntry (len num : Nat) : CodeEntry :=
  { valid := true, len := BitVec.ofNat 9 len, bits := BitVec.ofNat 256 num }

/-- The code word of an entry as a bit string: `bitsN(CODE[s].bits)` with N = `CODE[s].len` (10_state.md R47). -/
def codeString (c : CodeEntry) : List Bool := bitsN c.len.toNat c.bits.toNat

end Sys2Proof.Machine
end

