-- ==== Sys2Proof/Machine/Flags.lean ====
section
/-! DEFINITION. The flags of `STATUS`, the error kinds and their codes (10_state.md R32, R52 to R55;
60_exceptions.md R300), and when a command is accepted (30_encoding.md R145). -/

namespace Sys2Proof.Machine

/-- `STATUS.BUSY` (10_state.md R32, R39): the sequencer is executing a command. -/
def State.busy (s : State) : Bool := !decide (s.seqr = .idle)

/-- The register `STATUS`: BUSY 0, ERR 1, TV 2, CV 3, DEGEN 4, bits 7:5 zero (10_state.md R32). -/
def State.status (s : State) : BitVec 8 :=
  BitVec.ofNat 8
    (s.busy.toNat + s.err.toNat * 2 + s.tv.toNat * 4 + s.cv.toNat * 8 + s.degen.toNat * 16)

/-- The eleven error kinds (60_exceptions.md R300). -/
inductive ErrKind where
  | badMagic
  | hdrExhausted
  | hdrSymbol
  | hdrDup
  | hdrSize
  | hdrNoSent
  | truncated
  | seqError
  | overflow
  | noCode
  | badHist
  deriving DecidableEq, Repr

/-- The code of an error in `ERRCODE` (60_exceptions.md R300). -/
def ErrKind.code : ErrKind → BitVec 4
  | .badMagic => 1#4
  | .hdrExhausted => 2#4
  | .hdrSymbol => 3#4
  | .hdrDup => 4#4
  | .hdrSize => 5#4
  | .hdrNoSent => 6#4
  | .truncated => 7#4
  | .seqError => 8#4
  | .overflow => 9#4
  | .noCode => 10#4
  | .badHist => 11#4

/-- `TV <- 0; CV <- 0; DEGEN <- 0; CUR <- NIL`, the first action of BUILD and RDTREE (41_tree_builder.md R170,
43_tree_serial.md R214). -/
def dropTree (s : State) : State :=
  { s with tv := false, cv := false, degen := false, cur := idxNil }

/-- The leaf field of the root of a node memory, the value of `DEGEN` (10_state.md R54). -/
def rootLeaf (node : List Node) (root : Nat) : Bool :=
  match nodeNat node root with
  | some n => n.leaf
  | none => false

end Sys2Proof.Machine
end

