-- ==== Sys2Proof/Machine/Ops.lean ====
section
/-! DEFINITION. The shared operations: outcomes in sequence, the four stream calls (20_memory.md R82 to R87), error
entry and return (60_exceptions.md R318, R322), acceptance (30_encoding.md R145), reset (10_state.md R70), and the
host's register map (R58, R59). -/

namespace Sys2Proof.Machine

/-- An outcome that carries a part of the state. -/
abbrev Out (α : Type) := Host.Outcome α Fault Refusal

/-- Go on with the value of an outcome; a fault or refusal stays. -/
def bindOut {α β : Type} (o : Out α) (f : α → Out β) : Out β :=
  match o with
  | .next a => f a
  | .fault r => .fault r
  | .refused r => .refused r

/-- Change the value of an outcome. -/
def mapOut {α β : Type} (f : α → β) (o : Out α) : Out β :=
  bindOut o (fun a => .next (f a))

/-- The next step of a composite command: it runs unless the one before it raised an error
(46_control_and_sequences.md R291, R293). -/
def thenOk (o : Out State) (f : State → Out State) : Out State :=
  bindOut o (fun s => if s.err then .next s else f s)

/-! ### The streams -/

/-- The bits of a source that have not been read. -/
def Source.rest (src : Source) : List Bool := src.bits.drop src.pos

/-- A source n bits further on. -/
def Source.advance (src : Source) (n : Nat) : Source := { src with pos := src.pos + n }

/-- `SrcRead(n)` (20_memory.md R82): the number and the source after it, or none for `EXHAUSTED`, which consumes
nothing (R83). -/
def srcRead (n : Nat) (src : Source) : Option (Nat × Source) :=
  if src.pos + n ≤ src.bits.length then some (bitsVal (src.rest.take n), src.advance n) else none

/-- `SrcRewind()` (20_memory.md R84). -/
def srcRewind (src : Source) : Source := { src with pos := 0 }

/-- `SnkWrite(n, v)` (20_memory.md R85), refused on a closed sink, n = 0 too (R90; DEDUCED, log entry 10). -/
def snkWrite (n v : Nat) (snk : Sink) : Out Sink :=
  if snk.closed then .refused .sinkClosed
  else .next { snk with bits := snk.bits ++ bitsN n v }

/-- The number of padding bits up to the next byte boundary (20_memory.md R87). -/
def padBits (n : Nat) : Nat := (8 - n % 8) % 8

/-- `SnkFlush()` (20_memory.md R87), refused on a closed sink (R90). -/
def snkFlush (snk : Sink) : Out Sink :=
  if snk.closed then .refused .sinkClosed
  else .next { bits := snk.bits ++ List.replicate (padBits snk.bits.length) false, closed := true }

/-- The bits of a source attached from bytes (20_memory.md R88): most significant bit of byte 0 first. -/
def bitsOfBytes (bytes : List (BitVec 8)) : List Bool := bytes.flatMap (fun b => bitsN 8 b.toNat)

/-! ### Errors -/

/-- `raise E(info)` (60_exceptions.md R318): the error is recorded and the running command ends. The hidden working
state is unspecified afterwards (93_implementation_defined.md U10): a free value (log entry 9). -/
def raise (e : ErrKind) (info : Nat) (s : State) : State :=
  { s with errcode := e.code, errinfo := BitVec.ofNat 32 info, err := true, seqr := .idle,
           hidden := Config.freeHidden s.free, free := s.free + 1 }

/-- Return from the error state (46_control_and_sequences.md R278, 60_exceptions.md R322). The hidden working state, which
the error left unspecified, is empty again at the successful end of the command (10_state.md R49, R50;
93_implementation_defined.md U10). No other command succeeds before it but RESET, so it is empty at the end of every
command that succeeds. -/
def clearError (s : State) : State :=
  { s with err := false, errcode := 0#4, errinfo := 0#32, hidden := Hidden.empty }

/-- What a BUILD or RDTREE that raises leaves of the tree: `NODE`, `ROOT` and `NN` are unspecified (60_exceptions.md
R319, 93_implementation_defined.md U10): no entry of NODE is specified, and ROOT and NN are free values (DEDUCED, log
entry 8). -/
def loseTree (s : State) : State :=
  { s with node := [], root := BitVec.ofNat 10 (Config.freeWord s.free),
           nn := BitVec.ofNat 10 (Config.freeWord (s.free + 1)), free := s.free + 2 }

/-- An error of BUILD or RDTREE: the tree is lost and the error raised. -/
def failTree (e : ErrKind) (info : Nat) (s : State) : State := raise e info (loseTree s)

/-! ### Acceptance -/

/-- Acceptance of a command other than CLRERR and RESET (30_encoding.md R145): ignored while `ERR = 1`. A command
while `BUSY = 1` is refused (93_implementation_defined.md U9; log entry 11). -/
def accept (body : State → Out State) (s : State) : Out State :=
  if s.busy then .refused .commandWhileBusy
  else if s.err then .next s
  else body s

/-- Acceptance of CLRERR and RESET, whatever `ERR` is (30_encoding.md R145). -/
def acceptAlways (body : State → Out State) (s : State) : Out State :=
  if s.busy then .refused .commandWhileBusy else body s

/-! ### Reset -/

/-- The effect of a reset, by the input or by the command: every element of the block takes its reset value of
10_state.md R70; the streams, the configuration and the host's side are not touched (70_reset_and_hazards.md R340,
R342). -/
def resetBlock (s : State) : State :=
  { State.reset with src := s.src, snk := s.snk, cfg := s.cfg, pending := s.pending,
                     hostData := s.hostData, free := s.free }

/-! ### The host's register map -/

/-- The value of a node entry at the host, none where the entry is unspecified (10_state.md R42, R71). -/
def hostNode (i : Nat) (s : State) : Option Nat := (nodeNat s.node i).map nodeWord

/-- A host read (10_state.md R58). An unspecified node entry reads as a free value of its width (R71,
93_implementation_defined.md U10; log entry 7). -/
def hostRead (addr : BitVec 12) (s : State) : State :=
  let a := addr.toNat
  if a = 0x001 then { s with hostData := s.status.toNat }
  else if a = 0x002 then { s with hostData := s.errcode.toNat }
  else if a = 0x003 then { s with hostData := s.root.toNat }
  else if a = 0x004 then { s with hostData := s.nn.toNat }
  else if a = 0x005 then { s with hostData := s.cur.toNat }
  else if a = 0x006 then { s with hostData := s.cfg.magic.toNat }
  else if a = 0x007 then { s with hostData := s.errinfo.toNat }
  else if 0x100 ≤ a ∧ a ≤ 0x200 then { s with hostData := rdSym s.hist (Fin.ofNat 257 (a - 0x100)) }
  else if 0x400 ≤ a ∧ a ≤ 0x600 then
    match hostNode (a - 0x400) s with
    | some w => { s with hostData := w }
    | none => { s with hostData := Config.freeWord s.free % 2 ^ (30 + s.cfg.wbits), free := s.free + 1 }
  else if 0x800 ≤ a ∧ a ≤ 0x900 then
    { s with hostData := codeWord (rdSym s.code (Fin.ofNat 257 (a - 0x800))) }
  else { s with hostData := 0 }

/-- A host write to an address other than that of `CMD` (10_state.md R58, R59): only `HIST` takes it, and nothing
else changes. -/
def hostWrite (addr : BitVec 12) (v : Nat) (s : State) : State :=
  let a := addr.toNat
  if 0x100 ≤ a ∧ a ≤ 0x200 then
    { s with hist := wrSym s.hist (Fin.ofNat 257 (a - 0x100)) (v % 2 ^ s.cfg.wbits) }
  else s

/-- `ATTACH_SRC(bits)` (20_memory.md R89). -/
def attachSrc (bits : List Bool) (s : State) : State := { s with src := { bits := bits, pos := 0 } }

/-- `ATTACH_SNK()` (20_memory.md R89). -/
def attachSnk (s : State) : State := { s with snk := { bits := [], closed := false } }

end Sys2Proof.Machine
end

