-- ==== Sys2Proof/Machine/Builder.lean ====
section
/-! DEFINITION. Unit huffman_tree_builder: the command BUILD (41_tree_builder.md). -/

namespace Sys2Proof.Machine

/-- One leaf for each entry with a count above 0, in ascending order of symbol (41_tree_builder.md R171): the leaves
of the symbols `s`, `s + 1`, … whose counts are given. -/
def leafNodes : Nat → List Nat → List Node
  | _, [] => []
  | s, c :: cs => if 0 < c then leafNode (BitVec.ofNat 9 s) c :: leafNodes (s + 1) cs else leafNodes (s + 1) cs

/-- The order of 00_scope.md R16 on nodes: (weight, index), lexicographic. -/
def nodeLess (node : List Node) (i j : Nat) : Bool :=
  decide (weightOf node i < weightOf node j) || (decide (weightOf node i = weightOf node j) && decide (i < j))

/-- The least of the indices `a :: is` under the order. -/
def leastIdx (node : List Node) : Nat → List Nat → Nat
  | a, [] => a
  | a, i :: is => leastIdx node (if nodeLess node i a then i else a) is

/-- Remove the least element of the priority set (10_state.md R50). -/
def popLeast (node : List Node) (pq : List Nat) : Option (Nat × List Nat) :=
  match pq with
  | [] => none
  | a :: is => some (leastIdx node a is, (a :: is).erase (leastIdx node a is))

/-- What the merge loop leaves: the node memory, the priority set, and whether a sum exceeded `WMAX`. -/
structure Merged where
  node     : List Node
  pq       : List Nat
  overflow : Bool
  deriving DecidableEq, Repr

/-- The merge loop of BUILD (41_tree_builder.md R170, R172 to R174), at most `fuel` passes; one pass takes one element
off the priority set. -/
def mergeLoop (wm : Nat) : Nat → List Node → List Nat → Merged
  | 0, node, pq => { node := node, pq := pq, overflow := false }
  | k + 1, node, pq =>
    match popLeast node pq with
    | none => { node := node, pq := pq, overflow := false }
    | some (a, pq1) =>
      match popLeast node pq1 with
      | none => { node := node, pq := pq, overflow := false }
      | some (b, pq2) =>
        if wm < weightOf node a + weightOf node b then { node := node, pq := pq2, overflow := true }
        else
          mergeLoop wm k
            (node ++ [internalNode (BitVec.ofNat 10 a) (BitVec.ofNat 10 b) (weightOf node a + weightOf node b)])
            (pq2 ++ [node.length])

/-- The body of BUILD (41_tree_builder.md R170). -/
def runBuild (s : State) : Out State :=
  if rdSym s.hist sentinel = 0 then .next (failTree .badHist 0 (dropTree s))
  else
    let lvs := leafNodes 0 s.hist.toList
    let m := mergeLoop (wmax s.cfg) lvs.length lvs (List.range lvs.length)
    if m.overflow then .next (failTree .overflow 0x100 (dropTree s))
    else
      let root := m.pq.headD 0
      .next { dropTree s with
                node := m.node, root := BitVec.ofNat 10 root, nn := BitVec.ofNat 10 m.node.length,
                degen := rootLeaf m.node root, tv := true, hidden := { s.hidden with pq := m.pq.tail } }

/-- BUILD (41_tree_builder.md R170). -/
def execBuild (s : State) : Out State := accept runBuild s

end Sys2Proof.Machine
end

