-- ==== Sys2Proof/Machine/Control.lean ====
section
/-! DEFINITION. The control commands NOP, FLUSH, REWIND, CLRERR, RESET (46_control_and_sequences.md R275 to R279). -/

namespace Sys2Proof.Machine

/-- NOP (46_control_and_sequences.md R275). -/
def execNop (s : State) : Out State := accept (fun s => .next s) s

/-- The body of FLUSH (46_control_and_sequences.md R276). -/
def runFlush (s : State) : Out State := mapOut (fun snk => { s with snk := snk }) (snkFlush s.snk)

/-- FLUSH (46_control_and_sequences.md R276). -/
def execFlush (s : State) : Out State := accept runFlush s

/-- The body of REWIND (46_control_and_sequences.md R277). -/
def runRewind (s : State) : Out State := .next { s with src := srcRewind s.src }

/-- REWIND (46_control_and_sequences.md R277). -/
def execRewind (s : State) : Out State := accept runRewind s

/-- CLRERR (46_control_and_sequences.md R278). -/
def execClrerr (s : State) : Out State := acceptAlways (fun s => .next (clearError s)) s

/-- RESET (46_control_and_sequences.md R279). -/
def execReset (s : State) : Out State := acceptAlways (fun s => .next (resetBlock s)) s

end Sys2Proof.Machine
end

