-- ==== Sys2Proof/Machine/Counter.lean ====
section
/-! DEFINITION. Unit huffman_freq_counter: the command HIST (40_frequency_counter.md). -/

namespace Sys2Proof.Machine

/-- The counting loop of HIST (40_frequency_counter.md R160): the source and histogram after it, and the symbol whose
count would have exceeded `WMAX` (R162). Each pass consumes a unit, so a bound of the remaining bits is enough. -/
def countUnits (wm : Nat) : Nat → Source → Vector Nat 257 → Source × Vector Nat 257 × Option Sym
  | 0, src, h => (src, h, none)
  | k + 1, src, h =>
    match srcRead 8 src with
    | none => (src, h, none)
    | some (u, src1) =>
      if rdSym h (unitSym u) = wm then (src1, h, some (unitSym u))
      else countUnits wm k src1 (wrSym h (unitSym u) (rdSym h (unitSym u) + 1))

/-- The body of HIST (40_frequency_counter.md R160 to R162). -/
def runHist (s : State) : Out State :=
  match countUnits (wmax s.cfg) s.src.rest.length s.src (Vector.replicate 257 0) with
  | (src, h, some x) => .next (raise .overflow x.val { s with src := src, hist := h })
  | (src, h, none) => .next { s with src := src, hist := wrSym h sentinel (max (rdSym h sentinel) 1) }

/-- HIST (40_frequency_counter.md R160). -/
def execHist (s : State) : Out State := accept runHist s

end Sys2Proof.Machine
end

