-- ==== Sys2Proof/Machine/Decoder.lean ====
section
/-! DEFINITION. Unit huffman_decoder: the command DECODE (45_decoder.md). -/

namespace Sys2Proof.Machine

/-- What DECODE's loop leaves: the source, `CUR`, the sink, and whether the source ran out (45_decoder.md R258). -/
structure Walked where
  src       : Source
  cur       : Idx
  snk       : Sink
  truncated : Bool
  deriving DecidableEq, Repr

/-- The loop of DECODE (45_decoder.md R255, R257 to R261). Each pass consumes a bit or ends, so a bound of one more than
the remaining bits is enough. -/
def decodeLoop (node : List Node) (root : Idx) : Nat → Source → Idx → Sink → Out Walked
  | 0, _, _, _ => .fault .invalidTree
  | k + 1, src, cur, snk =>
    match srcRead 1 src with
    | none => .next { src := src, cur := cur, snk := snk, truncated := true }
    | some (b, src1) =>
      match nodeAt node cur with
      | none => .fault .invalidTree
      | some n =>
        let cur1 := if b = 0 then n.left else n.right
        match nodeAt node cur1 with
        | none => .fault .invalidTree
        | some n1 =>
          if n1.leaf then
            if n1.sym.toNat = 256 then .next { src := src1, cur := cur1, snk := snk, truncated := false }
            else
              match snkWrite 8 n1.sym.toNat snk with
              | .next snk1 => decodeLoop node root k src1 root snk1
              | .fault r => .fault r
              | .refused r => .refused r
          else decodeLoop node root k src1 cur1 snk

/-- The body of DECODE (45_decoder.md R255 to R261). -/
def runDecode (s : State) : Out State :=
  if s.tv then
    match nodeAt s.node s.root with
    | none => .fault .invalidTree
    | some n =>
      if n.leaf then .next { s with cur := s.root }
      else
        bindOut (decodeLoop s.node s.root (s.src.rest.length + 1) s.src s.root s.snk) (fun w =>
          let s1 := { s with src := w.src, cur := w.cur, snk := w.snk }
          if w.truncated then .next (raise .truncated w.cur.toNat s1) else .next s1)
  else .next (raise .seqError 0xA s)

/-- DECODE (45_decoder.md R255). -/
def execDecode (s : State) : Out State := accept runDecode s

end Sys2Proof.Machine
end

