-- ==== Sys2Proof/Machine/Encoder.lean ====
section
/-! DEFINITION. Unit huffman_encoder: the command ENCODE (44_encoder.md). -/

namespace Sys2Proof.Machine

/-- What ENCODE's loop leaves: the source, the sink, and the symbol that had no code (44_encoder.md R243). -/
structure Encoded where
  src    : Source
  snk    : Sink
  noCode : Option Sym
  deriving DecidableEq, Repr

/-- The loop of ENCODE (44_encoder.md R240, R241, R243). Each pass consumes a unit, so a bound of the remaining bits is
enough. -/
def encodeLoop (code : Vector CodeEntry 257) : Nat → Source → Sink → Out Encoded
  | 0, src, snk => .next { src := src, snk := snk, noCode := none }
  | k + 1, src, snk =>
    match srcRead 8 src with
    | none => .next { src := src, snk := snk, noCode := none }
    | some (u, src1) =>
      let c := rdSym code (unitSym u)
      if c.valid then
        match snkWrite c.len.toNat c.bits.toNat snk with
        | .next snk1 => encodeLoop code k src1 snk1
        | .fault r => .fault r
        | .refused r => .refused r
      else .next { src := src1, snk := snk, noCode := some (unitSym u) }

/-- The body of ENCODE (44_encoder.md R240 to R243). -/
def runEncode (s : State) : Out State :=
  if s.cv then
    bindOut (encodeLoop s.code s.src.rest.length s.src s.snk) (fun e =>
      match e.noCode with
      | some x => .next (raise .noCode x.val { s with src := e.src, snk := e.snk })
      | none =>
        let c := rdSym s.code sentinel
        mapOut (fun snk => { s with src := e.src, snk := snk }) (snkWrite c.len.toNat c.bits.toNat e.snk))
  else .next (raise .seqError 0x6 s)

/-- ENCODE (44_encoder.md R240). -/
def execEncode (s : State) : Out State := accept runEncode s

end Sys2Proof.Machine
end

