-- ==== Sys2Proof/Machine/CodeGen.lean ====
section
/-! DEFINITION. Unit huffman_code_generator: the command GENCODE (42_code_generator.md). -/

namespace Sys2Proof.Machine

/-- How many entries a tree walk may pop: one for each of the 513 nodes a valid tree can have, and the look at the
empty stack (10_state.md R42, R49; log entry 21). -/
def walkFuel : Nat := maxNodes + 1

/-- The walk of 42_code_generator.md R192, with the explicit stack. -/
def genLoop (node : List Node) : Nat → List StkEntry → Vector CodeEntry 257 →
    Out (List StkEntry × Vector CodeEntry 257)
  | 0, _, _ => .fault .invalidTree
  | _ + 1, [], code => .next ([], code)
  | k + 1, e :: stk, code =>
    match nodeNat node e.idx with
    | none => .fault .invalidTree
    | some n =>
      if n.leaf then
        match symOf n.sym with
        | none => .fault .invalidTree
        | some s => genLoop node k stk (wrSym code s (codeEntry e.len e.num))
      else
        genLoop node k
          ({ idx := n.left.toNat, len := e.len + 1, num := 2 * e.num }
            :: { idx := n.right.toNat, len := e.len + 1, num := 2 * e.num + 1 } :: stk) code

/-- The body of GENCODE (42_code_generator.md R190, R192). -/
def runGencode (s : State) : Out State :=
  if s.tv then
    mapOut (fun r => { s with hidden := { s.hidden with stk := r.1 }, code := r.2, cv := true })
      (genLoop s.node walkFuel [{ idx := s.root.toNat }] (Vector.replicate 257 CodeEntry.none))
  else .next (raise .seqError 0x3 s)

/-- GENCODE (42_code_generator.md R190). -/
def execGencode (s : State) : Out State := accept runGencode s

end Sys2Proof.Machine
end

