-- ==== Sys2Proof/Machine/Serial.lean ====
section
/-! DEFINITION. Units huffman_tree_serializer (WRMAGIC, WRTREE) and huffman_tree_deserializer (RDMAGIC, RDTREE), and
the three wire tokens as the deserializer executes them (43_tree_serial.md; 30_encoding.md R121 to R123). -/

namespace Sys2Proof.Machine

/-! ### WRMAGIC and WRTREE -/

/-- The body of WRMAGIC (43_tree_serial.md R205). -/
def runWrmagic (s : State) : Out State :=
  mapOut (fun snk => { s with snk := snk }) (snkWrite 32 s.cfg.magic.toNat s.snk)

/-- WRMAGIC (43_tree_serial.md R205). -/
def execWrmagic (s : State) : Out State := accept runWrmagic s

/-- The preorder walk of 43_tree_serial.md R208, with the explicit stack. -/
def serLoop (node : List Node) : Nat → List StkEntry → Sink → Out (List StkEntry × Sink)
  | 0, _, _ => .fault .invalidTree
  | _ + 1, [], snk => .next ([], snk)
  | k + 1, e :: stk, snk =>
    match nodeNat node e.idx with
    | none => .fault .invalidTree
    | some n =>
      if n.leaf then
        match bindOut (snkWrite 1 1 snk) (snkWrite 9 n.sym.toNat) with
        | .next snk1 => serLoop node k stk snk1
        | .fault r => .fault r
        | .refused r => .refused r
      else
        match snkWrite 1 0 snk with
        | .next snk1 => serLoop node k ({ idx := n.left.toNat } :: { idx := n.right.toNat } :: stk) snk1
        | .fault r => .fault r
        | .refused r => .refused r

/-- The body of WRTREE (43_tree_serial.md R206, R208). -/
def runWrtree (s : State) : Out State :=
  if s.tv then
    mapOut (fun r => { s with hidden := { s.hidden with stk := r.1 }, snk := r.2 })
      (serLoop s.node walkFuel [{ idx := s.root.toNat }] s.snk)
  else .next (raise .seqError 0x5 s)

/-- WRTREE (43_tree_serial.md R206). -/
def execWrtree (s : State) : Out State := accept runWrtree s

/-! ### RDMAGIC and the marker -/

/-- The comparison of RDMAGIC, once the 32 bits are read (43_tree_serial.md R210). -/
def checkMarker (w : BitVec 32) (s : State) : State :=
  if w = s.cfg.magic then { s with seqr := .idle } else raise .badMagic w.toNat s

/-- The body of RDMAGIC (43_tree_serial.md R210). -/
def runRdmagic (s : State) : Out State :=
  match srcRead 32 s.src with
  | none => .next (raise .badMagic 0 s)
  | some (v, src) => .next (checkMarker (BitVec.ofNat 32 v) { s with src := src })

/-- RDMAGIC (43_tree_serial.md R210). -/
def execRdmagic (s : State) : Out State := accept runRdmagic s

/-- MARKER (30_encoding.md R121, R132): RDMAGIC compares it with `MAGIC`. Away from RDMAGIC the bits of a stream have no
effect of their own (20_memory.md R80, R92; DEDUCED, log entry 12). -/
def execMarker (w : BitVec 32) (s : State) : Out State :=
  .next (match s.seqr with
    | .inMarker => checkMarker w s
    | .inTree => s
    | .idle => s)

/-! ### RDTREE and the tree tokens -/

/-- The first actions of RDTREE (43_tree_serial.md R214): no tree, no nodes, the hidden state cleared, and the block
waits for a token. -/
def startTree (s : State) : State :=
  { dropTree s with node := [], seqr := .inTree, hidden := { Hidden.empty with mstep := s.hidden.mstep } }

/-- `link(p, side, n)` (43_tree_serial.md R214). -/
def linkNode (link : Option (Nat × Side)) (n : Nat) (node : List Node) : List Node :=
  match link with
  | none => node
  | some (p, .left) => node.modify p (fun x => { x with left := BitVec.ofNat 10 n })
  | some (p, .right) => node.modify p (fun x => { x with right := BitVec.ofNat 10 n })

/-- Store node `n = |NODE|` and hang it under the waiting parent (43_tree_serial.md R214). -/
def storeNode (x : Node) (s : State) : State :=
  { s with node := linkNode s.hidden.link s.node.length (s.node ++ [x]) }

/-- The pass of RDTREE on an INTERNAL token (43_tree_serial.md R214, R217). -/
def treeInternal (s : State) : State :=
  if s.hidden.ni = 256 then failTree .hdrSize s.node.length s
  else
    { storeNode (internalNode idxNil idxNil 0) s with
        hidden := { s.hidden with ni := s.hidden.ni + 1,
                                  stk := { idx := s.node.length } :: s.hidden.stk,
                                  link := some (s.node.length, .left) } }

/-- The end of RDTREE, when the last token has been read (43_tree_serial.md R214, R218, R220). -/
def finishTree (s : State) : State :=
  if rdSym s.hidden.seen sentinel then
    { s with root := 0#10, nn := BitVec.ofNat 10 s.node.length, degen := rootLeaf s.node 0, tv := true,
             seqr := .idle, hidden := { Hidden.empty with mstep := s.hidden.mstep } }
  else failTree .hdrNoSent 0 s

/-- After a leaf: the internal node on top of the stack takes its right child next; with an empty stack the tree is
complete (43_tree_serial.md R214). -/
def afterLeaf (s : State) : State :=
  match s.hidden.stk with
  | [] => finishTree s
  | e :: stk => { s with hidden := { s.hidden with stk := stk, link := some (e.idx, .right) } }

/-- A leaf of an unseen symbol is marked as seen and stored (43_tree_serial.md R214). -/
def storeLeaf (x : Sym) (s : State) : State :=
  let s1 := storeNode (leafNode (symField x) 0) s
  afterLeaf { s1 with hidden := { s1.hidden with seen := wrSym s1.hidden.seen x true } }

/-- The pass of RDTREE on a LEAF token, once its field is read (43_tree_serial.md R214 to R216, R219). -/
def treeLeaf (field : BitVec 9) (s : State) : State :=
  match symOf field with
  | none => failTree .hdrSymbol field.toNat s
  | some x => if rdSym s.hidden.seen x then failTree .hdrDup x.val s else storeLeaf x s

/-- TREE.INTERNAL (30_encoding.md R122): one pass of RDTREE. Away from RDTREE the bits of a stream have no effect of
their own (20_memory.md R80, R92; DEDUCED, log entry 12). -/
def execTreeInternal (s : State) : Out State :=
  .next (match s.seqr with
    | .inTree => treeInternal s
    | .inMarker => s
    | .idle => s)

/-- TREE.LEAF (30_encoding.md R123): one pass of RDTREE. Away from RDTREE the bits of a stream have no effect of their
own (20_memory.md R80, R92; DEDUCED, log entry 12). -/
def execTreeLeaf (field : BitVec 9) (s : State) : Out State :=
  .next (match s.seqr with
    | .inTree => treeLeaf field s
    | .inMarker => s
    | .idle => s)

/-- Read the next tree token: `SrcRead(1)`, and `SrcRead(9)` after a 1 (43_tree_serial.md R214). The error gives the
source as the exhausted read leaves it: after the flag bit of a leaf whose field is cut short (R219). -/
def readToken (src : Source) : Except Source (Instr × Source) :=
  match decode .wireToken src.rest with
  | .ok (i, _) => .ok (i, src.advance (encode i).length)
  | .error .symbolTooShort => .error (src.advance 1)
  | .error .flagMissing => .error src
  | .error .codeTooShort => .error src
  | .error .markerTooShort => .error src

/-- One pass of RDTREE's loop (43_tree_serial.md R214): read a token and act on it. -/
def treePass (s : State) : State :=
  match readToken s.src with
  | .error src => failTree .hdrExhausted s.node.length { s with src := src }
  | .ok (.treeInternal, src) => treeInternal { s with src := src }
  | .ok (.treeLeaf field, src) => treeLeaf field { s with src := src }
  | .ok (_, src) => { s with src := src }

/-- RDTREE's loop: passes until the command ends. Each pass consumes a bit or ends it, so a bound of one more than the
remaining bits is enough. -/
def treeLoop : Nat → State → State
  | 0, s => s
  | k + 1, s =>
    match s.seqr with
    | .inTree => treeLoop k (treePass s)
    | .inMarker => s
    | .idle => s

/-- The body of RDTREE (43_tree_serial.md R212, R214). -/
def runRdtree (s : State) : Out State := .next (treeLoop (s.src.rest.length + 1) (startTree s))

/-- RDTREE (43_tree_serial.md R212). -/
def execRdtree (s : State) : Out State := accept runRdtree s

end Sys2Proof.Machine
end

