-- ==== Sys2Proof/Machine/Composite.lean ====
section
/-! DEFINITION. The composite commands COMPRESS and DECOMPRESS (46_control_and_sequences.md R290 to R294): the bodies of
the primitive commands in sequence, with `MSTEP` the number of the running one. -/

namespace Sys2Proof.Machine

/-- Set `MSTEP` (10_state.md R51). -/
def setStep (k : Nat) (s : State) : State := { s with hidden := { s.hidden with mstep := k } }

/-- Run the sub-command of step k. -/
def atStep (k : Nat) (body : State → Out State) (s : State) : Out State := body (setStep k s)

/-- The sub-commands of a composite one after another from step k on; the end clears `MSTEP`. An error stops it at the
failing step (46_control_and_sequences.md R291, R293; log entry 23). -/
def runSteps : Nat → List (State → Out State) → State → Out State
  | _, [], s => .next (setStep 0 s)
  | k, body :: bodies, s => thenOk (atStep k body s) (runSteps (k + 1) bodies)

/-- The body of COMPRESS (46_control_and_sequences.md R290). -/
def runCompress (s : State) : Out State :=
  runSteps 0 [runHist, runBuild, runGencode, runRewind, runWrmagic, runWrtree, runEncode, runFlush] s

/-- COMPRESS (46_control_and_sequences.md R290). -/
def execCompress (s : State) : Out State := accept runCompress s

/-- The body of DECOMPRESS (46_control_and_sequences.md R292). -/
def runDecompress (s : State) : Out State :=
  runSteps 0 [runRdmagic, runRdtree, runDecode, runFlush] s

/-- DECOMPRESS (46_control_and_sequences.md R292). -/
def execDecompress (s : State) : Out State := accept runDecompress s

end Sys2Proof.Machine
end

