-- ==== Sys2Proof/Machine/Dispatch.lean ====
section
/-! DEFINITION. One arm per row of the opcode table. -/

namespace Sys2Proof.Machine

def exec (i : Instr) (s : State) : Host.Outcome State Fault Refusal :=
  match i with
  | .nop => Sys2Proof.Machine.execNop s
  | .hist => Sys2Proof.Machine.execHist s
  | .build => Sys2Proof.Machine.execBuild s
  | .gencode => Sys2Proof.Machine.execGencode s
  | .wrmagic => Sys2Proof.Machine.execWrmagic s
  | .wrtree => Sys2Proof.Machine.execWrtree s
  | .encode => Sys2Proof.Machine.execEncode s
  | .flush => Sys2Proof.Machine.execFlush s
  | .rdmagic => Sys2Proof.Machine.execRdmagic s
  | .rdtree => Sys2Proof.Machine.execRdtree s
  | .decode => Sys2Proof.Machine.execDecode s
  | .rewind => Sys2Proof.Machine.execRewind s
  | .compress => Sys2Proof.Machine.execCompress s
  | .decompress => Sys2Proof.Machine.execDecompress s
  | .clrerr => Sys2Proof.Machine.execClrerr s
  | .reset => Sys2Proof.Machine.execReset s
  | .treeInternal => Sys2Proof.Machine.execTreeInternal s
  | .treeLeaf sym => Sys2Proof.Machine.execTreeLeaf sym s
  | .marker word => Sys2Proof.Machine.execMarker word s

end Sys2Proof.Machine
end

