-- ==== Sys2Proof/Machine/Fetch.lean ====
section
/-! DEFINITION. Where the next encoded thing comes from: a write to `CMD` while the block is idle (10_state.md R31), the
source stream while RDMAGIC or RDTREE waits for it (43_tree_serial.md R210, R214). The other host actions take a
step of their own. -/

namespace Sys2Proof.Machine

/-- What a step finds to do: execute an instruction in a state, or nothing more than has been done. -/
inductive Fetched where
  | instr (i : Instr) (s : State)
  | done (s : State)
  deriving DecidableEq, Repr

/-- The next host action of an idle block, in the order the host takes them (20_memory.md R100, R103). With none the
host has stopped issuing commands and nothing changes (00_scope.md R13; DESIGN CHOICE, log entry 24). -/
def fetchHost (s : State) : Fetched :=
  match s.pending with
  | [] => .done s
  | .write addr v :: rest =>
    if addr.toNat = 0 then .instr (decodeCmd v) { s with pending := rest }
    else .done (hostWrite addr v { s with pending := rest })
  | .read addr :: rest => .done (hostRead addr { s with pending := rest })
  | .attachSrc bits :: rest => .done (attachSrc bits { s with pending := rest })
  | .attachSnk :: rest => .done (attachSnk { s with pending := rest })
  | .hwReset :: rest => .done (resetBlock { s with pending := rest })

/-- The marker RDMAGIC waits for (43_tree_serial.md R210). -/
def fetchMarker (s : State) : Fetched :=
  match decode .wireHeader s.src.rest with
  | .ok (i, _) => .instr i { s with src := s.src.advance (encode i).length }
  | .error _ => .done (raise .badMagic 0 s)

/-- The token RDTREE waits for (43_tree_serial.md R214). -/
def fetchToken (s : State) : Fetched :=
  match readToken s.src with
  | .ok (i, src) => .instr i { s with src := src }
  | .error src => .done (failTree .hdrExhausted s.node.length { s with src := src })

/-- What a step finds to do. The hardware reset input acts at any time, inside a command too
(70_reset_and_hazards.md R340); every other host action waits until the block is idle (R356). -/
def fetch (s : State) : Fetched :=
  match s.pending with
  | .hwReset :: rest => .done (resetBlock { s with pending := rest })
  | _ =>
    match s.seqr with
    | .idle => fetchHost s
    | .inMarker => fetchMarker s
    | .inTree => fetchToken s

/-- Put bits into a source at its position, before what is there. -/
def insertBits (bits : List Bool) (src : Source) : Source :=
  { bits := src.bits.take src.pos ++ bits ++ src.bits.drop src.pos, pos := (src.bits.take src.pos).length }

/-- The host's queue from its first action that is no hardware reset. -/
def dropResets : List HostAction → List HostAction
  | .hwReset :: rest => dropResets rest
  | l => l

/-- The state whose next step fetches the given bits in the given format: a command is the host's next action, with the
block idle; a tree token is the next of the source, with RDTREE waiting for it (started now unless it was); a marker
likewise with RDMAGIC. A hardware reset at the head of the host's queue would act before a token, so it is taken off
(DESIGN CHOICE, log entry 15). -/
def placeBits (f : Format) (bits : List Bool) (s : State) : State :=
  match f with
  | .cmd4 => { s with seqr := .idle, pending := .write 0#12 (bitsVal bits) :: s.pending }
  | .wireToken =>
    let s1 := match s.seqr with
      | .inTree => s
      | .inMarker => startTree s
      | .idle => startTree s
    { s1 with src := insertBits bits s.src, pending := dropResets s.pending }
  | .wireHeader => { s with seqr := .inMarker, src := insertBits bits s.src, pending := dropResets s.pending }

end Sys2Proof.Machine
end

