-- ==== Sys2Proof/Machine/Step.lean ====
section
/-! DEFINITION. One step of the machine, and the placing of an opcode-table word where the step fetches. -/

namespace Sys2Proof.Machine

/-- One step (00_scope.md R12): one host action, a command among them, runs to its completion or its error. In a state
inside RDMAGIC or RDTREE a step is the reading and the effect of one encoded word of the source (DESIGN CHOICE, log entry 3). -/
def step (s : State) : Host.Outcome State Fault Refusal :=
  match fetch s with
  | .instr i s1 => exec i s1
  | .done s1 => .next s1

/-- The state in which the opcode-table word w of nbits bits is what the next step fetches. Where the table gives no
row that many bits the state is unchanged. -/
def State.withFetchWord (s : State) (nbits w : Nat) : State :=
  match tableFormat nbits with
  | none => s
  | some (f, n) => placeBits f (bitsN n w) s

end Sys2Proof.Machine
end

