-- ==== Sys2Proof/Machine/Tree.lean ====
section
/-! DEFINITION. The abstract tree of 10_state.md R40 and the functions the rules are stated with: `tree_of` (R43),
`ser` (43_tree_serial.md R207), `parse` (R213), `codes` (42_code_generator.md R191), `decode` (45_decoder.md R264).
No command runs them: they say what the commands' walks compute. -/

namespace Sys2Proof.Machine

/-- `Tree ::= Leaf(sym, weight) | Node(weight, left, right)` (10_state.md R40). -/
inductive Tree where
  | leaf (sym : BitVec 9) (weight : Nat)
  | node (weight : Nat) (left right : Tree)
  deriving DecidableEq, Repr

/-- The weight of a tree's root. -/
def Tree.weight : Tree → Nat
  | .leaf _ w => w
  | .node w _ _ => w

/-- The leaf symbols of a tree, left to right. -/
def Tree.syms : Tree → List Nat
  | .leaf s _ => [s.toNat]
  | .node _ l r => l.syms ++ r.syms

/-- The leaves of a tree as (symbol, weight), left to right. -/
def Tree.leaves : Tree → List (Nat × Nat)
  | .leaf s w => [(s.toNat, w)]
  | .node _ l r => l.leaves ++ r.leaves

/-- The number of nodes of a tree. -/
def Tree.size : Tree → Nat
  | .leaf _ _ => 1
  | .node _ l r => 1 + l.size + r.size

/-- Whether a tree is a leaf: the degenerate tree (00_scope.md section 9). -/
def Tree.isLeaf : Tree → Bool
  | .leaf _ _ => true
  | .node _ _ _ => false

/-- A valid tree (10_state.md R41 (b), (c), (d); (a) is the type's): leaf symbols 0 to 256, no symbol twice, the
sentinel among them. -/
abbrev Tree.Valid (t : Tree) : Prop :=
  (∀ s ∈ t.syms, s ≤ 256) ∧ t.syms.Nodup ∧ 256 ∈ t.syms

/-- Every internal weight is the sum of its children's weights (10_state.md R40). -/
def Tree.summed : Tree → Bool
  | .leaf _ _ => true
  | .node w l r => decide (w = l.weight + r.weight) && l.summed && r.summed

/-- The tree with every weight 0, as the deserializer gives it (43_tree_serial.md R213). -/
def Tree.unweighted : Tree → Tree
  | .leaf s _ => .leaf s 0
  | .node _ l r => .node 0 l.unweighted r.unweighted

/-- `tree_of(i)` (10_state.md R43), with the indices it visits in preorder, if the walk needs at most `fuel` levels and
meets only specified entries. -/
def treeAt : Nat → List Node → Nat → Option (Tree × List Nat)
  | 0, _, _ => none
  | k + 1, node, i =>
    match nodeNat node i with
    | none => none
    | some n =>
      if n.leaf then some (.leaf n.sym n.weight, [i])
      else
        match treeAt k node n.left.toNat, treeAt k node n.right.toNat with
        | some (l, is), some (r, js) => some (.node n.weight l r, i :: (is ++ js))
        | _, _ => none

/-- `tree_of(i)` (10_state.md R43); no path of a tree of 513 nodes is longer than 513. -/
def treeOf (node : List Node) (i : Nat) : Option Tree := (treeAt maxNodes node i).map Prod.fst

/-- The node indices `tree_of(i)` visits, in preorder (10_state.md R43). -/
def visited (node : List Node) (i : Nat) : List Nat :=
  match treeAt maxNodes node i with
  | some (_, is) => is
  | none => []

/-- The serialization function `ser` (43_tree_serial.md R207). -/
def Tree.ser : Tree → List Bool
  | .leaf s _ => true :: bitsN 9 s.toNat
  | .node _ l r => false :: (l.ser ++ r.ser)

/-- The parse function (43_tree_serial.md R213), with at most `fuel` nested levels: the tree and the rest of the
string, or none for exhausted. A string of n bits nests at most n levels. -/
def parseAt : Nat → List Bool → Option (Tree × List Bool)
  | 0, _ => none
  | _ + 1, [] => none
  | k + 1, false :: r =>
    match parseAt k r with
    | none => none
    | some (l, r1) =>
      match parseAt k r1 with
      | none => none
      | some (rt, r2) => some (.node 0 l rt, r2)
  | _ + 1, true :: r =>
    if r.length < 9 then none else some (.leaf (BitVec.ofNat 9 (bitsVal (r.take 9))) 0, r.drop 9)

/-- `parse(bs)` (43_tree_serial.md R213). -/
def parse (bs : List Bool) : Option (Tree × List Bool) := parseAt (bs.length + 1) bs

/-- The code function (42_code_generator.md R191): every leaf symbol with its path, left 0 and right 1. -/
def Tree.codes : Tree → List Bool → List (Nat × List Bool)
  | .leaf s _, p => [(s.toNat, p)]
  | .node _ l r, p => l.codes (p ++ [false]) ++ r.codes (p ++ [true])

/-- The code of a symbol in a tree (42_code_generator.md R191). -/
def Tree.codeOf (t : Tree) (s : Nat) : Option (List Bool) :=
  ((t.codes []).find? (fun q => q.1 == s)).map Prod.snd

/-- The code table entry of a symbol in a tree (42_code_generator.md R190). -/
def Tree.entryOf (t : Tree) (s : Nat) : CodeEntry :=
  match t.codeOf s with
  | some p => codeEntry p.length (bitsVal p)
  | none => CodeEntry.none

/-- The node index the decode automaton is at after the bits of a path, from the index c: 0 goes left, 1 right
(45_decoder.md R256, R257); none where the path leaves the specified entries or goes on below a leaf. -/
def follow (node : List Node) : Idx → List Bool → Option Idx
  | c, [] => some c
  | c, b :: p =>
    match nodeAt node c with
    | none => none
    | some n => if n.leaf then none else follow node (if b then n.right else n.left) p

/-- What the decode automaton of 45_decoder.md R264 comes to: done with the units and the rest of the bits, or
truncated with the units. -/
inductive Decoded where
  | done (out : List Nat) (rest : List Bool)
  | truncated (out : List Nat)
  deriving DecidableEq, Repr

/-- `walk(t, cur, bs, out)` (45_decoder.md R264). -/
def Tree.walk (t : Tree) : Tree → List Bool → List Nat → Decoded
  | _, [], out => .truncated out
  | .leaf _ _, bs, out => .done out bs
  | .node _ l r, b :: bs, out =>
    match (if b then r else l) with
    | .leaf s _ => if s.toNat = 256 then .done out bs else t.walk t bs (out ++ [s.toNat])
    | .node w l' r' => t.walk (.node w l' r') bs out

/-- `decode(t, bs)` (45_decoder.md R264): a tree that is a leaf ends at once. -/
def Tree.decode (t : Tree) (bs : List Bool) : Decoded :=
  match t with
  | .leaf _ _ => .done [] bs
  | .node _ _ _ => t.walk t bs []

/-- The 8-bit units of a bit string; 1 to 7 bits at the end are no unit (40_frequency_counter.md R164). -/
def unitsAt : Nat → List Bool → List Nat
  | 0, _ => []
  | k + 1, bs => if bs.length < 8 then [] else bitsVal (bs.take 8) :: unitsAt k (bs.drop 8)

/-- The units of a bit string. -/
def units (bs : List Bool) : List Nat := unitsAt bs.length bs

/-- The payload of units under a code table (30_encoding.md R125): the units' code words, then the sentinel's. -/
def payload (code : Vector CodeEntry 257) (us : List Nat) : List Bool :=
  us.flatMap (fun u => codeString (rdSym code (unitSym u))) ++ codeString (rdSym code sentinel)

/-- The sum of all histogram entries (41_tree_builder.md R180). -/
def histTotal (hist : Vector Nat 257) : Nat := hist.toList.sum

/-- The number of non-zero histogram entries, L of 41_tree_builder.md R170. -/
def histLeaves (hist : Vector Nat 257) : Nat := (hist.toList.filter (fun c => decide (0 < c))).length

end Sys2Proof.Machine
end

