-- ==== Sys2Proof/Safety.lean ====
section
/-! DEFINITION. What claims are stated in: when a command is accepted, what a completed run is, and the invariants of the
idle block (10_state.md R33, R41, R43, R45, R48, R54; 20_memory.md R80, R87). One transaction-level step takes an idle
state to an idle state (00_scope.md R12). -/

namespace Sys2Proof.Machine

/-- The block is idle and no error is pending: it accepts every command (30_encoding.md R145). -/
abbrev Ready (s : State) : Prop := s.seqr = .idle ∧ s.err = false

/-- A configuration of the block: a count has at least one bit, and `MAGIC_ALT` differs from `MAGIC` (00_scope.md
R10). -/
abbrev ParamsOk (p : Params) : Prop := 1 ≤ p.wbits ∧ p.magic ≠ p.magicAlt

/-- `ERRCODE` and `ERRINFO` are 0 without an error, and with one `ERRCODE` is a code the hardware writes (10_state.md
R33, R34; 60_exceptions.md R300). -/
abbrev ErrorRegsOk (s : State) : Prop :=
  (s.err = false → s.errcode = 0#4 ∧ s.errinfo = 0#32) ∧
  (s.err = true → 1 ≤ s.errcode.toNat ∧ s.errcode.toNat ≤ 11)

/-- The source's position is within its bits, and a closed sink holds whole bytes (20_memory.md R80, R87). -/
abbrev StreamsOk (s : State) : Prop :=
  s.src.pos ≤ s.src.bits.length ∧ (s.snk.closed = true → s.snk.bits.length % 8 = 0)

/-- The memories hold only what fits their entries: counts and weights up to `WMAX`, at most 513 nodes (10_state.md
R42, R45; 00_scope.md R15). HIST and CODE have their 257 entries by their type. -/
abbrev Memory.wf (s : State) : Prop :=
  (∀ x : Sym, rdSym s.hist x ≤ wmax s.cfg) ∧
  (∀ n ∈ s.node, n.weight ≤ wmax s.cfg) ∧
  s.node.length ≤ maxNodes

/-- `TV = 1` says NODE, ROOT and NN hold a valid tree, each of the entries 0 to NN - 1 visited once, with `DEGEN` the
root's leaf field; `TV = 0` goes with `CV = 0` and `DEGEN = 0` and no specified entry (10_state.md R37, R41, R42, R43,
R48, R54). -/
def TreeOk (s : State) : Prop :=
  (s.tv = true → ∃ t is, treeAt maxNodes s.node s.root.toNat = some (t, is) ∧ t.Valid ∧
      List.Perm is (List.range s.node.length) ∧ s.nn.toNat = s.node.length ∧ s.degen = t.isLeaf) ∧
  (s.tv = false → s.cv = false ∧ s.degen = false ∧ s.node = [])

/-- `CV = 1` says CODE is the code table of the tree in NODE (10_state.md R48). -/
def CodeOk (s : State) : Prop :=
  s.cv = true → ∃ t, treeOf s.node s.root.toNat = some t ∧ ∀ x : Sym, rdSym s.code x = t.entryOf x.val

/-- Without an error the hidden working state of an idle block is empty: no stack entry, no element of the priority set,
no symbol seen, no node counted, no step (10_state.md R49 to R51, 93_implementation_defined.md U10). -/
abbrev HiddenOk (s : State) : Prop := s.err = false → s.hidden = Hidden.empty

/-- The index c is no child of the internal nodes l to k - 1: while BUILD makes node k from l leaves, it is still in the
priority set (41_tree_builder.md R172). -/
abbrev Unmerged (node : List Node) (l k c : Nat) : Prop :=
  ∀ j n, l ≤ j → j < k → node[j]? = some n → n.left.toNat ≠ c ∧ n.right.toNat ≠ c

/-- A run that ends with `ERR = 0` has succeeded; claims about results take it as a premise (60_exceptions.md R321,
00_scope.md R13). -/
abbrev Succeeded (s : State) : Prop := s.seqr = .idle ∧ s.err = false

end Sys2Proof.Machine
end

