-- ==== Sys2Proof/Certificates/Slice0/Obligations.lean ====
section
/-! DEFINITION. The statements for the provers. A frame is written `(t with the fields the command writes set back to
those of s) = s`: every other field of t is that of s, the streams, the configuration and the host's side among
them. -/

open Sys2Proof Sys2Proof.Machine

/-! ### Encodings -/

/-- A few words written out from 30_encoding.md R121 to R123 and R140. That a word of 8 bits is a command, one of 16 bits
a tree token and one of 1 bit TREE.INTERNAL is the model's own reading of the opcode table's widths (DESIGN CHOICE,
log entry 14). -/
def Obligations.OpcodeTableWordsDecode : Prop :=
  decodeTableWord 4 0b0000 = some .nop ∧ decodeTableWord 4 0b0010 = some .build ∧
  decodeTableWord 8 0b1001 = some .rdtree ∧ decodeTableWord 8 0b1100 = some .compress ∧
  decodeTableWord 8 0b1111 = some .reset ∧
  decodeTableWord 1 0b0 = some .treeInternal ∧
  decodeTableWord 10 0b1100000000 = some (.treeLeaf 256#9) ∧
  decodeTableWord 16 0b1001000001 = some (.treeLeaf 65#9) ∧
  decodeTableWord 32 0xFACE8201 = some (.marker 0xFACE8201#32)

/-- Every instruction, with every operand at every value its field holds, decodes from its encoding. -/
def Obligations.DecodeInvertsEncode : Prop :=
  ∀ (i : Instr) (rest : List Bool), decode i.format (encode i ++ rest) = .ok (i, rest)

/-- What decodes is the encoding of what it decodes to, so no two encodings of a format name one instruction. -/
def Obligations.EncodeInvertsDecode : Prop :=
  ∀ (f : Format) (bs rest : List Bool) (i : Instr),
    decode f bs = .ok (i, rest) → i.format = f ∧ encode i ++ rest = bs

/-- 30_encoding.md R141: every code is assigned, and bits above bit 3 of a written value are ignored. -/
def Obligations.EveryCommandCodeIsAssigned : Prop :=
  (∀ bs : List Bool, 4 ≤ bs.length → ∃ i, i.format = .cmd4 ∧ decode .cmd4 bs = .ok (i, bs.drop 4)) ∧
  (∀ v : Nat, decodeCmd v = decodeCmd (v % 16)) ∧
  (∀ i : Instr, i.format = .cmd4 → ∃ v, v < 16 ∧ decodeCmd v = i)

/-! ### The step -/

/-- A write to CMD runs the command it encodes (10_state.md R31). -/
def Obligations.StepRunsCommandWritten : Prop :=
  ∀ (s : State) (v : Nat) (rest : List HostAction),
    s.seqr = .idle → s.pending = .write 0#12 v :: rest →
    step s = exec (decodeCmd v) { s with pending := rest }

/-- Inside RDTREE and RDMAGIC a step runs the token or marker that the source's next bits decode to, the source moved
past it. That one step is one token is the model's own choice (log entry 3). -/
def Obligations.StepRunsDecodedToken : Prop :=
  ∀ (s : State) (i : Instr) (rest : List Bool),
    s.pending.head? ≠ some .hwReset →
    (s.seqr = .inTree → decode .wireToken s.src.rest = .ok (i, rest) →
      step s = exec i { s with src := s.src.advance (encode i).length }) ∧
    (s.seqr = .inMarker → decode .wireHeader s.src.rest = .ok (i, rest) →
      step s = exec i { s with src := s.src.advance 32 })

/-- The host's other actions, each a step of the idle block: attaching streams, a read, a write to HIST, and a write to an
address that is neither CMD's nor HIST's, which is ignored; without an action nothing changes; the hardware reset
input acts inside a command too (20_memory.md R89, 10_state.md R58, R59, 70_reset_and_hazards.md R340). The model's
own: that the host's actions are a queue in State (log entry 2), that an empty queue changes nothing (log entry 24),
that a written value wider than WBITS bits is cut to its low WBITS bits (log entry 16). -/
def Obligations.StepTakesHostActions : Prop :=
  ∀ (s : State) (rest : List HostAction),
    (s.seqr = .idle → s.pending = [] → step s = .next s) ∧
    (∀ bits, s.seqr = .idle → s.pending = .attachSrc bits :: rest →
      step s = .next { s with pending := rest, src := { bits := bits, pos := 0 } }) ∧
    (s.seqr = .idle → s.pending = .attachSnk :: rest →
      step s = .next { s with pending := rest, snk := { bits := [], closed := false } }) ∧
    (∀ (x : Sym) (v : Nat), s.seqr = .idle → s.pending = .write (BitVec.ofNat 12 (0x100 + x.val)) v :: rest →
      step s = .next { s with pending := rest, hist := s.hist.set x.val (v % 2 ^ s.cfg.wbits) }) ∧
    (∀ (addr : BitVec 12) (v : Nat), s.seqr = .idle → s.pending = .write addr v :: rest → addr ≠ 0#12 →
      addr.toNat < 0x100 ∨ 0x200 < addr.toNat → step s = .next { s with pending := rest }) ∧
    (∀ addr : BitVec 12, s.seqr = .idle → s.pending = .read addr :: rest →
      step s = .next (hostRead addr { s with pending := rest })) ∧
    (s.pending = .hwReset :: rest →
      step s = .next { State.reset with src := s.src, snk := s.snk, cfg := s.cfg, pending := rest,
                                        hostData := s.hostData, free := s.free })

/-! ### Reset, the control commands, acceptance and errors -/

/-- The reset state (10_state.md R70). The empty streams and the host's side are the model's choice (log entry 4) and
not stated here. -/
def Obligations.ResetStateHoldsResetValues : Prop :=
  State.reset.status = 0x00#8 ∧ State.reset.errcode = 0#4 ∧ State.reset.errinfo = 0#32 ∧
  State.reset.root = 0x3FF#10 ∧ State.reset.nn = 0#10 ∧ State.reset.cur = 0x3FF#10 ∧
  (∀ x : Sym, rdSym State.reset.hist x = 0) ∧
  (∀ x : Sym, rdSym State.reset.code x = { valid := false, len := 0#9, bits := 0#256 }) ∧
  State.reset.hidden.stk = [] ∧ State.reset.hidden.pq = [] ∧
  (∀ x : Sym, rdSym State.reset.hidden.seen x = false) ∧ State.reset.hidden.ni = 0 ∧ State.reset.hidden.mstep = 0 ∧
  State.reset.cfg.magic = Config.magic

/-- RESET (46_control_and_sequences.md R279): whatever the error state, all registers and memories take their reset
values, and the streams and the configuration keep theirs. -/
def Obligations.ResetCommandRestoresResetState : Prop :=
  decodeCmd 0xF = .reset ∧
  ∀ s : State, s.seqr = .idle →
    exec .reset s = .next
      { err := false, tv := false, cv := false, degen := false, errcode := 0#4, errinfo := 0#32,
        root := 0x3FF#10, nn := 0#10, cur := 0x3FF#10, hist := Vector.replicate 257 0, node := [],
        code := Vector.replicate 257 { valid := false, len := 0#9, bits := 0#256 },
        seqr := .idle, hidden := Hidden.empty, src := s.src, snk := s.snk, cfg := s.cfg,
        pending := s.pending, hostData := s.hostData, free := s.free }

/-- FLUSH (46_control_and_sequences.md R276, 20_memory.md R87). -/
def Obligations.FlushPadsAndCloses : Prop :=
  decodeCmd 0x7 = .flush ∧
  ∀ s : State, Ready s → s.snk.closed = false →
    ∃ k, k ≤ 7 ∧ (s.snk.bits.length + k) % 8 = 0 ∧
      exec .flush s = .next { s with snk := { bits := s.snk.bits ++ List.replicate k false, closed := true } }

/-- NOP and REWIND (46_control_and_sequences.md R275, R277). -/
def Obligations.NopChangesNothingAndRewindThePosition : Prop :=
  decodeCmd 0x0 = .nop ∧ decodeCmd 0xB = .rewind ∧
  ∀ s : State, Ready s →
    exec .nop s = .next s ∧
    exec .rewind s = .next { s with src := { bits := s.src.bits, pos := 0 } }

/-- CLRERR (46_control_and_sequences.md R278): accepted whether ERR is 0 or 1, it writes those three registers only, and
the hidden working state, which nobody observes, is empty after it (10_state.md R49 to R51,
93_implementation_defined.md U10). How the model holds that state after an error is log entry 9. -/
def Obligations.ClrerrClearsOnlyTheError : Prop :=
  decodeCmd 0xE = .clrerr ∧
  ∀ s : State, s.seqr = .idle →
    exec .clrerr s = .next { s with err := false, errcode := 0#4, errinfo := 0#32, hidden := Hidden.empty }

/-- Acceptance (30_encoding.md R145, 60_exceptions.md R321): while ERR = 1 every command but CLRERR and RESET is ignored;
while BUSY = 1 the model gives a command no meaning (93_implementation_defined.md U9). -/
def Obligations.CommandsAreAcceptedOnlyWhenReady : Prop :=
  ∀ (i : Instr) (s : State), i.format = .cmd4 →
    (s.seqr = .idle → s.err = true → i ≠ .clrerr → i ≠ .reset → exec i s = .next s) ∧
    (s.seqr ≠ .idle → exec i s = .refused .commandWhileBusy)

/-- A command that would write or flush a closed sink is refused (20_memory.md R90, 93_implementation_defined.md U7); one
that writes nothing is not. -/
def Obligations.ClosedSinkIsNeverWritten : Prop :=
  ∀ s : State, Ready s → s.snk.closed = true →
    exec .wrmagic s = .refused .sinkClosed ∧
    exec .flush s = .refused .sinkClosed ∧
    (∀ t, s.tv = true → treeOf s.node s.root.toNat = some t → exec .wrtree s = .refused .sinkClosed) ∧
    (s.cv = true → (∀ u ∈ (units s.src.rest).head?, (rdSym s.code (unitSym u)).valid = true) →
      exec .encode s = .refused .sinkClosed) ∧
    (∀ t u out rest, s.tv = true → treeOf s.node s.root.toNat = some t →
      t.decode s.src.rest = .done (u :: out) rest ∨ t.decode s.src.rest = .truncated (u :: out) →
      exec .decode s = .refused .sinkClosed)

/-- Error entry (60_exceptions.md R318, R300): code and information word are recorded, ERR is set, BUSY cleared, and
nothing else the host can see changes. -/
def Obligations.RaiseRecordsTheError : Prop :=
  ErrKind.badMagic.code = 1#4 ∧ ErrKind.hdrExhausted.code = 2#4 ∧ ErrKind.hdrSymbol.code = 3#4 ∧
  ErrKind.hdrDup.code = 4#4 ∧ ErrKind.hdrSize.code = 5#4 ∧ ErrKind.hdrNoSent.code = 6#4 ∧
  ErrKind.truncated.code = 7#4 ∧ ErrKind.seqError.code = 8#4 ∧ ErrKind.overflow.code = 9#4 ∧
  ErrKind.noCode.code = 10#4 ∧ ErrKind.badHist.code = 11#4 ∧
  ∀ (e : ErrKind) (info : Nat) (s : State),
    (raise e info s).errcode = e.code ∧ (raise e info s).errinfo = BitVec.ofNat 32 info ∧
    (raise e info s).err = true ∧ (raise e info s).busy = false ∧
    { raise e info s with errcode := s.errcode, errinfo := s.errinfo, err := s.err, seqr := s.seqr,
                          hidden := s.hidden, free := s.free } = s

/-- SeqError (60_exceptions.md R308): raised before the command does anything else. -/
def Obligations.CommandsOutOfOrderRaiseSeqError : Prop :=
  ∀ s : State, Ready s →
    (s.tv = false → exec .gencode s = .next (raise .seqError 0x3 s)) ∧
    (s.tv = false → exec .wrtree s = .next (raise .seqError 0x5 s)) ∧
    (s.cv = false → exec .encode s = .next (raise .seqError 0x6 s)) ∧
    (s.tv = false → exec .decode s = .next (raise .seqError 0xA s))

/-- The error state is sticky and the first error is kept: a step leaves it only by CLRERR, RESET or the reset input
(10_state.md R33, 60_exceptions.md R316, R321). -/
def Obligations.FirstErrorIsKept : Prop :=
  ∀ s t : State, s.seqr = .idle → s.err = true → step s = .next t →
    (t.err = true ∧ t.errcode = s.errcode ∧ t.errinfo = s.errinfo) ∨
    (t.err = false ∧ t.errcode = 0#4 ∧ t.errinfo = 0#32 ∧
      ((∃ v rest, s.pending = .write 0#12 v :: rest ∧ (decodeCmd v = .clrerr ∨ decodeCmd v = .reset)) ∨
       ∃ rest, s.pending = .hwReset :: rest))

/-! ### HIST -/

/-- HIST (40_frequency_counter.md R160, R161, R164): each unit is counted, the sentinel entry is 1, the source moves past
the units, and nothing else changes. -/
def Obligations.HistCountsTheUnits : Prop :=
  decodeCmd 0x1 = .hist ∧
  ∀ s : State, Ready s → (∀ x : Sym, (units s.src.rest).count x.val ≤ wmax s.cfg) →
    ∃ h, exec .hist s = .next { s with src := s.src.advance (8 * (units s.src.rest).length), hist := h } ∧
      (∀ x : Sym, rdSym h x = if x = sentinel then 1 else (units s.src.rest).count x.val) ∧
      histTotal h = (units s.src.rest).length + 1

/-- Overflow in HIST (40_frequency_counter.md R162). -/
def Obligations.HistOverflowStopsBeforeTheCount : Prop :=
  ∀ (s : State) (pre post : List Nat) (u : Nat), Ready s → units s.src.rest = pre ++ u :: post →
    pre.count u = wmax s.cfg → (∀ x : Sym, pre.count x.val ≤ wmax s.cfg) →
    ∃ h, exec .hist s = .next (raise .overflow u { s with src := s.src.advance (8 * (pre.length + 1)), hist := h }) ∧
      ∀ x : Sym, rdSym h x = pre.count x.val

/-! ### BUILD -/

/-- BadHist (41_tree_builder.md R177). What NODE, ROOT and NN hold then is not said (60_exceptions.md R319). -/
def Obligations.BuildRejectsHistogramWithoutSentinel : Prop :=
  ∀ s : State, Ready s → rdSym s.hist sentinel = 0 →
    ∃ t, exec .build s = .next t ∧ t.err = true ∧ t.errcode = 11#4 ∧ t.errinfo = 0#32 ∧
      t.tv = false ∧ t.cv = false ∧ t.degen = false ∧ t.cur = idxNil ∧
      { t with err := s.err, errcode := s.errcode, errinfo := s.errinfo, tv := s.tv, cv := s.cv, degen := s.degen,
               cur := s.cur, node := s.node, root := s.root, nn := s.nn, hidden := s.hidden, free := s.free } = s

/-- Overflow in BUILD (41_tree_builder.md R178): when the total of a histogram whose entries fit exceeds WMAX. -/
def Obligations.BuildOverflowsAboveWmax : Prop :=
  ∀ s : State, Ready s → rdSym s.hist sentinel ≠ 0 → (∀ x : Sym, rdSym s.hist x ≤ wmax s.cfg) →
    wmax s.cfg < histTotal s.hist →
    ∃ t, exec .build s = .next t ∧ t.err = true ∧ t.errcode = 9#4 ∧ t.errinfo = 0x100#32 ∧
      t.tv = false ∧ t.cv = false ∧ t.degen = false ∧ t.cur = idxNil ∧
      { t with err := s.err, errcode := s.errcode, errinfo := s.errinfo, tv := s.tv, cv := s.cv, degen := s.degen,
               cur := s.cur, node := s.node, root := s.root, nn := s.nn, hidden := s.hidden, free := s.free } = s

/-- BUILD (41_tree_builder.md R170 to R176, R180, R183): the leaves in ascending order of symbol first, ROOT and NN by the
number L of non-zero entries, a valid tree whose leaves are the histogram's entries, whose internal weights are sums and
whose root weight is the total, and nothing else changed. Each internal node k joins the two least, x at a and y at b, of
the nodes below k that no earlier internal node has as a child, under (weight, index) (00_scope.md R16), the lesser to
the left: with the leaves this fixes every node. -/
def Obligations.BuildMakesTheHuffmanTree : Prop :=
  decodeCmd 0x2 = .build ∧
  ∀ s : State, Ready s → rdSym s.hist sentinel ≠ 0 → histTotal s.hist ≤ wmax s.cfg →
    ∃ t tr is, exec .build s = .next t ∧
      t.tv = true ∧ t.cv = false ∧ t.cur = idxNil ∧
      t.root.toNat = 2 * histLeaves s.hist - 2 ∧ t.nn.toNat = 2 * histLeaves s.hist - 1 ∧
      t.node.length = 2 * histLeaves s.hist - 1 ∧ (t.degen = true ↔ histLeaves s.hist = 1) ∧
      t.node.take (histLeaves s.hist) =
        (List.finRange 257).filterMap (fun x =>
          if 0 < rdSym s.hist x then some (leafNode (symField x) (rdSym s.hist x)) else none) ∧
      (∀ k, histLeaves s.hist ≤ k → k < t.node.length → ∃ a b x y, a < k ∧ b < k ∧
        Unmerged t.node (histLeaves s.hist) k a ∧ Unmerged t.node (histLeaves s.hist) k b ∧
        t.node[a]? = some x ∧ t.node[b]? = some y ∧
        (x.weight < y.weight ∨ x.weight = y.weight ∧ a < b) ∧
        (∀ c z, c < k → Unmerged t.node (histLeaves s.hist) k c → c ≠ a → c ≠ b → t.node[c]? = some z →
          y.weight < z.weight ∨ y.weight = z.weight ∧ b < c) ∧
        t.node[k]? = some { leaf := false, sym := 0#9, left := BitVec.ofNat 10 a, right := BitVec.ofNat 10 b,
                            weight := x.weight + y.weight }) ∧
      treeAt maxNodes t.node t.root.toNat = some (tr, is) ∧ List.Perm is (List.range t.node.length) ∧
      tr.Valid ∧ tr.summed = true ∧ tr.weight = histTotal s.hist ∧ tr.syms.length = histLeaves s.hist ∧
      (∀ x : Sym, ∀ w, (x.val, w) ∈ tr.leaves ↔ 0 < w ∧ w = rdSym s.hist x) ∧
      { t with tv := s.tv, cv := s.cv, degen := s.degen, cur := s.cur, node := s.node, root := s.root,
               nn := s.nn, hidden := s.hidden } = s

/-- One pass of the merge loop (41_tree_builder.md R172, R173, R174): the two least nodes under (weight, index), the order
of 00_scope.md R16, are removed, the first becomes the left child and the second the right child of the node that is
added, unless the sum exceeds WMAX. -/
def Obligations.MergePassTakesTheTwoLeast : Prop :=
  ∀ (wm k : Nat) (node : List Node) (pq : List Nat), pq.Nodup → 2 ≤ pq.length →
    ∃ a b rest, List.Perm pq (a :: b :: rest) ∧
      (weightOf node a < weightOf node b ∨ weightOf node a = weightOf node b ∧ a < b) ∧
      (∀ c ∈ rest, weightOf node b < weightOf node c ∨ weightOf node b = weightOf node c ∧ b < c) ∧
      mergeLoop wm (k + 1) node pq =
        if wm < weightOf node a + weightOf node b then { node := node, pq := rest, overflow := true }
        else mergeLoop wm k
          (node ++ [{ leaf := false, sym := 0#9, left := BitVec.ofNat 10 a, right := BitVec.ofNat 10 b,
                      weight := weightOf node a + weightOf node b }])
          (rest ++ [node.length])

/-! ### GENCODE -/

/-- GENCODE (42_code_generator.md R190): CODE becomes the code table of the tree, CV is set, and nothing else changes. -/
def Obligations.GencodeFillsTheCodeTable : Prop :=
  decodeCmd 0x3 = .gencode ∧
  ∀ (s : State) (tr : Tree), Ready s → s.tv = true → treeOf s.node s.root.toNat = some tr → tr.Valid →
    ∃ t, exec .gencode s = .next t ∧ t.cv = true ∧
      (∀ x : Sym, rdSym t.code x =
        match tr.codeOf x.val with
        | some p => { valid := true, len := BitVec.ofNat 9 p.length, bits := BitVec.ofNat 256 (bitsVal p) }
        | none => { valid := false, len := 0#9, bits := 0#256 }) ∧
      { t with cv := s.cv, code := s.code, hidden := s.hidden } = s

/-- A code entry holds its code word exactly, up to the longest of 256 bits (10_state.md R47, 42_code_generator.md
R196). -/
def Obligations.CodeEntriesHoldTheirPaths : Prop :=
  ∀ (tr : Tree) (x : Sym) (p : List Bool), tr.Valid → tr.codeOf x.val = some p →
    p.length ≤ 256 ∧ (tr.entryOf x.val).len.toNat = p.length ∧ (tr.entryOf x.val).bits.toNat = bitsVal p ∧
    codeString (tr.entryOf x.val) = p

/-- The code table of a valid tree (42_code_generator.md R195): codes exactly for the leaf symbols, the sentinel among
them; with two leaves or more no code is a prefix of another and none is empty; with one leaf the one code is empty;
the code is complete. -/
def Obligations.CodesFormACompletePrefixCode : Prop :=
  ∀ tr : Tree, tr.Valid →
    (∀ x : Nat, (tr.codeOf x).isSome = true ↔ x ∈ tr.syms) ∧
    (tr.codeOf 256).isSome = true ∧
    (tr.isLeaf = false → ∀ x y p q, x ≠ y → tr.codeOf x = some p → tr.codeOf y = some q →
      ¬ p <+: q ∧ 1 ≤ p.length ∧ p.length ≤ 256) ∧
    (tr.isLeaf = true → tr.syms = [256] ∧ tr.codeOf 256 = some []) ∧
    ((tr.codes []).map (fun c => 2 ^ (256 - c.2.length))).sum = 2 ^ 256

/-! ### The serializer and the deserializer -/

/-- WRMAGIC (43_tree_serial.md R205). -/
def Obligations.WrmagicWritesTheMarker : Prop :=
  decodeCmd 0x4 = .wrmagic ∧
  ∀ s : State, Ready s → s.snk.closed = false →
    exec .wrmagic s =
      .next { s with snk := { bits := s.snk.bits ++ bitsN 32 s.cfg.magic.toNat, closed := false } }

/-- WRTREE (43_tree_serial.md R206, R209): the serialization of the tree is appended, 11 L - 1 bits for L leaves, and
nothing else changes. -/
def Obligations.WrtreeWritesTheSerialization : Prop :=
  decodeCmd 0x5 = .wrtree ∧
  ∀ (s : State) (tr : Tree), Ready s → s.tv = true → treeOf s.node s.root.toNat = some tr → tr.Valid →
    s.snk.closed = false →
    tr.ser.length = 11 * tr.syms.length - 1 ∧
    ∃ t, exec .wrtree s = .next t ∧ t.snk = { bits := s.snk.bits ++ tr.ser, closed := false } ∧
      { t with snk := s.snk, hidden := s.hidden } = s

/-- RDMAGIC (43_tree_serial.md R210): three cases, too short, the marker, another word. -/
def Obligations.RdmagicChecksTheMarker : Prop :=
  decodeCmd 0x8 = .rdmagic ∧
  ∀ s : State, Ready s →
    (s.src.rest.length < 32 → exec .rdmagic s = .next (raise .badMagic 0 s)) ∧
    (∀ rest, s.src.rest = bitsN 32 s.cfg.magic.toNat ++ rest →
      exec .rdmagic s = .next { s with src := s.src.advance 32 }) ∧
    (∀ (w : BitVec 32) (rest : List Bool), w ≠ s.cfg.magic → s.src.rest = bitsN 32 w.toNat ++ rest →
      exec .rdmagic s = .next (raise .badMagic w.toNat { s with src := s.src.advance 32 }))

/-- The marker as RDMAGIC meets it (30_encoding.md R132): the one accepted word ends the command, every other raises
BadMagic. -/
def Obligations.MarkerIsComparedWithMagic : Prop :=
  ∀ (s : State) (w : BitVec 32), s.seqr = .inMarker →
    (w = s.cfg.magic → exec (.marker w) s = .next { s with seqr := .idle }) ∧
    (w ≠ s.cfg.magic → exec (.marker w) s = .next (raise .badMagic w.toNat s))

/-- An INTERNAL token inside RDTREE (43_tree_serial.md R214, R217): node n is stored and hung under the waiting parent, it
waits for its left child, and the 257th is rejected. -/
def Obligations.InternalTokenStoresANode : Prop :=
  ∀ s : State, s.seqr = .inTree →
    (s.hidden.ni ≠ 256 →
      exec .treeInternal s = .next
        { s with
          node := linkNode s.hidden.link s.node.length (s.node ++ [internalNode idxNil idxNil 0]),
          hidden := { s.hidden with ni := s.hidden.ni + 1, stk := { idx := s.node.length } :: s.hidden.stk,
                                    link := some (s.node.length, .left) } }) ∧
    (s.hidden.ni = 256 →
      ∃ t, exec .treeInternal s = .next t ∧ t.err = true ∧ t.errcode = 5#4 ∧
        t.errinfo = BitVec.ofNat 32 s.node.length ∧ t.seqr = .idle ∧
        { t with err := s.err, errcode := s.errcode, errinfo := s.errinfo, seqr := s.seqr, node := s.node,
                 root := s.root, nn := s.nn, hidden := s.hidden, free := s.free } = s)

/-- A LEAF token inside RDTREE (43_tree_serial.md R214): an unseen symbol is stored; while an internal node waits it gets
its right child next; otherwise the tree is complete, and valid if the sentinel has been seen. -/
def Obligations.LeafTokenStoresALeaf : Prop :=
  ∀ (s : State) (x : Sym), s.seqr = .inTree → rdSym s.hidden.seen x = false →
    (∀ e stk, s.hidden.stk = e :: stk →
      exec (.treeLeaf (symField x)) s = .next
        { s with
          node := linkNode s.hidden.link s.node.length (s.node ++ [leafNode (symField x) 0]),
          hidden := { s.hidden with seen := wrSym s.hidden.seen x true, stk := stk,
                                    link := some (e.idx, .right) } }) ∧
    (s.hidden.stk = [] → (x = sentinel ∨ rdSym s.hidden.seen sentinel = true) →
      ∃ t, exec (.treeLeaf (symField x)) s = .next t ∧
        t.node = linkNode s.hidden.link s.node.length (s.node ++ [leafNode (symField x) 0]) ∧
        t.root = 0#10 ∧ t.nn = BitVec.ofNat 10 t.node.length ∧ t.degen = rootLeaf t.node 0 ∧ t.tv = true ∧
        t.seqr = .idle ∧
        { t with node := s.node, root := s.root, nn := s.nn, degen := s.degen, tv := s.tv, seqr := s.seqr,
                 hidden := s.hidden } = s)

/-- The tokens that are rejected (43_tree_serial.md R215, R216, R218, R219): a field of 257 to 511, a symbol seen before, a
last leaf without the sentinel, and a token the source holds no more than a part of: at a missing flag bit nothing is
consumed, at a short symbol field the flag bit is. That one step from inside RDTREE is one token is the model's own
choice (log entry 3), and so is that it acts unless the reset input comes first (log entry 11). -/
def Obligations.RejectedTokensEndRdtree : Prop :=
  ∀ s : State, s.seqr = .inTree →
    (∀ field : BitVec 9, 256 < field.toNat →
      ∃ t, exec (.treeLeaf field) s = .next t ∧ t.errcode = 3#4 ∧ t.errinfo.toNat = field.toNat ∧
        t.err = true ∧ t.seqr = .idle ∧ t.tv = s.tv ∧ t.src = s.src ∧ t.snk = s.snk) ∧
    (∀ x : Sym, rdSym s.hidden.seen x = true →
      ∃ t, exec (.treeLeaf (symField x)) s = .next t ∧ t.errcode = 4#4 ∧ t.errinfo.toNat = x.val ∧
        t.err = true ∧ t.seqr = .idle ∧ t.tv = s.tv ∧ t.src = s.src ∧ t.snk = s.snk) ∧
    (∀ x : Sym, rdSym s.hidden.seen x = false → s.hidden.stk = [] → x ≠ sentinel →
      rdSym s.hidden.seen sentinel = false →
      ∃ t, exec (.treeLeaf (symField x)) s = .next t ∧ t.errcode = 6#4 ∧ t.errinfo = 0#32 ∧
        t.err = true ∧ t.seqr = .idle ∧ t.tv = s.tv ∧ t.src = s.src ∧ t.snk = s.snk) ∧
    (s.pending.head? ≠ some .hwReset → s.src.rest = [] →
      ∃ t, step s = .next t ∧ t.errcode = 2#4 ∧ t.errinfo = BitVec.ofNat 32 s.node.length ∧ t.err = true ∧
        t.seqr = .idle ∧ t.tv = s.tv ∧ t.src = s.src ∧ t.snk = s.snk) ∧
    (∀ bs, s.pending.head? ≠ some .hwReset → s.src.rest = true :: bs → bs.length < 9 →
      ∃ t, step s = .next t ∧ t.errcode = 2#4 ∧ t.errinfo = BitVec.ofNat 32 s.node.length ∧ t.err = true ∧
        t.seqr = .idle ∧ t.tv = s.tv ∧ t.src = s.src.advance 1 ∧ t.snk = s.snk)

/-- RDTREE (43_tree_serial.md R212, R220): when the source's next bits parse to a valid tree, that tree is held, in
preorder from node 0, with weights 0; the source has moved past it, and nothing else changes. -/
def Obligations.RdtreeRebuildsTheTree : Prop :=
  decodeCmd 0x9 = .rdtree ∧
  ∀ (s : State) (tr : Tree) (rest : List Bool), Ready s → parse s.src.rest = some (tr, rest) → tr.Valid →
    ∃ t, exec .rdtree s = .next t ∧
      t.tv = true ∧ t.cv = false ∧ t.degen = tr.isLeaf ∧ t.cur = idxNil ∧
      t.root = 0#10 ∧ t.nn.toNat = tr.size ∧ t.node.length = tr.size ∧
      treeAt maxNodes t.node 0 = some (tr, List.range tr.size) ∧
      t.src = s.src.advance (s.src.rest.length - rest.length) ∧
      { t with tv := s.tv, cv := s.cv, degen := s.degen, cur := s.cur, root := s.root, nn := s.nn, node := s.node,
               src := s.src, hidden := s.hidden } = s

/-- RDTREE (43_tree_serial.md R212): every other header is rejected with one of the five header errors and no tree, and
nothing has been written to the sink. -/
def Obligations.RdtreeRejectsEveryOtherHeader : Prop :=
  ∀ s : State, Ready s → (¬ ∃ tr rest, parse s.src.rest = some (tr, rest) ∧ tr.Valid) →
    ∃ t k, exec .rdtree s = .next t ∧ t.err = true ∧ 2 ≤ t.errcode.toNat ∧ t.errcode.toNat ≤ 6 ∧
      t.tv = false ∧ t.cv = false ∧ t.degen = false ∧ t.cur = idxNil ∧
      t.src = s.src.advance k ∧ k ≤ s.src.rest.length ∧
      { t with err := s.err, errcode := s.errcode, errinfo := s.errinfo, tv := s.tv, cv := s.cv, degen := s.degen,
               cur := s.cur, root := s.root, nn := s.nn, node := s.node, src := s.src, hidden := s.hidden,
               free := s.free } = s

/-- RDTREE is its tokens, one after another: the command ends in the state that stepping through the tokens from its start
comes to, with BUSY = 1 on the way (log entry 3). -/
def Obligations.RdtreeIsItsTokenSteps : Prop :=
  ∀ s : State, Ready s → s.pending.head? ≠ some .hwReset →
    ∃ (k : Nat) (t : State), exec .rdtree s = .next t ∧ t.busy = false ∧
      Sys2Proof.core.run k (startTree s) = .next t ∧
      ∀ j < k, ∃ u : State, Sys2Proof.core.run j (startTree s) = .next u ∧ u.busy = true

/-- The parse function (43_tree_serial.md R213): its three cases, and that it inverts `ser`. -/
def Obligations.ParseInvertsSer : Prop :=
  parse [] = none ∧
  (∀ r : List Bool, parse (false :: r) =
    (parse r).bind (fun p => (parse p.2).map (fun q => (.node 0 p.1 q.1, q.2)))) ∧
  (∀ r : List Bool, parse (true :: r) =
    if r.length < 9 then none else some (.leaf (BitVec.ofNat 9 (bitsVal (r.take 9))) 0, r.drop 9)) ∧
  ∀ (tr : Tree) (x : List Bool), parse (tr.ser ++ x) = some (tr.unweighted, x)

/-- Serializer and deserializer are inverse (43_tree_serial.md R222): RDTREE reads back what WRTREE wrote, and WRTREE after
a successful RDTREE writes back the bits RDTREE consumed. -/
def Obligations.RdtreeInvertsWrtree : Prop :=
  (∀ (s1 s2 : State) (tr : Tree) (y : List Bool),
    Ready s1 → s1.tv = true → treeOf s1.node s1.root.toNat = some tr → tr.Valid → s1.snk.closed = false →
    ∃ t1 x, exec .wrtree s1 = .next t1 ∧ t1.snk.bits = s1.snk.bits ++ x ∧
      (Ready s2 → s2.src.rest = x ++ y →
        ∃ t2, exec .rdtree s2 = .next t2 ∧ t2.err = false ∧ t2.src = s2.src.advance x.length ∧
          treeOf t2.node t2.root.toNat = some tr.unweighted)) ∧
  (∀ s t : State, Ready s → s.snk.closed = false → exec .rdtree s = .next t → t.err = false →
    ∃ k u, k ≤ s.src.rest.length ∧ t.src = s.src.advance k ∧ exec .wrtree t = .next u ∧
      u.snk.bits = s.snk.bits ++ s.src.rest.take k)

/-! ### ENCODE and DECODE -/

/-- ENCODE (44_encoder.md R240, R241, R242): the code words of the units and then the sentinel's are appended, the source
moves past the units, and nothing else changes. -/
def Obligations.EncodeWritesThePayload : Prop :=
  decodeCmd 0x6 = .encode ∧
  ∀ s : State, Ready s → s.cv = true → s.snk.closed = false →
    (∀ u ∈ units s.src.rest, (rdSym s.code (unitSym u)).valid = true) →
    exec .encode s = .next
      { s with src := s.src.advance (8 * (units s.src.rest).length),
               snk := { bits := s.snk.bits ++
                          ((units s.src.rest).flatMap (fun u => codeString (rdSym s.code (unitSym u))) ++
                            codeString (rdSym s.code sentinel)),
                        closed := false } }

/-- NoCode (44_encoder.md R243): the earlier units' bits stay in the sink and the failing unit has been consumed. -/
def Obligations.EncodeStopsAtAUnitWithoutCode : Prop :=
  ∀ (s : State) (pre post : List Nat) (u : Nat), Ready s → s.cv = true → s.snk.closed = false →
    units s.src.rest = pre ++ u :: post → (∀ v ∈ pre, (rdSym s.code (unitSym v)).valid = true) →
    (rdSym s.code (unitSym u)).valid = false →
    exec .encode s = .next (raise .noCode u
      { s with src := s.src.advance (8 * (pre.length + 1)),
               snk := { bits := s.snk.bits ++ pre.flatMap (fun v => codeString (rdSym s.code (unitSym v))),
                        closed := false } })

/-- DECODE (45_decoder.md R255 to R258, R260, R261, R264): it runs the automaton of R264 on the bits of the source. CUR is
left where the walk from ROOT has come to: at the end of the sentinel's code, or, when the source runs out, at the
internal node reached by the bits p after the last whole code word, ROOT if there are none. The sink is open unless no
unit is emitted: that DECODE completes on a closed sink to which it writes nothing is the model's reading of
20_memory.md R90 and 93_implementation_defined.md U7 (DEDUCED, log entry 10), R262 naming an open sink. -/
def Obligations.DecodeRunsTheAutomaton : Prop :=
  decodeCmd 0xA = .decode ∧
  ∀ (s : State) (tr : Tree), Ready s → s.tv = true → treeOf s.node s.root.toNat = some tr → tr.Valid →
    (∀ out rest, tr.decode s.src.rest = .done out rest → (s.snk.closed = false ∨ out = []) →
      ∃ c n, exec .decode s = .next
          { s with cur := c, src := s.src.advance (s.src.rest.length - rest.length),
                   snk := { bits := s.snk.bits ++ out.flatMap (bitsN 8), closed := s.snk.closed } } ∧
        follow s.node s.root ((tr.codeOf 256).getD []) = some c ∧
        nodeAt s.node c = some n ∧ n.leaf = true ∧ n.sym = 256#9) ∧
    (∀ out, tr.decode s.src.rest = .truncated out → (s.snk.closed = false ∨ out = []) →
      ∃ p c n, exec .decode s = .next (raise .truncated c.toNat
          { s with cur := c, src := s.src.advance s.src.rest.length,
                   snk := { bits := s.snk.bits ++ out.flatMap (bitsN 8), closed := s.snk.closed } }) ∧
        s.src.rest = out.flatMap (fun u => (tr.codeOf u).getD []) ++ p ∧
        follow s.node s.root p = some c ∧ nodeAt s.node c = some n ∧ n.leaf = false)

/-- DECODE on a degenerate tree (45_decoder.md R259): it ends at once, reads no bit and writes no unit. -/
def Obligations.DecodeOfALeafRootEndsAtOnce : Prop :=
  ∀ (s : State) (n : Node), Ready s → s.tv = true → nodeAt s.node s.root = some n → n.leaf = true →
    exec .decode s = .next { s with cur := s.root }

/-- Decoder and encoder are inverse (45_decoder.md R265). -/
def Obligations.DecodeInvertsTheCode : Prop :=
  ∀ (tr : Tree) (us : List Nat) (x : List Bool), tr.Valid → (∀ u ∈ us, u < 256 ∧ u ∈ tr.syms) →
    tr.decode (us.flatMap (fun u => (tr.codeOf u).getD []) ++ ((tr.codeOf 256).getD [] ++ x)) = .done us x

/-! ### COMPRESS and DECOMPRESS -/

/-- A composite command has the effect of its expansion issued command by command (46_control_and_sequences.md R290, R292,
R294), but for the hidden MSTEP, which nobody observes. -/
def Obligations.CompositesEqualTheirExpansions : Prop :=
  decodeCmd 0xC = .compress ∧ decodeCmd 0xD = .decompress ∧
  ∀ s : State, Ready s →
    exec .compress s =
      mapOut (fun t => if t.err then t else setStep 0 t)
        ([Instr.hist, .build, .gencode, .rewind, .wrmagic, .wrtree, .encode, .flush].foldl
          (fun o i => bindOut o (exec i)) (.next s)) ∧
    exec .decompress s =
      mapOut (fun t => if t.err then t else setStep 0 t)
        ([Instr.rdmagic, .rdtree, .decode, .flush].foldl (fun o i => bindOut o (exec i)) (.next s))

/-- COMPRESS (46_control_and_sequences.md R290, 30_encoding.md R120): from the first bit of a source whose units number at
most WMAX - 1 and an open sink, the sink gains the marker, the tree, the payload and the padding and is closed. -/
def Obligations.CompressWritesTheArtifact : Prop :=
  ∀ s : State, Ready s → s.src.pos = 0 → s.snk.closed = false → (units s.src.bits).length + 1 ≤ wmax s.cfg →
    ∃ t tr k, exec .compress s = .next t ∧ t.err = false ∧ t.seqr = .idle ∧ t.tv = true ∧ t.cv = true ∧
      treeOf t.node t.root.toNat = some tr ∧ tr.Valid ∧ (∀ x : Sym, rdSym t.code x = tr.entryOf x.val) ∧
      (∀ x : Sym, rdSym t.hist x = if x = sentinel then 1 else (units s.src.bits).count x.val) ∧
      k ≤ 7 ∧ t.snk.bits.length % 8 = 0 ∧
      t.snk = { bits := s.snk.bits ++
                  (bitsN 32 s.cfg.magic.toNat ++ (tr.ser ++ (payload t.code (units s.src.bits) ++
                    List.replicate k false))),
                closed := true } ∧
      t.src = { bits := s.src.bits, pos := 8 * (units s.src.bits).length } ∧ t.cfg = s.cfg ∧ t.pending = s.pending

/-- DECOMPRESS (46_control_and_sequences.md R292): from a source that stands at a marker, a valid tree, the code words of
units and the sentinel's, whatever follows, the sink gains the units and is closed. -/
def Obligations.DecompressReadsTheArtifact : Prop :=
  ∀ (s : State) (tr : Tree) (us : List Nat) (x : List Bool),
    Ready s → s.snk = { bits := [], closed := false } → tr.Valid → (∀ u ∈ us, u < 256 ∧ u ∈ tr.syms) →
    s.src.rest = bitsN 32 s.cfg.magic.toNat ++ (tr.ser ++
      (us.flatMap (fun u => (tr.codeOf u).getD []) ++ ((tr.codeOf 256).getD [] ++ x))) →
    ∃ t, exec .decompress s = .next t ∧ t.err = false ∧ t.seqr = .idle ∧ t.tv = true ∧ t.cv = false ∧
      t.snk = { bits := us.flatMap (bitsN 8), closed := true } ∧
      t.src = s.src.advance (s.src.rest.length - x.length) ∧
      treeOf t.node t.root.toNat = some tr.unweighted ∧
      t.hist = s.hist ∧ t.code = s.code ∧ t.cfg = s.cfg ∧ t.pending = s.pending

/-- Round trip (00_scope.md R17 (a), R18): COMPRESS of the bytes S, then DECOMPRESS of its artifact by a block with the same
MAGIC, gives S back. -/
def Obligations.DecompressOfCompressIsTheInput : Prop :=
  ∀ (bytes : List (BitVec 8)) (s1 s2 : State),
    Ready s1 → s1.src = { bits := bitsOfBytes bytes, pos := 0 } → s1.snk = { bits := [], closed := false } →
    bytes.length + 1 ≤ wmax s1.cfg →
    ∃ t1, exec .compress s1 = .next t1 ∧ t1.err = false ∧ t1.snk.closed = true ∧
      (Ready s2 → s2.cfg.magic = s1.cfg.magic → s2.src = { bits := t1.snk.bits, pos := 0 } →
        s2.snk = { bits := [], closed := false } →
        ∃ t2, exec .decompress s2 = .next t2 ∧ t2.err = false ∧
          t2.snk = { bits := bitsOfBytes bytes, closed := true })

/-- A longer input raises Overflow and leaves the sink as it was (00_scope.md R18). -/
def Obligations.CompressOfALongerInputOverflows : Prop :=
  ∀ s : State, Ready s → s.src.pos = 0 → ParamsOk s.cfg → wmax s.cfg < (units s.src.bits).length + 1 →
    ∃ t, exec .compress s = .next t ∧ t.err = true ∧ t.errcode = 9#4 ∧ t.snk = s.snk

/-- Header mismatch (43_tree_serial.md R211, 46_control_and_sequences.md R293): DECOMPRESS stops at another marker with
exactly its 32 bits consumed. -/
def Obligations.DecompressRejectsAnotherMarker : Prop :=
  ∀ (s : State) (w : BitVec 32) (rest : List Bool), Ready s → w ≠ s.cfg.magic →
    s.src.rest = bitsN 32 w.toNat ++ rest →
    exec .decompress s = .next (raise .badMagic w.toNat { s with src := s.src.advance 32 })

/-- Truncation (00_scope.md R17 (e), 90_conflicts.md C3): DECOMPRESS of an artifact of COMPRESS without its final byte or
bytes ends with an error, Truncated or one of the header errors BadMagic and HdrExhausted. -/
def Obligations.TruncatedArtifactFails : Prop :=
  ∀ (bytes : List (BitVec 8)) (s1 s2 t1 : State) (n : Nat),
    Ready s1 → s1.src = { bits := bitsOfBytes bytes, pos := 0 } → s1.snk = { bits := [], closed := false } →
    bytes.length + 1 ≤ wmax s1.cfg → exec .compress s1 = .next t1 → 8 * n < t1.snk.bits.length →
    Ready s2 → s2.cfg.magic = s1.cfg.magic → s2.src = { bits := t1.snk.bits.take (8 * n), pos := 0 } →
    s2.snk = { bits := [], closed := false } →
    ∃ t2, exec .decompress s2 = .next t2 ∧ t2.err = true ∧
      (t2.errcode = 1#4 ∨ t2.errcode = 2#4 ∨ t2.errcode = 7#4)

/-! ### Invariants and whole-machine rules -/

/-- The reset state meets every invariant. That WBITS is 32 in it is the spec's default (00_scope.md R10). -/
def Obligations.ResetMeetsTheInvariants : Prop :=
  Ready State.reset ∧ ParamsOk State.reset.cfg ∧ ErrorRegsOk State.reset ∧ HiddenOk State.reset ∧
  StreamsOk State.reset ∧ Memory.wf State.reset ∧ TreeOk State.reset ∧ CodeOk State.reset

/-- ERRCODE and ERRINFO go with ERR, and only the codes 1 to 11 occur (10_state.md R33, R34; 60_exceptions.md R300). A step
of the idle block ends idle and, without an error, with the hidden working state empty: no stack entry, no element of
the priority set (10_state.md R49 to R51, 93_implementation_defined.md U10). -/
def Obligations.StepKeepsErrorRegisters : Prop :=
  ∀ s t : State, step s = .next t →
    (ErrorRegsOk s → ErrorRegsOk t) ∧ (s.seqr = .idle → t.seqr = .idle) ∧
    (s.seqr = .idle → HiddenOk s → HiddenOk t)

/-- The source's position stays within its bits and a closed sink holds whole bytes (20_memory.md R80, R87). -/
def Obligations.StepKeepsStreams : Prop :=
  ∀ s t : State, StreamsOk s → step s = .next t → StreamsOk t

/-- Every count and weight stays within WMAX and the node memory within its 513 entries (00_scope.md R15, 10_state.md
R42). -/
def Obligations.StepKeepsMemoryForm : Prop :=
  ∀ s t : State, s.seqr = .idle → ParamsOk s.cfg → Memory.wf s → step s = .next t → Memory.wf t

/-- Whenever TV = 1 the node memory holds a valid tree, each entry below NN visited once (10_state.md R41, R43, R54). -/
def Obligations.StepKeepsAValidTree : Prop :=
  ∀ s t : State, s.seqr = .idle → TreeOk s → step s = .next t → t.seqr = .idle ∧ TreeOk t

/-- Whenever CV = 1 the code table is that of the tree (10_state.md R48). -/
def Obligations.StepKeepsTheCodeTable : Prop :=
  ∀ s t : State, s.seqr = .idle → TreeOk s → CodeOk s → step s = .next t → CodeOk t

/-- From a state that meets the tree invariant a step never faults, and it is refused only for a write to a closed sink:
every accepted command ends (45_decoder.md R263, 93_implementation_defined.md part 1). -/
def Obligations.StepEndsWithoutFault : Prop :=
  ∀ s : State, s.seqr = .idle → TreeOk s →
    (∃ t, step s = .next t) ∨ (step s = .refused .sinkClosed ∧ s.snk.closed = true)

/-- Who writes what (10_state.md R32, R33, R36 to R38, R45, R53, R60): a command other than those named leaves the field as
it was, and no command changes the configuration or the host's side. -/
def Obligations.OnlyTheNamedCommandsWrite : Prop :=
  ∀ (i : Instr) (s t : State), i.format = .cmd4 → exec i s = .next t →
    (i ∉ [Instr.build, .rdtree, .reset, .compress, .decompress] →
      t.tv = s.tv ∧ t.degen = s.degen ∧ t.root = s.root ∧ t.nn = s.nn ∧ t.node = s.node) ∧
    (i ∉ [Instr.build, .rdtree, .reset, .decode, .compress, .decompress] → t.cur = s.cur) ∧
    (i ∉ [Instr.gencode, .build, .rdtree, .reset, .compress, .decompress] → t.cv = s.cv) ∧
    (i ∉ [Instr.gencode, .reset, .compress] → t.code = s.code) ∧
    (i ∉ [Instr.hist, .reset, .compress] → t.hist = s.hist) ∧
    t.cfg = s.cfg ∧ t.pending = s.pending ∧ t.hostData = s.hostData

/-- The block appends to the sink and never takes bits back, opens no closed sink, and never writes the source
(20_memory.md R80, R94; 60_exceptions.md R320). -/
def Obligations.SinkIsAppendOnlyAndSourceIsReadOnly : Prop :=
  ∀ (i : Instr) (s t : State), i.format = .cmd4 → exec i s = .next t →
    (∃ x, t.snk.bits = s.snk.bits ++ x) ∧ (s.snk.closed = true → t.snk = s.snk) ∧ t.src.bits = s.src.bits ∧
    (i ∉ [Instr.wrmagic, .wrtree, .encode, .flush, .decode, .compress, .decompress] → t.snk = s.snk) ∧
    (i ∉ [Instr.hist, .encode, .rewind, .rdmagic, .rdtree, .decode, .compress, .decompress] → t.src = s.src)

/-- The host's register map (10_state.md R58, R59): what a read of each assigned address returns, with the bit places of
STATUS (R32), of a NODE entry (R42) and of a CODE entry (R47), and 0 at CMD and at every unassigned address; no read
changes a register, a memory or a stream; a write to HIST changes that entry and nothing else, and a write to a
read-only or unassigned address is ignored. A write to CMD, address 0, issues a command and is not the subject here.
The model's own: that a written value wider than WBITS bits is cut to its low WBITS bits (log entry 16), and that the
unspecified value a NODE entry then reads is a free value of the entry's width (log entry 7). -/
def Obligations.HostSeesTheRegisterMap : Prop :=
  ∀ (s : State) (addr : BitVec 12) (v : Nat),
    (addr = 0x000#12 → hostRead addr s = { s with hostData := 0 }) ∧
    (addr = 0x001#12 → ∃ w, hostRead addr s = { s with hostData := w } ∧
      w % 2 = (if s.seqr = .idle then 0 else 1) ∧ w / 2 ^ 1 % 2 = s.err.toNat ∧ w / 2 ^ 2 % 2 = s.tv.toNat ∧
      w / 2 ^ 3 % 2 = s.cv.toNat ∧ w / 2 ^ 4 % 2 = s.degen.toNat ∧ w / 2 ^ 5 = 0) ∧
    (addr = 0x002#12 → hostRead addr s = { s with hostData := s.errcode.toNat }) ∧
    (addr = 0x003#12 → hostRead addr s = { s with hostData := s.root.toNat }) ∧
    (addr = 0x004#12 → hostRead addr s = { s with hostData := s.nn.toNat }) ∧
    (addr = 0x005#12 → hostRead addr s = { s with hostData := s.cur.toNat }) ∧
    (addr = 0x006#12 → hostRead addr s = { s with hostData := s.cfg.magic.toNat }) ∧
    (addr = 0x007#12 → hostRead addr s = { s with hostData := s.errinfo.toNat }) ∧
    (∀ x : Sym, addr.toNat = 0x100 + x.val → hostRead addr s = { s with hostData := rdSym s.hist x }) ∧
    (∀ (i : Nat) (n : Node), i ≤ 512 → addr.toNat = 0x400 + i → s.node[i]? = some n →
      ∃ w, hostRead addr s = { s with hostData := w } ∧
        w % 2 = n.leaf.toNat ∧ w / 2 ^ 1 % 2 ^ 9 = n.sym.toNat ∧ w / 2 ^ 10 % 2 ^ 10 = n.left.toNat ∧
        w / 2 ^ 20 % 2 ^ 10 = n.right.toNat ∧ w / 2 ^ 30 = n.weight) ∧
    (∀ i : Nat, i ≤ 512 → addr.toNat = 0x400 + i → s.node[i]? = none →
      ∃ w, w < 2 ^ (30 + s.cfg.wbits) ∧ hostRead addr s = { s with hostData := w, free := s.free + 1 }) ∧
    (∀ x : Sym, addr.toNat = 0x800 + x.val →
      ∃ w, hostRead addr s = { s with hostData := w } ∧
        w % 2 = (rdSym s.code x).valid.toNat ∧ w / 2 ^ 1 % 2 ^ 9 = (rdSym s.code x).len.toNat ∧
        w / 2 ^ 10 = (rdSym s.code x).bits.toNat) ∧
    (0x007 < addr.toNat ∧ addr.toNat < 0x100 ∨ 0x200 < addr.toNat ∧ addr.toNat < 0x400 ∨
        0x600 < addr.toNat ∧ addr.toNat < 0x800 ∨ 0x900 < addr.toNat →
      hostRead addr s = { s with hostData := 0 }) ∧
    { hostRead addr s with hostData := s.hostData, free := s.free } = s ∧
    (∀ x : Sym, addr.toNat = 0x100 + x.val →
      (hostWrite addr v s).hist = s.hist.set x.val (v % 2 ^ s.cfg.wbits) ∧
      { hostWrite addr v s with hist := s.hist } = s) ∧
    (0 < addr.toNat ∧ addr.toNat < 0x100 ∨ 0x200 < addr.toNat → hostWrite addr v s = s)
end

