-- ==== Sys2Proof/Laws/Bits.lean ====
section
/-! SUPPORT. Laws of bit strings (00_scope.md section 6): length, bounds, and that `bitsN` and `bitsVal` are inverse. -/

namespace Sys2Proof

@[simp] theorem bitsN_length (n v : Nat) : (bitsN n v).length = n := by
  induction n with
  | zero => rfl
  | succ n ih => simp [bitsN, ih]

theorem bitsVal_lt (bs : List Bool) : bitsVal bs < 2 ^ bs.length := by
  induction bs with
  | nil => simp [bitsVal]
  | cons b bs ih =>
    have : b.toNat ≤ 1 := by cases b <;> decide
    simp only [bitsVal, List.length_cons, Nat.pow_succ]
    nlinarith

theorem bitsVal_append (as bs : List Bool) :
    bitsVal (as ++ bs) = bitsVal as * 2 ^ bs.length + bitsVal bs := by
  induction as with
  | nil => simp [bitsVal]
  | cons a as ih => simp [bitsVal, ih, Nat.pow_add]; ring

@[simp] theorem bitsVal_bitsN (n v : Nat) : bitsVal (bitsN n v) = v % 2 ^ n := by
  induction n with
  | zero => simp [bitsN, bitsVal, Nat.mod_one]
  | succ n ih =>
    rw [bitsN, bitsVal, ih, bitsN_length, Nat.toNat_testBit, Nat.mod_pow_succ, Nat.add_comm, Nat.mul_comm]

theorem bitsN_mod (n v : Nat) : bitsN n (v % 2 ^ n) = bitsN n v := by
  have key : ∀ m, m ≤ n → bitsN m (v % 2 ^ n) = bitsN m v := by
    intro m
    induction m with
    | zero => intro _; rfl
    | succ m ih =>
      intro hm
      simp only [bitsN]
      rw [ih (by omega), Nat.testBit_mod_two_pow]
      simp [show m < n by omega]
  exact key n (le_refl n)

theorem bitsN_bitsVal (bs : List Bool) : bitsN bs.length (bitsVal bs) = bs := by
  induction bs with
  | nil => rfl
  | cons b bs ih =>
    have hlt := bitsVal_lt bs
    have htail : bitsN bs.length (bitsVal (b :: bs)) = bs := by
      rw [← bitsN_mod, bitsVal, Nat.mul_comm, Nat.mul_add_mod, Nat.mod_eq_of_lt hlt, ih]
    have hhead : (bitsVal (b :: bs)).testBit bs.length = b := by
      rw [bitsVal, Nat.mul_comm, Nat.testBit_two_pow_mul_add _ hlt]
      cases b <;> simp
    simp only [List.length_cons, bitsN, hhead, htail]

/-- A number of n bits is its bit string's value. -/
theorem bitsVal_bitsN_of_lt {n v : Nat} (h : v < 2 ^ n) : bitsVal (bitsN n v) = v := by
  rw [bitsVal_bitsN, Nat.mod_eq_of_lt h]

/-- Bit strings of one length with one value are equal. -/
theorem bitsVal_injective {as bs : List Bool} (hl : as.length = bs.length) (hv : bitsVal as = bitsVal bs) :
    as = bs := by
  rw [← bitsN_bitsVal as, ← bitsN_bitsVal bs, hl, hv]

end Sys2Proof
end

