-- ==== Sys2Proof/Laws/State.lean ====
section
/-! SUPPORT. One lemma per field per update of State, so that no proof unfolds an update. -/

namespace Sys2Proof.Machine

/-! ### raise -/

@[simp] theorem raise_err (e : ErrKind) (info : Nat) (s : State) : (raise e info s).err = true := rfl
@[simp] theorem raise_tv (e : ErrKind) (info : Nat) (s : State) : (raise e info s).tv = s.tv := rfl
@[simp] theorem raise_cv (e : ErrKind) (info : Nat) (s : State) : (raise e info s).cv = s.cv := rfl
@[simp] theorem raise_degen (e : ErrKind) (info : Nat) (s : State) : (raise e info s).degen = s.degen := rfl
@[simp] theorem raise_errcode (e : ErrKind) (info : Nat) (s : State) : (raise e info s).errcode = e.code := rfl
@[simp] theorem raise_errinfo (e : ErrKind) (info : Nat) (s : State) : (raise e info s).errinfo = BitVec.ofNat 32 info := rfl
@[simp] theorem raise_root (e : ErrKind) (info : Nat) (s : State) : (raise e info s).root = s.root := rfl
@[simp] theorem raise_nn (e : ErrKind) (info : Nat) (s : State) : (raise e info s).nn = s.nn := rfl
@[simp] theorem raise_cur (e : ErrKind) (info : Nat) (s : State) : (raise e info s).cur = s.cur := rfl
@[simp] theorem raise_hist (e : ErrKind) (info : Nat) (s : State) : (raise e info s).hist = s.hist := rfl
@[simp] theorem raise_node (e : ErrKind) (info : Nat) (s : State) : (raise e info s).node = s.node := rfl
@[simp] theorem raise_code (e : ErrKind) (info : Nat) (s : State) : (raise e info s).code = s.code := rfl
@[simp] theorem raise_seqr (e : ErrKind) (info : Nat) (s : State) : (raise e info s).seqr = .idle := rfl
@[simp] theorem raise_hidden (e : ErrKind) (info : Nat) (s : State) : (raise e info s).hidden = Config.freeHidden s.free := rfl
@[simp] theorem raise_src (e : ErrKind) (info : Nat) (s : State) : (raise e info s).src = s.src := rfl
@[simp] theorem raise_snk (e : ErrKind) (info : Nat) (s : State) : (raise e info s).snk = s.snk := rfl
@[simp] theorem raise_cfg (e : ErrKind) (info : Nat) (s : State) : (raise e info s).cfg = s.cfg := rfl
@[simp] theorem raise_pending (e : ErrKind) (info : Nat) (s : State) : (raise e info s).pending = s.pending := rfl
@[simp] theorem raise_hostData (e : ErrKind) (info : Nat) (s : State) : (raise e info s).hostData = s.hostData := rfl
@[simp] theorem raise_free (e : ErrKind) (info : Nat) (s : State) : (raise e info s).free = s.free + 1 := rfl

/-! ### clearError -/

@[simp] theorem clearError_err (s : State) : (clearError s).err = false := rfl
@[simp] theorem clearError_tv (s : State) : (clearError s).tv = s.tv := rfl
@[simp] theorem clearError_cv (s : State) : (clearError s).cv = s.cv := rfl
@[simp] theorem clearError_degen (s : State) : (clearError s).degen = s.degen := rfl
@[simp] theorem clearError_errcode (s : State) : (clearError s).errcode = 0#4 := rfl
@[simp] theorem clearError_errinfo (s : State) : (clearError s).errinfo = 0#32 := rfl
@[simp] theorem clearError_root (s : State) : (clearError s).root = s.root := rfl
@[simp] theorem clearError_nn (s : State) : (clearError s).nn = s.nn := rfl
@[simp] theorem clearError_cur (s : State) : (clearError s).cur = s.cur := rfl
@[simp] theorem clearError_hist (s : State) : (clearError s).hist = s.hist := rfl
@[simp] theorem clearError_node (s : State) : (clearError s).node = s.node := rfl
@[simp] theorem clearError_code (s : State) : (clearError s).code = s.code := rfl
@[simp] theorem clearError_seqr (s : State) : (clearError s).seqr = s.seqr := rfl
@[simp] theorem clearError_hidden (s : State) : (clearError s).hidden = Hidden.empty := rfl
@[simp] theorem clearError_src (s : State) : (clearError s).src = s.src := rfl
@[simp] theorem clearError_snk (s : State) : (clearError s).snk = s.snk := rfl
@[simp] theorem clearError_cfg (s : State) : (clearError s).cfg = s.cfg := rfl
@[simp] theorem clearError_pending (s : State) : (clearError s).pending = s.pending := rfl
@[simp] theorem clearError_hostData (s : State) : (clearError s).hostData = s.hostData := rfl
@[simp] theorem clearError_free (s : State) : (clearError s).free = s.free := rfl

/-! ### dropTree -/

@[simp] theorem dropTree_err (s : State) : (dropTree s).err = s.err := rfl
@[simp] theorem dropTree_tv (s : State) : (dropTree s).tv = false := rfl
@[simp] theorem dropTree_cv (s : State) : (dropTree s).cv = false := rfl
@[simp] theorem dropTree_degen (s : State) : (dropTree s).degen = false := rfl
@[simp] theorem dropTree_errcode (s : State) : (dropTree s).errcode = s.errcode := rfl
@[simp] theorem dropTree_errinfo (s : State) : (dropTree s).errinfo = s.errinfo := rfl
@[simp] theorem dropTree_root (s : State) : (dropTree s).root = s.root := rfl
@[simp] theorem dropTree_nn (s : State) : (dropTree s).nn = s.nn := rfl
@[simp] theorem dropTree_cur (s : State) : (dropTree s).cur = idxNil := rfl
@[simp] theorem dropTree_hist (s : State) : (dropTree s).hist = s.hist := rfl
@[simp] theorem dropTree_node (s : State) : (dropTree s).node = s.node := rfl
@[simp] theorem dropTree_code (s : State) : (dropTree s).code = s.code := rfl
@[simp] theorem dropTree_seqr (s : State) : (dropTree s).seqr = s.seqr := rfl
@[simp] theorem dropTree_hidden (s : State) : (dropTree s).hidden = s.hidden := rfl
@[simp] theorem dropTree_src (s : State) : (dropTree s).src = s.src := rfl
@[simp] theorem dropTree_snk (s : State) : (dropTree s).snk = s.snk := rfl
@[simp] theorem dropTree_cfg (s : State) : (dropTree s).cfg = s.cfg := rfl
@[simp] theorem dropTree_pending (s : State) : (dropTree s).pending = s.pending := rfl
@[simp] theorem dropTree_hostData (s : State) : (dropTree s).hostData = s.hostData := rfl
@[simp] theorem dropTree_free (s : State) : (dropTree s).free = s.free := rfl

/-! ### loseTree -/

@[simp] theorem loseTree_err (s : State) : (loseTree s).err = s.err := rfl
@[simp] theorem loseTree_tv (s : State) : (loseTree s).tv = s.tv := rfl
@[simp] theorem loseTree_cv (s : State) : (loseTree s).cv = s.cv := rfl
@[simp] theorem loseTree_degen (s : State) : (loseTree s).degen = s.degen := rfl
@[simp] theorem loseTree_errcode (s : State) : (loseTree s).errcode = s.errcode := rfl
@[simp] theorem loseTree_errinfo (s : State) : (loseTree s).errinfo = s.errinfo := rfl
@[simp] theorem loseTree_root (s : State) : (loseTree s).root = BitVec.ofNat 10 (Config.freeWord s.free) := rfl
@[simp] theorem loseTree_nn (s : State) : (loseTree s).nn = BitVec.ofNat 10 (Config.freeWord (s.free + 1)) := rfl
@[simp] theorem loseTree_cur (s : State) : (loseTree s).cur = s.cur := rfl
@[simp] theorem loseTree_hist (s : State) : (loseTree s).hist = s.hist := rfl
@[simp] theorem loseTree_node (s : State) : (loseTree s).node = [] := rfl
@[simp] theorem loseTree_code (s : State) : (loseTree s).code = s.code := rfl
@[simp] theorem loseTree_seqr (s : State) : (loseTree s).seqr = s.seqr := rfl
@[simp] theorem loseTree_hidden (s : State) : (loseTree s).hidden = s.hidden := rfl
@[simp] theorem loseTree_src (s : State) : (loseTree s).src = s.src := rfl
@[simp] theorem loseTree_snk (s : State) : (loseTree s).snk = s.snk := rfl
@[simp] theorem loseTree_cfg (s : State) : (loseTree s).cfg = s.cfg := rfl
@[simp] theorem loseTree_pending (s : State) : (loseTree s).pending = s.pending := rfl
@[simp] theorem loseTree_hostData (s : State) : (loseTree s).hostData = s.hostData := rfl
@[simp] theorem loseTree_free (s : State) : (loseTree s).free = s.free + 2 := rfl

/-! ### failTree -/

@[simp] theorem failTree_err (e : ErrKind) (info : Nat) (s : State) : (failTree e info s).err = true := rfl
@[simp] theorem failTree_tv (e : ErrKind) (info : Nat) (s : State) : (failTree e info s).tv = s.tv := rfl
@[simp] theorem failTree_cv (e : ErrKind) (info : Nat) (s : State) : (failTree e info s).cv = s.cv := rfl
@[simp] theorem failTree_degen (e : ErrKind) (info : Nat) (s : State) : (failTree e info s).degen = s.degen := rfl
@[simp] theorem failTree_errcode (e : ErrKind) (info : Nat) (s : State) : (failTree e info s).errcode = e.code := rfl
@[simp] theorem failTree_errinfo (e : ErrKind) (info : Nat) (s : State) : (failTree e info s).errinfo = BitVec.ofNat 32 info := rfl
@[simp] theorem failTree_root (e : ErrKind) (info : Nat) (s : State) : (failTree e info s).root = BitVec.ofNat 10 (Config.freeWord s.free) := rfl
@[simp] theorem failTree_nn (e : ErrKind) (info : Nat) (s : State) : (failTree e info s).nn = BitVec.ofNat 10 (Config.freeWord (s.free + 1)) := rfl
@[simp] theorem failTree_cur (e : ErrKind) (info : Nat) (s : State) : (failTree e info s).cur = s.cur := rfl
@[simp] theorem failTree_hist (e : ErrKind) (info : Nat) (s : State) : (failTree e info s).hist = s.hist := rfl
@[simp] theorem failTree_node (e : ErrKind) (info : Nat) (s : State) : (failTree e info s).node = [] := rfl
@[simp] theorem failTree_code (e : ErrKind) (info : Nat) (s : State) : (failTree e info s).code = s.code := rfl
@[simp] theorem failTree_seqr (e : ErrKind) (info : Nat) (s : State) : (failTree e info s).seqr = .idle := rfl
@[simp] theorem failTree_hidden (e : ErrKind) (info : Nat) (s : State) : (failTree e info s).hidden = Config.freeHidden (s.free + 2) := rfl
@[simp] theorem failTree_src (e : ErrKind) (info : Nat) (s : State) : (failTree e info s).src = s.src := rfl
@[simp] theorem failTree_snk (e : ErrKind) (info : Nat) (s : State) : (failTree e info s).snk = s.snk := rfl
@[simp] theorem failTree_cfg (e : ErrKind) (info : Nat) (s : State) : (failTree e info s).cfg = s.cfg := rfl
@[simp] theorem failTree_pending (e : ErrKind) (info : Nat) (s : State) : (failTree e info s).pending = s.pending := rfl
@[simp] theorem failTree_hostData (e : ErrKind) (info : Nat) (s : State) : (failTree e info s).hostData = s.hostData := rfl
@[simp] theorem failTree_free (e : ErrKind) (info : Nat) (s : State) : (failTree e info s).free = s.free + 3 := rfl

/-! ### resetBlock -/

@[simp] theorem resetBlock_err (s : State) : (resetBlock s).err = State.reset.err := rfl
@[simp] theorem resetBlock_tv (s : State) : (resetBlock s).tv = State.reset.tv := rfl
@[simp] theorem resetBlock_cv (s : State) : (resetBlock s).cv = State.reset.cv := rfl
@[simp] theorem resetBlock_degen (s : State) : (resetBlock s).degen = State.reset.degen := rfl
@[simp] theorem resetBlock_errcode (s : State) : (resetBlock s).errcode = State.reset.errcode := rfl
@[simp] theorem resetBlock_errinfo (s : State) : (resetBlock s).errinfo = State.reset.errinfo := rfl
@[simp] theorem resetBlock_root (s : State) : (resetBlock s).root = State.reset.root := rfl
@[simp] theorem resetBlock_nn (s : State) : (resetBlock s).nn = State.reset.nn := rfl
@[simp] theorem resetBlock_cur (s : State) : (resetBlock s).cur = State.reset.cur := rfl
@[simp] theorem resetBlock_hist (s : State) : (resetBlock s).hist = State.reset.hist := rfl
@[simp] theorem resetBlock_node (s : State) : (resetBlock s).node = State.reset.node := rfl
@[simp] theorem resetBlock_code (s : State) : (resetBlock s).code = State.reset.code := rfl
@[simp] theorem resetBlock_seqr (s : State) : (resetBlock s).seqr = State.reset.seqr := rfl
@[simp] theorem resetBlock_hidden (s : State) : (resetBlock s).hidden = State.reset.hidden := rfl
@[simp] theorem resetBlock_src (s : State) : (resetBlock s).src = s.src := rfl
@[simp] theorem resetBlock_snk (s : State) : (resetBlock s).snk = s.snk := rfl
@[simp] theorem resetBlock_cfg (s : State) : (resetBlock s).cfg = s.cfg := rfl
@[simp] theorem resetBlock_pending (s : State) : (resetBlock s).pending = s.pending := rfl
@[simp] theorem resetBlock_hostData (s : State) : (resetBlock s).hostData = s.hostData := rfl
@[simp] theorem resetBlock_free (s : State) : (resetBlock s).free = s.free := rfl

/-! ### startTree -/

@[simp] theorem startTree_err (s : State) : (startTree s).err = s.err := rfl
@[simp] theorem startTree_tv (s : State) : (startTree s).tv = false := rfl
@[simp] theorem startTree_cv (s : State) : (startTree s).cv = false := rfl
@[simp] theorem startTree_degen (s : State) : (startTree s).degen = false := rfl
@[simp] theorem startTree_errcode (s : State) : (startTree s).errcode = s.errcode := rfl
@[simp] theorem startTree_errinfo (s : State) : (startTree s).errinfo = s.errinfo := rfl
@[simp] theorem startTree_root (s : State) : (startTree s).root = s.root := rfl
@[simp] theorem startTree_nn (s : State) : (startTree s).nn = s.nn := rfl
@[simp] theorem startTree_cur (s : State) : (startTree s).cur = idxNil := rfl
@[simp] theorem startTree_hist (s : State) : (startTree s).hist = s.hist := rfl
@[simp] theorem startTree_node (s : State) : (startTree s).node = [] := rfl
@[simp] theorem startTree_code (s : State) : (startTree s).code = s.code := rfl
@[simp] theorem startTree_seqr (s : State) : (startTree s).seqr = .inTree := rfl
@[simp] theorem startTree_hidden (s : State) : (startTree s).hidden = { Hidden.empty with mstep := s.hidden.mstep } := rfl
@[simp] theorem startTree_src (s : State) : (startTree s).src = s.src := rfl
@[simp] theorem startTree_snk (s : State) : (startTree s).snk = s.snk := rfl
@[simp] theorem startTree_cfg (s : State) : (startTree s).cfg = s.cfg := rfl
@[simp] theorem startTree_pending (s : State) : (startTree s).pending = s.pending := rfl
@[simp] theorem startTree_hostData (s : State) : (startTree s).hostData = s.hostData := rfl
@[simp] theorem startTree_free (s : State) : (startTree s).free = s.free := rfl

/-! ### storeNode -/

@[simp] theorem storeNode_err (x : Node) (s : State) : (storeNode x s).err = s.err := rfl
@[simp] theorem storeNode_tv (x : Node) (s : State) : (storeNode x s).tv = s.tv := rfl
@[simp] theorem storeNode_cv (x : Node) (s : State) : (storeNode x s).cv = s.cv := rfl
@[simp] theorem storeNode_degen (x : Node) (s : State) : (storeNode x s).degen = s.degen := rfl
@[simp] theorem storeNode_errcode (x : Node) (s : State) : (storeNode x s).errcode = s.errcode := rfl
@[simp] theorem storeNode_errinfo (x : Node) (s : State) : (storeNode x s).errinfo = s.errinfo := rfl
@[simp] theorem storeNode_root (x : Node) (s : State) : (storeNode x s).root = s.root := rfl
@[simp] theorem storeNode_nn (x : Node) (s : State) : (storeNode x s).nn = s.nn := rfl
@[simp] theorem storeNode_cur (x : Node) (s : State) : (storeNode x s).cur = s.cur := rfl
@[simp] theorem storeNode_hist (x : Node) (s : State) : (storeNode x s).hist = s.hist := rfl
@[simp] theorem storeNode_node (x : Node) (s : State) : (storeNode x s).node = linkNode s.hidden.link s.node.length (s.node ++ [x]) := rfl
@[simp] theorem storeNode_code (x : Node) (s : State) : (storeNode x s).code = s.code := rfl
@[simp] theorem storeNode_seqr (x : Node) (s : State) : (storeNode x s).seqr = s.seqr := rfl
@[simp] theorem storeNode_hidden (x : Node) (s : State) : (storeNode x s).hidden = s.hidden := rfl
@[simp] theorem storeNode_src (x : Node) (s : State) : (storeNode x s).src = s.src := rfl
@[simp] theorem storeNode_snk (x : Node) (s : State) : (storeNode x s).snk = s.snk := rfl
@[simp] theorem storeNode_cfg (x : Node) (s : State) : (storeNode x s).cfg = s.cfg := rfl
@[simp] theorem storeNode_pending (x : Node) (s : State) : (storeNode x s).pending = s.pending := rfl
@[simp] theorem storeNode_hostData (x : Node) (s : State) : (storeNode x s).hostData = s.hostData := rfl
@[simp] theorem storeNode_free (x : Node) (s : State) : (storeNode x s).free = s.free := rfl

/-! ### setStep -/

@[simp] theorem setStep_err (k : Nat) (s : State) : (setStep k s).err = s.err := rfl
@[simp] theorem setStep_tv (k : Nat) (s : State) : (setStep k s).tv = s.tv := rfl
@[simp] theorem setStep_cv (k : Nat) (s : State) : (setStep k s).cv = s.cv := rfl
@[simp] theorem setStep_degen (k : Nat) (s : State) : (setStep k s).degen = s.degen := rfl
@[simp] theorem setStep_errcode (k : Nat) (s : State) : (setStep k s).errcode = s.errcode := rfl
@[simp] theorem setStep_errinfo (k : Nat) (s : State) : (setStep k s).errinfo = s.errinfo := rfl
@[simp] theorem setStep_root (k : Nat) (s : State) : (setStep k s).root = s.root := rfl
@[simp] theorem setStep_nn (k : Nat) (s : State) : (setStep k s).nn = s.nn := rfl
@[simp] theorem setStep_cur (k : Nat) (s : State) : (setStep k s).cur = s.cur := rfl
@[simp] theorem setStep_hist (k : Nat) (s : State) : (setStep k s).hist = s.hist := rfl
@[simp] theorem setStep_node (k : Nat) (s : State) : (setStep k s).node = s.node := rfl
@[simp] theorem setStep_code (k : Nat) (s : State) : (setStep k s).code = s.code := rfl
@[simp] theorem setStep_seqr (k : Nat) (s : State) : (setStep k s).seqr = s.seqr := rfl
@[simp] theorem setStep_hidden (k : Nat) (s : State) : (setStep k s).hidden = { s.hidden with mstep := k } := rfl
@[simp] theorem setStep_src (k : Nat) (s : State) : (setStep k s).src = s.src := rfl
@[simp] theorem setStep_snk (k : Nat) (s : State) : (setStep k s).snk = s.snk := rfl
@[simp] theorem setStep_cfg (k : Nat) (s : State) : (setStep k s).cfg = s.cfg := rfl
@[simp] theorem setStep_pending (k : Nat) (s : State) : (setStep k s).pending = s.pending := rfl
@[simp] theorem setStep_hostData (k : Nat) (s : State) : (setStep k s).hostData = s.hostData := rfl
@[simp] theorem setStep_free (k : Nat) (s : State) : (setStep k s).free = s.free := rfl

/-! ### attachSrc -/

@[simp] theorem attachSrc_err (bits : List Bool) (s : State) : (attachSrc bits s).err = s.err := rfl
@[simp] theorem attachSrc_tv (bits : List Bool) (s : State) : (attachSrc bits s).tv = s.tv := rfl
@[simp] theorem attachSrc_cv (bits : List Bool) (s : State) : (attachSrc bits s).cv = s.cv := rfl
@[simp] theorem attachSrc_degen (bits : List Bool) (s : State) : (attachSrc bits s).degen = s.degen := rfl
@[simp] theorem attachSrc_errcode (bits : List Bool) (s : State) : (attachSrc bits s).errcode = s.errcode := rfl
@[simp] theorem attachSrc_errinfo (bits : List Bool) (s : State) : (attachSrc bits s).errinfo = s.errinfo := rfl
@[simp] theorem attachSrc_root (bits : List Bool) (s : State) : (attachSrc bits s).root = s.root := rfl
@[simp] theorem attachSrc_nn (bits : List Bool) (s : State) : (attachSrc bits s).nn = s.nn := rfl
@[simp] theorem attachSrc_cur (bits : List Bool) (s : State) : (attachSrc bits s).cur = s.cur := rfl
@[simp] theorem attachSrc_hist (bits : List Bool) (s : State) : (attachSrc bits s).hist = s.hist := rfl
@[simp] theorem attachSrc_node (bits : List Bool) (s : State) : (attachSrc bits s).node = s.node := rfl
@[simp] theorem attachSrc_code (bits : List Bool) (s : State) : (attachSrc bits s).code = s.code := rfl
@[simp] theorem attachSrc_seqr (bits : List Bool) (s : State) : (attachSrc bits s).seqr = s.seqr := rfl
@[simp] theorem attachSrc_hidden (bits : List Bool) (s : State) : (attachSrc bits s).hidden = s.hidden := rfl
@[simp] theorem attachSrc_src (bits : List Bool) (s : State) : (attachSrc bits s).src = { bits := bits, pos := 0 } := rfl
@[simp] theorem attachSrc_snk (bits : List Bool) (s : State) : (attachSrc bits s).snk = s.snk := rfl
@[simp] theorem attachSrc_cfg (bits : List Bool) (s : State) : (attachSrc bits s).cfg = s.cfg := rfl
@[simp] theorem attachSrc_pending (bits : List Bool) (s : State) : (attachSrc bits s).pending = s.pending := rfl
@[simp] theorem attachSrc_hostData (bits : List Bool) (s : State) : (attachSrc bits s).hostData = s.hostData := rfl
@[simp] theorem attachSrc_free (bits : List Bool) (s : State) : (attachSrc bits s).free = s.free := rfl

/-! ### attachSnk -/

@[simp] theorem attachSnk_err (s : State) : (attachSnk s).err = s.err := rfl
@[simp] theorem attachSnk_tv (s : State) : (attachSnk s).tv = s.tv := rfl
@[simp] theorem attachSnk_cv (s : State) : (attachSnk s).cv = s.cv := rfl
@[simp] theorem attachSnk_degen (s : State) : (attachSnk s).degen = s.degen := rfl
@[simp] theorem attachSnk_errcode (s : State) : (attachSnk s).errcode = s.errcode := rfl
@[simp] theorem attachSnk_errinfo (s : State) : (attachSnk s).errinfo = s.errinfo := rfl
@[simp] theorem attachSnk_root (s : State) : (attachSnk s).root = s.root := rfl
@[simp] theorem attachSnk_nn (s : State) : (attachSnk s).nn = s.nn := rfl
@[simp] theorem attachSnk_cur (s : State) : (attachSnk s).cur = s.cur := rfl
@[simp] theorem attachSnk_hist (s : State) : (attachSnk s).hist = s.hist := rfl
@[simp] theorem attachSnk_node (s : State) : (attachSnk s).node = s.node := rfl
@[simp] theorem attachSnk_code (s : State) : (attachSnk s).code = s.code := rfl
@[simp] theorem attachSnk_seqr (s : State) : (attachSnk s).seqr = s.seqr := rfl
@[simp] theorem attachSnk_hidden (s : State) : (attachSnk s).hidden = s.hidden := rfl
@[simp] theorem attachSnk_src (s : State) : (attachSnk s).src = s.src := rfl
@[simp] theorem attachSnk_snk (s : State) : (attachSnk s).snk = { bits := [], closed := false } := rfl
@[simp] theorem attachSnk_cfg (s : State) : (attachSnk s).cfg = s.cfg := rfl
@[simp] theorem attachSnk_pending (s : State) : (attachSnk s).pending = s.pending := rfl
@[simp] theorem attachSnk_hostData (s : State) : (attachSnk s).hostData = s.hostData := rfl
@[simp] theorem attachSnk_free (s : State) : (attachSnk s).free = s.free := rfl

end Sys2Proof.Machine
end

