-- ==== Sys2Proof/Laws/Ops.lean ====
section
/-! SUPPORT. What each shared operation can do, said once (Machine/Ops.lean, Machine/Operands.lean). -/

namespace Sys2Proof.Machine

/-! ### Outcomes in sequence -/

@[simp] theorem bindOut_next {α β : Type} (a : α) (f : α → Out β) : bindOut (.next a) f = f a := rfl

@[simp] theorem mapOut_next {α β : Type} (a : α) (f : α → β) : mapOut f (.next a) = .next (f a) := rfl

theorem bindOut_eq_next {α β : Type} {o : Out α} {f : α → Out β} {b : β} :
    bindOut o f = .next b ↔ ∃ a, o = .next a ∧ f a = .next b := by
  cases o <;> simp [bindOut]

theorem mapOut_eq_next {α β : Type} {o : Out α} {f : α → β} {b : β} :
    mapOut f o = .next b ↔ ∃ a, o = .next a ∧ f a = b := by
  cases o <;> simp [mapOut, bindOut]

theorem thenOk_eq_next {o : Out State} {f : State → Out State} {t : State} :
    thenOk o f = .next t ↔
      (o = .next t ∧ t.err = true) ∨ ∃ s, o = .next s ∧ s.err = false ∧ f s = .next t := by
  cases o with
  | next s => cases h : s.err <;> simp [thenOk, bindOut, h] <;> grind
  | fault r => simp [thenOk, bindOut]
  | refused r => simp [thenOk, bindOut]

/-! ### Streams -/

theorem Source.rest_length (src : Source) : src.rest.length = src.bits.length - src.pos := by
  simp [Source.rest]

@[simp] theorem Source.rest_advance (src : Source) (n : Nat) : (src.advance n).rest = src.rest.drop n := by
  simp [Source.rest, Source.advance, List.drop_drop]

@[simp] theorem Source.advance_bits (src : Source) (n : Nat) : (src.advance n).bits = src.bits := rfl

@[simp] theorem Source.advance_pos (src : Source) (n : Nat) : (src.advance n).pos = src.pos + n := rfl

@[simp] theorem Source.advance_zero (src : Source) : src.advance 0 = src := rfl

@[simp] theorem Source.advance_advance (src : Source) (m n : Nat) :
    (src.advance m).advance n = src.advance (m + n) := by
  simp [Source.advance, Nat.add_assoc]

/-- A read of n > 0 bits is exhausted exactly when fewer than n remain (20_memory.md R82). -/
theorem srcRead_eq_none {n : Nat} (hn : 0 < n) (src : Source) :
    srcRead n src = none ↔ src.rest.length < n := by
  rw [Source.rest_length]
  simp only [srcRead]
  split <;> simp <;> omega

/-- A read that is not exhausted gives the next n bits and moves past them (20_memory.md R82). -/
theorem srcRead_eq_some {n : Nat} (hn : 0 < n) (src : Source) {v : Nat} {src' : Source} :
    srcRead n src = some (v, src') ↔
      n ≤ src.rest.length ∧ v = bitsVal (src.rest.take n) ∧ src' = src.advance n := by
  rw [Source.rest_length]
  simp only [srcRead]
  split <;> simp <;> grind

theorem srcRead_of_le {n : Nat} (src : Source) (hn : 0 < n) (h : n ≤ src.rest.length) :
    srcRead n src = some (bitsVal (src.rest.take n), src.advance n) :=
  (srcRead_eq_some hn src).2 ⟨h, rfl, rfl⟩

theorem srcRead_of_lt {n : Nat} (src : Source) (h : src.rest.length < n) : srcRead n src = none :=
  (srcRead_eq_none (by omega) src).2 h

/-- A write to the sink appends, and only an open sink takes it (20_memory.md R85, R90). -/
theorem snkWrite_eq_next {n v : Nat} {snk snk' : Sink} :
    snkWrite n v snk = .next snk' ↔
      snk.closed = false ∧ snk' = { bits := snk.bits ++ bitsN n v, closed := false } := by
  cases snk with
  | mk bits closed => cases closed <;> simp [snkWrite, eq_comm]

theorem snkWrite_open (n v : Nat) (bits : List Bool) :
    snkWrite n v { bits := bits, closed := false } = .next { bits := bits ++ bitsN n v, closed := false } := rfl

theorem snkWrite_closed {n v : Nat} {snk : Sink} (h : snk.closed = true) :
    snkWrite n v snk = .refused .sinkClosed := by
  simp [snkWrite, h]

theorem padBits_le (n : Nat) : padBits n ≤ 7 := by unfold padBits; omega

theorem padBits_mod (n : Nat) : (n + padBits n) % 8 = 0 := by unfold padBits; omega

/-- A flush pads to a whole byte and closes, and only an open sink takes it (20_memory.md R87, R90). -/
theorem snkFlush_eq_next {snk snk' : Sink} :
    snkFlush snk = .next snk' ↔
      snk.closed = false ∧
      snk' = { bits := snk.bits ++ List.replicate (padBits snk.bits.length) false, closed := true } := by
  cases snk with
  | mk bits closed => cases closed <;> simp [snkFlush, eq_comm]

/-! ### Acceptance -/

theorem accept_ready {body : State → Out State} {s : State} (h : Ready s) : accept body s = body s := by
  simp [accept, State.busy, h.1, h.2]

theorem accept_error {body : State → Out State} {s : State} (hi : s.seqr = .idle) (he : s.err = true) :
    accept body s = .next s := by
  simp [accept, State.busy, hi, he]

theorem accept_busy {body : State → Out State} {s : State} (h : s.seqr ≠ .idle) :
    accept body s = .refused .commandWhileBusy := by
  simp [accept, State.busy, h]

theorem acceptAlways_idle {body : State → Out State} {s : State} (h : s.seqr = .idle) :
    acceptAlways body s = body s := by
  simp [acceptAlways, State.busy, h]

theorem acceptAlways_busy {body : State → Out State} {s : State} (h : s.seqr ≠ .idle) :
    acceptAlways body s = .refused .commandWhileBusy := by
  simp [acceptAlways, State.busy, h]

/-- A next state of an accepted command: the body's, or the state itself while an error is pending. -/
theorem accept_eq_next {body : State → Out State} {s t : State} :
    accept body s = .next t ↔
      s.seqr = .idle ∧ ((s.err = true ∧ t = s) ∨ (s.err = false ∧ body s = .next t)) := by
  by_cases hi : s.seqr = .idle
  · cases he : s.err <;> simp [accept, State.busy, hi, he, eq_comm]
  · simp [accept, State.busy, hi]

/-! ### Symbols and the 257-entry memories -/

theorem unitSym_val {u : Nat} (h : u < 256) : (unitSym u).val = u := by
  simp only [unitSym, Fin.val_ofNat]
  omega

theorem unitSym_ne_sentinel (u : Nat) : unitSym u ≠ sentinel := by
  intro h
  have := congrArg Fin.val h
  simp only [unitSym, sentinel, Fin.val_ofNat] at this
  have : (256 : Fin 257).val = 256 := rfl
  omega

theorem symField_toNat (x : Sym) : (symField x).toNat = x.val := by
  have := x.isLt
  simp only [symField, BitVec.toNat_ofNat]
  omega

@[simp] theorem symOf_symField (x : Sym) : symOf (symField x) = some x := by
  have := x.isLt
  simp [symOf, symField_toNat]

theorem symOf_eq_none {f : BitVec 9} : symOf f = none ↔ 256 < f.toNat := by
  unfold symOf
  split <;> simp <;> omega

@[simp] theorem rdSym_wrSym_same {α : Type} (t : Vector α 257) (x : Sym) (v : α) :
    rdSym (wrSym t x v) x = v := by
  simp [rdSym, wrSym]

theorem rdSym_wrSym_ne {α : Type} (t : Vector α 257) {x y : Sym} (v : α) (h : x ≠ y) :
    rdSym (wrSym t x v) y = rdSym t y := by
  have : x.val ≠ y.val := fun e => h (Fin.ext e)
  simp [rdSym, wrSym, this]

theorem rdSym_wrSym {α : Type} (t : Vector α 257) (x y : Sym) (v : α) :
    rdSym (wrSym t x v) y = if x = y then v else rdSym t y := by
  split
  · next h => subst h; simp
  · next h => exact rdSym_wrSym_ne t v h

@[simp] theorem rdSym_replicate {α : Type} (v : α) (x : Sym) : rdSym (Vector.replicate 257 v) x = v := by
  simp [rdSym]

/-- Two 257-entry memories with the same entries are equal. -/
theorem rdSym_ext {α : Type} {t u : Vector α 257} (h : ∀ x : Sym, rdSym t x = rdSym u x) : t = u := by
  apply Vector.ext
  intro i hi
  exact h ⟨i, hi⟩

end Sys2Proof.Machine
end

