-- ==== Sys2Proof/Laws/Hidden.lean ====
section
/-! SUPPORT. The hidden working state at the end of a command that succeeds: the walks end with an empty stack and the
merge loop with one element in the priority set (10_state.md R49, R50); and the decode automaton's path function. -/

namespace Sys2Proof.Machine

/-- GENCODE's walk ends with an empty stack (42_code_generator.md R192). -/
theorem genLoop_stk {node : List Node} : ∀ (k : Nat) (stk : List StkEntry) (code : Vector CodeEntry 257)
    {r : List StkEntry × Vector CodeEntry 257}, genLoop node k stk code = .next r → r.1 = [] := by
  intro k
  induction k with
  | zero => intro stk code r h; cases h
  | succ k ih =>
    intro stk code r h
    cases stk with
    | nil => simp only [genLoop, Host.Outcome.next.injEq] at h; rw [← h]
    | cons e stk =>
      simp only [genLoop] at h
      split at h
      · cases h
      · split at h
        · split at h
          · cases h
          · exact ih _ _ h
        · exact ih _ _ h

/-- WRTREE's walk ends with an empty stack (43_tree_serial.md R208). -/
theorem serLoop_stk {node : List Node} : ∀ (k : Nat) (stk : List StkEntry) (snk : Sink) {r : List StkEntry × Sink},
    serLoop node k stk snk = .next r → r.1 = [] := by
  intro k
  induction k with
  | zero => intro stk snk r h; cases h
  | succ k ih =>
    intro stk snk r h
    cases stk with
    | nil => simp only [serLoop, Host.Outcome.next.injEq] at h; rw [← h]
    | cons e stk =>
      simp only [serLoop] at h
      split at h
      · cases h
      · split at h <;> split at h <;> first | exact ih _ _ h | cases h

/-- The least index is one of the set. -/
theorem leastIdx_mem (node : List Node) : ∀ (is : List Nat) (a : Nat), leastIdx node a is ∈ a :: is := by
  intro is
  induction is with
  | nil => intro a; simp [leastIdx]
  | cons i is ih =>
    intro a
    have hi := List.mem_cons.mp (ih i)
    have ha := List.mem_cons.mp (ih a)
    simp only [leastIdx, List.mem_cons]
    split <;> tauto

/-- Removing the least takes one element off the set. -/
theorem popLeast_length {node : List Node} {pq pq' : List Nat} {a : Nat} (h : popLeast node pq = some (a, pq')) :
    pq'.length + 1 = pq.length := by
  cases pq with
  | nil => cases h
  | cons b is =>
    simp only [popLeast, Option.some.injEq, Prod.mk.injEq] at h
    rw [← h.2, List.length_erase_of_mem (leastIdx_mem node is b)]
    simp

/-- There is a least element unless the set is empty. -/
theorem popLeast_eq_none {node : List Node} {pq : List Nat} (h : popLeast node pq = none) : pq = [] := by
  cases pq with
  | nil => rfl
  | cons b is => cases h

/-- A merge loop with a pass for each element ends with at most one in the set (41_tree_builder.md R172, R175), so
nothing is left when BUILD has taken the root. -/
theorem mergeLoop_pq (wm : Nat) : ∀ (k : Nat) (node : List Node) (pq : List Nat), pq.length ≤ k →
    (mergeLoop wm k node pq).overflow = false → (mergeLoop wm k node pq).pq.tail = [] := by
  intro k
  induction k with
  | zero =>
    intro node pq h _
    have : pq = [] := List.eq_nil_of_length_eq_zero (Nat.le_zero.mp h)
    simp [mergeLoop, this]
  | succ k ih =>
    intro node pq h
    simp only [mergeLoop]
    split
    · rename_i hn
      intro _
      simp [popLeast_eq_none hn]
    · rename_i a pq1 ha
      have h1 := popLeast_length ha
      split
      · rename_i hn
        intro _
        have := popLeast_eq_none hn
        subst this
        exact List.eq_nil_of_length_eq_zero (by simp only [List.length_nil] at h1; simp only [List.length_tail]; omega)
      · rename_i b pq2 hb
        have h2 := popLeast_length hb
        split
        · intro ho; cases ho
        · exact ih _ _ (by simp only [List.length_append, List.length_singleton]; omega)

/-- A path followed in two parts. -/
theorem follow_append (node : List Node) : ∀ (p q : List Bool) (c : Idx),
    follow node c (p ++ q) = (follow node c p).bind (fun d => follow node d q) := by
  intro p
  induction p with
  | nil => intro q c; rfl
  | cons b p ih =>
    intro q c
    simp only [List.cons_append, follow]
    split
    · rfl
    · split
      · rfl
      · exact ih _ _

end Sys2Proof.Machine
end

