-- ==== Sys2Proof/Laws/Builder.lean ====
section
/-! SUPPORT. The order of the tree builder (00_scope.md R16) and all that removing the least element of the priority set
does (10_state.md R50). -/

namespace Sys2Proof.Machine

/-- The order written out: by weight, then by index. -/
theorem nodeLess_iff {node : List Node} {i j : Nat} :
    nodeLess node i j = true ↔ weightOf node i < weightOf node j ∨ weightOf node i = weightOf node j ∧ i < j := by
  simp [nodeLess]

theorem nodeLess_trans {node : List Node} {i j k : Nat} (h : nodeLess node i j = true) (h' : nodeLess node j k = true) :
    nodeLess node i k = true := by
  rw [nodeLess_iff] at *; omega

/-- The order is total on distinct indices. -/
theorem nodeLess_of_not {node : List Node} {i j : Nat} (h : ¬ nodeLess node i j = true) (hn : i ≠ j) :
    nodeLess node j i = true := by
  rw [nodeLess_iff] at *; omega

/-- The least index is before every other index of the set. -/
theorem leastIdx_least (node : List Node) : ∀ (is : List Nat) (a c : Nat), c ∈ a :: is → c ≠ leastIdx node a is →
    nodeLess node (leastIdx node a is) c = true := by
  intro is
  induction is with
  | nil => intro a c hc hn; exact absurd (by simpa [leastIdx] using hc) hn
  | cons i is ih =>
    intro a c hc hn
    simp only [leastIdx] at hn ⊢
    -- the one of a and i that goes on is at most the other
    generalize hb : (if nodeLess node i a = true then i else a) = b at hn ⊢
    by_cases hcb : c ∈ b :: is
    · exact ih b c hcb hn
    · have hbc : nodeLess node b c = true := by
        simp only [List.mem_cons, not_or] at hc hcb
        split at hb <;> rename_i h
        · obtain rfl | rfl | hc := hc
          · exact hb ▸ h
          · exact absurd hb hcb.1
          · exact absurd hc hcb.2
        · obtain rfl | rfl | hc := hc
          · exact absurd hb hcb.1
          · exact hb ▸ nodeLess_of_not h (fun e => hcb.1 (e.trans hb))
          · exact absurd hc hcb.2
      by_cases hl : b = leastIdx node b is
      · exact hl ▸ hbc
      · exact nodeLess_trans (ih b b (by simp) hl) hbc

/-- Removing the least: it is one of the set, what is left is the set without it, and it is before all that is left. -/
theorem popLeast_eq_some {node : List Node} {pq pq' : List Nat} {a : Nat} (hp : pq.Nodup)
    (h : popLeast node pq = some (a, pq')) :
    List.Perm pq (a :: pq') ∧ pq'.Nodup ∧ ∀ c ∈ pq', nodeLess node a c = true := by
  cases pq with
  | nil => cases h
  | cons b is =>
    simp only [popLeast, Option.some.injEq, Prod.mk.injEq] at h
    obtain ⟨rfl, rfl⟩ := h
    refine ⟨List.perm_cons_erase (leastIdx_mem node is b), hp.erase _, fun c hc => ?_⟩
    rw [hp.mem_erase_iff] at hc
    exact leastIdx_least node is b c hc.2 hc.1

end Sys2Proof.Machine
end

