-- ==== Sys2Proof/Laws/Units.lean ====
section
/-! SUPPORT. The units of a bit string (Machine/Tree.lean `units`), and the two loops that read units: HIST's and ENCODE's
(40_frequency_counter.md R160, 44_encoder.md R240). -/

namespace Sys2Proof.Machine

theorem unitsAt_fuel (k : Nat) : ∀ (m : Nat) (bs : List Bool), bs.length ≤ k → bs.length ≤ m →
    unitsAt k bs = unitsAt m bs := by
  induction k with
  | zero =>
    intro m bs hk _
    cases m with
    | zero => rfl
    | succ m => rw [unitsAt, unitsAt, if_pos (by omega)]
  | succ k ih =>
    intro m bs hk hm
    cases m with
    | zero => rw [unitsAt, unitsAt, if_pos (by omega)]
    | succ m =>
      by_cases h8 : bs.length < 8
      · rw [unitsAt, unitsAt, if_pos h8, if_pos h8]
      · have hd : (bs.drop 8).length = bs.length - 8 := List.length_drop
        rw [unitsAt, unitsAt, if_neg h8, if_neg h8, ih m (bs.drop 8) (by omega) (by omega)]

theorem units_short {bs : List Bool} (h : bs.length < 8) : units bs = [] := by
  unfold units
  cases hn : bs.length with
  | zero => rfl
  | succ n => rw [unitsAt, if_pos h]

theorem units_long {bs : List Bool} (h : 8 ≤ bs.length) :
    units bs = bitsVal (bs.take 8) :: units (bs.drop 8) := by
  obtain ⟨m, hm⟩ : ∃ m, bs.length = m + 1 := ⟨bs.length - 1, by omega⟩
  have hd : (bs.drop 8).length = bs.length - 8 := List.length_drop
  unfold units
  rw [hm, unitsAt, if_neg (by omega), unitsAt_fuel m _ (bs.drop 8) (by omega) (le_refl _)]

/-- Induction along the units of a bit string. -/
theorem units_induction {P : List Bool → Prop} (short : ∀ bs, bs.length < 8 → P bs)
    (long : ∀ bs, 8 ≤ bs.length → P (bs.drop 8) → P bs) (bs : List Bool) : P bs := by
  by_cases h : bs.length < 8
  · exact short bs h
  · exact long bs (by omega) (units_induction short long (bs.drop 8))
termination_by bs.length
decreasing_by simp only [List.length_drop]; omega

theorem units_lt (bs : List Bool) : ∀ u ∈ units bs, u < 256 := by
  induction bs using units_induction with
  | short bs h => simp [units_short h]
  | long bs h ih =>
    rw [units_long h]
    intro u hu
    rcases List.mem_cons.1 hu with rfl | hu
    · have := bitsVal_lt (bs.take 8)
      rw [List.length_take, Nat.min_eq_left h] at this
      exact this
    · exact ih u hu

theorem units_length (bs : List Bool) : (units bs).length = bs.length / 8 := by
  induction bs using units_induction with
  | short bs h => rw [units_short h]; simp; omega
  | long bs h ih => rw [units_long h, List.length_cons, ih, List.length_drop]; omega

/-- The units of whole bytes are the bytes (20_memory.md R88). -/
theorem units_bitsOfBytes (bytes : List (BitVec 8)) (tail : List Bool) (h : tail.length < 8) :
    units (bitsOfBytes bytes ++ tail) = bytes.map BitVec.toNat := by
  induction bytes with
  | nil => simpa [bitsOfBytes] using units_short h
  | cons b bytes ih =>
    have e : bitsOfBytes (b :: bytes) ++ tail = bitsN 8 b.toNat ++ (bitsOfBytes bytes ++ tail) := by
      simp [bitsOfBytes]
    rw [e, units_long (by simp)]
    rw [List.take_append_of_le_length (by simp), List.drop_append_of_le_length (by simp)]
    rw [List.take_of_length_le (by simp), List.drop_of_length_le (by simp), List.nil_append, ih,
      bitsVal_bitsN_of_lt b.isLt, List.map_cons]

/-- HIST's loop when no count exceeds WMAX: every unit is counted (40_frequency_counter.md R160, R161). -/
theorem countUnits_ok (wm : Nat) : ∀ (k : Nat) (src : Source) (h : Vector Nat 257), src.rest.length ≤ k →
    (∀ x : Sym, rdSym h x + (units src.rest).count x.val ≤ wm) →
    ∃ h', countUnits wm k src h = (src.advance (8 * (units src.rest).length), h', none) ∧
      ∀ x : Sym, rdSym h' x = rdSym h x + (units src.rest).count x.val := by
  intro k
  induction k with
  | zero =>
    intro src h hk _
    have : units src.rest = [] := units_short (by omega)
    exact ⟨h, by simp [countUnits, this], by simp [this]⟩
  | succ k ih =>
    intro src h hk hle
    by_cases h8 : src.rest.length < 8
    · have hu : units src.rest = [] := units_short h8
      exact ⟨h, by simp [countUnits, srcRead_of_lt src h8, hu], by simp [hu]⟩
    · have hu := units_long (bs := src.rest) (by omega)
      have hr := srcRead_of_le (n := 8) src (by omega) (by omega)
      have hlt : bitsVal (src.rest.take 8) < 256 := units_lt src.rest _ (by rw [hu]; simp)
      have hv := unitSym_val hlt
      generalize hw : bitsVal (src.rest.take 8) = u at *
      have hne : rdSym h (unitSym u) ≠ wm := by
        have := hle (unitSym u)
        rw [hu, hv, List.count_cons_self] at this
        omega
      obtain ⟨h', he, hc⟩ := ih (src.advance 8) (wrSym h (unitSym u) (rdSym h (unitSym u) + 1))
        (by rw [Source.rest_advance, List.length_drop]; omega)
        (by
          intro x
          have := hle x
          rw [hu, List.count_cons] at this
          rw [Source.rest_advance, rdSym_wrSym]
          split
          · next hx => subst hx; simp [hv] at this ⊢; omega
          · next hx =>
            have : u ≠ x.val := fun e => hx (Fin.ext (by rw [hv, e]))
            simp_all)
      refine ⟨h', ?_, ?_⟩
      · rw [countUnits, hr]
        simp only [hne, if_false]
        rw [he, hu, Source.rest_advance, Source.advance_advance, List.length_cons]
        congr 2; omega
      · intro x
        rw [hc x, Source.rest_advance, hu, List.count_cons, rdSym_wrSym]
        by_cases hx : unitSym u = x
        · subst hx; simp [hv]; omega
        · have : u ≠ x.val := fun e => hx (Fin.ext (by rw [hv, e]))
          simp [hx, this]

/-- HIST's loop when a count would exceed WMAX: it stops at that unit (40_frequency_counter.md R162). -/
theorem countUnits_overflow (wm : Nat) : ∀ (pre : List Nat) (k : Nat) (src : Source) (h : Vector Nat 257) (u : Nat)
    (post : List Nat), src.rest.length ≤ k → units src.rest = pre ++ u :: post →
    rdSym h (unitSym u) + pre.count u = wm → (∀ x : Sym, rdSym h x + pre.count x.val ≤ wm) →
    ∃ h', countUnits wm k src h = (src.advance (8 * (pre.length + 1)), h', some (unitSym u)) ∧
      ∀ x : Sym, rdSym h' x = rdSym h x + pre.count x.val := by
  intro pre
  induction pre with
  | nil =>
    intro k src h u post hk hus hw _
    have h8 : 8 ≤ src.rest.length := by
      rcases Nat.lt_or_ge src.rest.length 8 with hs | hs
      · rw [units_short hs] at hus; simp at hus
      · exact hs
    obtain ⟨m, rfl⟩ : ∃ m, k = m + 1 := ⟨k - 1, by omega⟩
    rw [units_long h8] at hus
    simp only [List.nil_append, List.cons.injEq] at hus
    refine ⟨h, ?_, by simp⟩
    rw [countUnits, srcRead_of_le src (by omega) h8, hus.1]
    simp at hw
    simp [hw]
  | cons p pre ih =>
    intro k src h u post hk hus hw hle
    have h8 : 8 ≤ src.rest.length := by
      rcases Nat.lt_or_ge src.rest.length 8 with hs | hs
      · rw [units_short hs] at hus; simp at hus
      · exact hs
    obtain ⟨m, rfl⟩ : ∃ m, k = m + 1 := ⟨k - 1, by omega⟩
    have hp : p < 256 := units_lt src.rest p (by rw [hus]; simp)
    have hv := unitSym_val hp
    have hulong := units_long h8
    rw [hulong] at hus
    simp only [List.cons_append, List.cons.injEq] at hus
    have hne : rdSym h (unitSym p) ≠ wm := by
      have := hle (unitSym p)
      rw [hv, List.count_cons_self] at this
      omega
    have hu : u < 256 := units_lt src.rest u (by rw [hulong, hus.2]; simp)
    obtain ⟨h', he, hc⟩ := ih m (src.advance 8) (wrSym h (unitSym p) (rdSym h (unitSym p) + 1)) u post
      (by rw [Source.rest_advance, List.length_drop]; omega)
      (by rw [Source.rest_advance]; exact hus.2)
      (by
        rw [rdSym_wrSym]
        rw [List.count_cons] at hw
        by_cases hx : unitSym p = unitSym u
        · have : p = u := by rw [← hv, ← unitSym_val hu, hx]
          subst this; simp at hw ⊢; omega
        · have : p ≠ u := fun e => hx (by rw [e])
          simp [hx, this] at hw ⊢; omega)
      (by
        intro x
        have := hle x
        rw [List.count_cons] at this
        rw [rdSym_wrSym]
        by_cases hx : unitSym p = x
        · subst hx; simp [hv] at this ⊢; omega
        · have hpx : p ≠ x.val := fun e => hx (Fin.ext (by rw [hv, e]))
          simp [hx, hpx] at this ⊢; omega)
    refine ⟨h', ?_, ?_⟩
    · rw [countUnits, srcRead_of_le src (by omega) h8, hus.1]
      simp only [hne, if_false]
      rw [he, Source.advance_advance, List.length_cons]
      congr 2; omega
    · intro x
      rw [hc x, List.count_cons, rdSym_wrSym]
      by_cases hx : unitSym p = x
      · subst hx; simp [hv]; omega
      · have hpx : p ≠ x.val := fun e => hx (Fin.ext (by rw [hv, e]))
        simp [hx, hpx]

/-- ENCODE's loop when every unit has a code (44_encoder.md R241). -/
theorem encodeLoop_ok (code : Vector CodeEntry 257) : ∀ (k : Nat) (src : Source) (bits : List Bool),
    src.rest.length ≤ k → (∀ u ∈ units src.rest, (rdSym code (unitSym u)).valid = true) →
    encodeLoop code k src { bits := bits, closed := false } =
      .next { src := src.advance (8 * (units src.rest).length),
              snk := { bits := bits ++ (units src.rest).flatMap (fun u => codeString (rdSym code (unitSym u))),
                       closed := false },
              noCode := none } := by
  intro k
  induction k with
  | zero =>
    intro src bits hk _
    have : units src.rest = [] := units_short (by omega)
    simp [encodeLoop, this]
  | succ k ih =>
    intro src bits hk hv
    by_cases h8 : src.rest.length < 8
    · simp [encodeLoop, srcRead_of_lt src h8, units_short h8]
    · have hu := units_long (bs := src.rest) (by omega)
      rw [hu] at hv ⊢
      rw [encodeLoop, srcRead_of_le src (by omega) (by omega)]
      simp only [hv _ List.mem_cons_self, if_true, snkWrite_open]
      rw [ih (src.advance 8) _ (by rw [Source.rest_advance, List.length_drop]; omega)
        (by rw [Source.rest_advance]; intro u hu'; exact hv u (by simp [hu']))]
      simp only [Source.rest_advance, Source.advance_advance, List.length_cons, List.flatMap_cons,
        List.append_assoc, codeString]
      congr 3; omega

/-- ENCODE's loop at the first unit without a code (44_encoder.md R243). -/
theorem encodeLoop_noCode (code : Vector CodeEntry 257) : ∀ (pre : List Nat) (k : Nat) (src : Source)
    (bits : List Bool) (u : Nat) (post : List Nat), src.rest.length ≤ k → units src.rest = pre ++ u :: post →
    (∀ v ∈ pre, (rdSym code (unitSym v)).valid = true) → (rdSym code (unitSym u)).valid = false →
    encodeLoop code k src { bits := bits, closed := false } =
      .next { src := src.advance (8 * (pre.length + 1)),
              snk := { bits := bits ++ pre.flatMap (fun v => codeString (rdSym code (unitSym v))), closed := false },
              noCode := some (unitSym u) } := by
  intro pre
  induction pre with
  | nil =>
    intro k src bits u post hk hus _ hnv
    have h8 : 8 ≤ src.rest.length := by
      rcases Nat.lt_or_ge src.rest.length 8 with hs | hs
      · rw [units_short hs] at hus; simp at hus
      · exact hs
    obtain ⟨m, rfl⟩ : ∃ m, k = m + 1 := ⟨k - 1, by omega⟩
    rw [units_long h8] at hus
    simp only [List.nil_append, List.cons.injEq] at hus
    rw [encodeLoop, srcRead_of_le src (by omega) h8, hus.1]
    simp [hnv]
  | cons p pre ih =>
    intro k src bits u post hk hus hv hnv
    have h8 : 8 ≤ src.rest.length := by
      rcases Nat.lt_or_ge src.rest.length 8 with hs | hs
      · rw [units_short hs] at hus; simp at hus
      · exact hs
    obtain ⟨m, rfl⟩ : ∃ m, k = m + 1 := ⟨k - 1, by omega⟩
    rw [units_long h8] at hus
    simp only [List.cons_append, List.cons.injEq] at hus
    rw [encodeLoop, srcRead_of_le src (by omega) h8, hus.1]
    simp only [hv p (by simp), if_true, snkWrite_open]
    rw [ih m (src.advance 8) _ u post (by rw [Source.rest_advance, List.length_drop]; omega)
      (by rw [Source.rest_advance]; exact hus.2) (fun v hv' => hv v (by simp [hv'])) hnv]
    simp only [Source.advance_advance, List.length_cons, List.flatMap_cons, List.append_assoc, codeString]
    congr 3; omega

end Sys2Proof.Machine
end

