-- ==== Sys2Proof/Laws/Trees.lean ====
section
/-! SUPPORT. Laws of abstract trees and of the three walks over a node memory that holds one: GENCODE's, WRTREE's and
DECODE's (42_code_generator.md R192, 43_tree_serial.md R208, 45_decoder.md R255). -/

namespace Sys2Proof.Machine

/-! ### Shape -/

theorem Tree.size_eq (t : Tree) : t.size + 1 = 2 * t.syms.length := by
  induction t with
  | leaf s w => rfl
  | node w l r hl hr => simp only [Tree.size, Tree.syms, List.length_append]; omega

theorem Tree.ser_length (t : Tree) : t.ser.length + 1 = 11 * t.syms.length := by
  induction t with
  | leaf s w => simp [Tree.ser, Tree.syms]
  | node w l r hl hr => simp only [Tree.ser, Tree.syms, List.length_append, List.length_cons]; omega

theorem Tree.syms_pos (t : Tree) : 1 ≤ t.syms.length := by
  have := t.size_eq
  cases t <;> simp only [Tree.size] at this <;> omega

theorem nodup_le_257 {l : List Nat} (hle : ∀ s ∈ l, s ≤ 256) (hnd : l.Nodup) : l.length ≤ 257 := by
  have hsub : l ⊆ List.range 257 := fun s hs => List.mem_range.2 (by have := hle s hs; omega)
  simpa using (hnd.subperm hsub).length_le

/-- A valid tree has at most 257 leaves and so at most 513 nodes (00_scope.md R10). -/
theorem Tree.Valid.size_le {t : Tree} (h : t.Valid) : t.size ≤ 513 := by
  have h1 := nodup_le_257 h.1 h.2.1
  have h2 := t.size_eq
  omega

/-! ### The tree a node memory holds -/

/-- What `tree_of(i)` comes from: a leaf entry, or an internal entry and its two subtrees (10_state.md R43). -/
theorem treeAt_cases {k : Nat} {node : List Node} {i : Nat} {t : Tree} {is : List Nat}
    (h : treeAt k node i = some (t, is)) :
    ∃ m n, k = m + 1 ∧ nodeNat node i = some n ∧
      ((n.leaf = true ∧ t = .leaf n.sym n.weight ∧ is = [i]) ∨
       (n.leaf = false ∧ ∃ l r ls rs, treeAt m node n.left.toNat = some (l, ls) ∧
          treeAt m node n.right.toNat = some (r, rs) ∧ t = .node n.weight l r ∧ is = i :: (ls ++ rs))) := by
  cases k with
  | zero => simp [treeAt] at h
  | succ m =>
    rw [treeAt] at h
    cases hn : nodeNat node i with
    | none => simp [hn] at h
    | some n =>
      refine ⟨m, n, rfl, rfl, ?_⟩
      rw [hn] at h
      cases hl : n.leaf with
      | true => simp [hl] at h; left; simp [h]
      | false =>
        simp only [hl] at h
        right
        refine ⟨rfl, ?_⟩
        cases h1 : treeAt m node n.left.toNat with
        | none => simp [h1] at h
        | some a =>
          cases h2 : treeAt m node n.right.toNat with
          | none => simp [h1, h2] at h
          | some b =>
            simp [h1, h2] at h
            exact ⟨a.1, b.1, a.2, b.2, rfl, rfl, h.1.symm, h.2.symm⟩

theorem treeOf_eq_some {node : List Node} {i : Nat} {t : Tree} :
    treeOf node i = some t ↔ ∃ is, treeAt maxNodes node i = some (t, is) := by
  simp [treeOf]

/-! ### WRTREE's walk -/

/-- The walk over a subtree writes its serialization and then goes on with the rest of the stack. -/
theorem serLoop_subtree {node : List Node} (t : Tree) : ∀ (k i : Nat) (is : List Nat) (e : StkEntry) (f : Nat)
    (stk : List StkEntry) (bits : List Bool), treeAt k node i = some (t, is) → e.idx = i →
    serLoop node (t.size + f) (e :: stk) { bits := bits, closed := false } =
      serLoop node f stk { bits := bits ++ t.ser, closed := false } := by
  induction t with
  | leaf s w =>
    intro k i is e f stk bits h he
    obtain ⟨m, n, -, hn, ⟨hl, ht, -⟩ | ⟨-, l, r, ls, rs, -, -, ht, -⟩⟩ := treeAt_cases h
    · cases ht
      rw [Tree.size, Nat.add_comm, serLoop, he, hn]
      simp only [hl, if_true, snkWrite_open, bindOut_next]
      simp [Tree.ser, bitsN]
    · cases ht
  | node w l r ihl ihr =>
    intro k i is e f stk bits h he
    obtain ⟨m, n, -, hn, ⟨-, ht, -⟩ | ⟨hl, l', r', ls, rs, h1, h2, ht, -⟩⟩ := treeAt_cases h
    · cases ht
    · cases ht
      rw [show (Tree.node n.weight l r).size + f = (l.size + (r.size + f)) + 1 by simp only [Tree.size]; omega,
        serLoop, he, hn]
      simp only [hl, Bool.false_eq_true, if_false, snkWrite_open]
      rw [ihl m _ ls _ _ _ _ h1 rfl, ihr m _ rs _ _ _ _ h2 rfl]
      simp [Tree.ser, bitsN]

/-! ### GENCODE's walk -/

/-- The code table after the walk over a subtree that stands at depth `len` with path number `num`. -/
def Tree.fill : Tree → Nat → Nat → Vector CodeEntry 257 → Vector CodeEntry 257
  | .leaf s _, len, num, code =>
    match symOf s with
    | some x => wrSym code x (codeEntry len num)
    | none => code
  | .node _ l r, len, num, code => r.fill (len + 1) (2 * num + 1) (l.fill (len + 1) (2 * num) code)

/-- The walk over a subtree fills its codes in and then goes on with the rest of the stack. -/
theorem genLoop_subtree {node : List Node} (t : Tree) : ∀ (k i : Nat) (is : List Nat) (e : StkEntry) (f : Nat)
    (stk : List StkEntry) (code : Vector CodeEntry 257), treeAt k node i = some (t, is) → e.idx = i →
    (∀ s ∈ t.syms, s ≤ 256) →
    genLoop node (t.size + f) (e :: stk) code = genLoop node f stk (t.fill e.len e.num code) := by
  induction t with
  | leaf s w =>
    intro k i is e f stk code h he hs
    obtain ⟨m, n, -, hn, ⟨hl, ht, -⟩ | ⟨-, l, r, ls, rs, -, -, ht, -⟩⟩ := treeAt_cases h
    · cases ht
      have hx : symOf n.sym ≠ none := by
        have := hs n.sym.toNat (by simp [Tree.syms])
        rw [Ne, symOf_eq_none]; omega
      rw [Tree.size, Nat.add_comm, genLoop, he, hn]
      cases hc : symOf n.sym with
      | none => exact absurd hc hx
      | some x => simp [hl, Tree.fill, hc]
    · cases ht
  | node w l r ihl ihr =>
    intro k i is e f stk code h he hs
    obtain ⟨m, n, -, hn, ⟨-, ht, -⟩ | ⟨hl, l', r', ls, rs, h1, h2, ht, -⟩⟩ := treeAt_cases h
    · cases ht
    · cases ht
      rw [show (Tree.node n.weight l r).size + f = (l.size + (r.size + f)) + 1 by simp only [Tree.size]; omega,
        genLoop, he, hn]
      simp only [hl, Bool.false_eq_true, if_false]
      rw [ihl m _ ls _ _ _ _ h1 rfl (fun s h => hs s (by simp [Tree.syms, h])),
        ihr m _ rs _ _ _ _ h2 rfl (fun s h => hs s (by simp [Tree.syms, h]))]
      rfl

theorem Tree.codes_map_fst (t : Tree) : ∀ p, (t.codes p).map Prod.fst = t.syms := by
  induction t with
  | leaf s w => intro p; rfl
  | node w l r hl hr => intro p; simp [Tree.codes, Tree.syms, hl, hr]

/-- What the filled table holds: the entry of each leaf symbol is its path, every other entry is as before. -/
theorem Tree.rdSym_fill (t : Tree) : ∀ (p : List Bool) (code : Vector CodeEntry 257) (x : Sym), t.syms.Nodup →
    rdSym (t.fill p.length (bitsVal p) code) x =
      match ((t.codes p).find? (fun q => q.1 == x.val)).map Prod.snd with
      | some q => codeEntry q.length (bitsVal q)
      | none => rdSym code x := by
  induction t with
  | leaf s w =>
    intro p code x _
    simp only [Tree.fill, Tree.codes]
    by_cases h : s.toNat = x.val
    · have : symOf s = some x := by
        have hx := x.isLt
        simp only [symOf]
        rw [dif_pos (by omega)]
        exact congrArg some (Fin.ext h)
      simp [this, h]
    · have hne : ∀ y, symOf s = some y → y ≠ x := by
        intro y hy e
        apply h
        simp only [symOf] at hy
        split at hy
        · rw [← e]; simp only [Option.some.injEq] at hy; rw [← hy]
        · cases hy
      have h' : (s.toNat == x.val) = false := by simpa using h
      simp only [List.find?_cons, h', List.find?_nil, Option.map_none]
      cases hc : symOf s with
      | none => rfl
      | some y => exact rdSym_wrSym_ne _ _ (hne y hc)
  | node w l r ihl ihr =>
    intro p code x hnd
    rw [Tree.syms, List.nodup_append] at hnd
    have e0 : bitsVal (p ++ [false]) = 2 * bitsVal p := by simp [bitsVal_append, bitsVal]; ring
    have e1 : bitsVal (p ++ [true]) = 2 * bitsVal p + 1 := by simp [bitsVal_append, bitsVal]; ring
    have hl := ihl (p ++ [false]) code x hnd.1
    have hr := ihr (p ++ [true]) (l.fill (p.length + 1) (2 * bitsVal p) code) x hnd.2.1
    rw [e0] at hl
    rw [e1] at hr
    simp only [List.length_append, List.length_cons, List.length_nil, Nat.zero_add] at hl hr
    simp only [Tree.fill, Tree.codes, List.find?_append]
    rw [hr, hl]
    cases hfl : (l.codes (p ++ [false])).find? (fun q => q.1 == x.val) with
    | none => simp
    | some a =>
      have hal : a.1 ∈ l.syms := by
        rw [← Tree.codes_map_fst l (p ++ [false])]
        exact List.mem_map_of_mem (List.mem_of_find?_eq_some hfl)
      have hax : a.1 = x.val := by simpa using List.find?_some hfl
      cases hfr : (r.codes (p ++ [true])).find? (fun q => q.1 == x.val) with
      | none => simp
      | some b =>
        have hbr : b.1 ∈ r.syms := by
          rw [← Tree.codes_map_fst r (p ++ [true])]
          exact List.mem_map_of_mem (List.mem_of_find?_eq_some hfr)
        have hbx : b.1 = x.val := by simpa using List.find?_some hfr
        exact absurd (hax.trans hbx.symm) (hnd.2.2 _ hal _ hbr)

/-- Every path of a subtree begins with the path to it and has one step for each level below. -/
theorem Tree.codes_suffix (t : Tree) : ∀ p c, c ∈ t.codes p → ∃ q, c.2 = p ++ q ∧ q.length < t.syms.length := by
  induction t with
  | leaf s w => intro p c h; simp [Tree.codes] at h; exact ⟨[], by simp [h, Tree.syms]⟩
  | node w l r hl hr =>
    intro p c h
    have h1 := l.syms_pos
    have h2 := r.syms_pos
    rcases List.mem_append.1 h with h | h
    · obtain ⟨q, e, hq⟩ := hl _ _ h
      exact ⟨false :: q, by simp [e], by simp [Tree.syms]; omega⟩
    · obtain ⟨q, e, hq⟩ := hr _ _ h
      exact ⟨true :: q, by simp [e], by simp [Tree.syms]; omega⟩

/-! ### DECODE's walk -/

/-- One emission or descent at a time, DECODE's loop follows the automaton of 45_decoder.md R264 from any internal node of
the tree, and its read bound is never reached. -/
theorem decodeLoop_walk {node : List Node} {root : Idx} {tr : Tree} {K : Nat} {rootIs : List Nat}
    (hroot : treeAt K node root.toNat = some (tr, rootIs)) (hnl : tr.isLeaf = false) :
    ∀ (f : Nat) (src : Source) (cur : Idx) (bits : List Bool) (sub : Tree) (k : Nat) (is : List Nat)
      (out : List Nat), src.rest.length < f → treeAt k node cur.toNat = some (sub, is) → sub.isLeaf = false →
    match tr.walk sub src.rest out with
    | .done o rest => ∃ c n more, o = out ++ more ∧ decodeLoop node root f src cur { bits := bits, closed := false } =
        .next { src := src.advance (src.rest.length - rest.length), cur := c,
                snk := { bits := bits ++ more.flatMap (bitsN 8), closed := false }, truncated := false } ∧
        rest.length ≤ src.rest.length ∧ nodeAt node c = some n ∧ n.leaf = true ∧ n.sym.toNat = 256
    | .truncated o => ∃ c n more, o = out ++ more ∧
        decodeLoop node root f src cur { bits := bits, closed := false } =
          .next { src := src.advance src.rest.length, cur := c,
                  snk := { bits := bits ++ more.flatMap (bitsN 8), closed := false }, truncated := true } ∧
        nodeAt node c = some n ∧ n.leaf = false := by
  intro f
  induction f with
  | zero => intro src cur bits sub k is out hf; omega
  | succ f ih =>
    intro src cur bits sub k is out hf hsub hsl
    obtain ⟨m, n, -, hn, ⟨-, ht, -⟩ | ⟨hl, l, r, ls, rs, h1, h2, ht, -⟩⟩ := treeAt_cases hsub
    · rw [ht] at hsl; simp [Tree.isLeaf] at hsl
    subst ht
    cases hb : src.rest with
    | nil =>
      simp only [Tree.walk]
      refine ⟨cur, n, [], by simp, ?_, by simpa [nodeAt] using hn, hl⟩
      rw [decodeLoop, srcRead_of_lt src (by simp [hb])]
      simp
    | cons b bs =>
      have hlen : 1 ≤ src.rest.length := by simp [hb]
      have hrd : srcRead 1 src = some (b.toNat, src.advance 1) := by
        rw [srcRead_of_le src (by omega) hlen, hb]
        cases b <;> simp [bitsVal]
      have hrest : (src.advance 1).rest = bs := by simp [hb]
      have hcur : nodeAt node cur = some n := hn
      rw [decodeLoop, hrd]
      simp only [hcur]
      simp only [Tree.walk]
      -- the child the bit selects
      obtain ⟨c, ch, cs, hsel, hch, hdir⟩ : ∃ c ch cs, (if b.toNat = 0 then n.left else n.right) = c ∧
          treeAt m node c.toNat = some (ch, cs) ∧ (if b = true then r else l) = ch := by
        cases b
        · exact ⟨n.left, l, ls, by simp, h1, by simp⟩
        · exact ⟨n.right, r, rs, by simp, h2, by simp⟩
      rw [hsel, hdir]
      have hfl : bs.length < f := by rw [hb] at hf; simp at hf; omega
      obtain ⟨m', n', -, hn', ⟨hl', ht', -⟩ | ⟨hl', l', r', ls', rs', h1', h2', ht', -⟩⟩ := treeAt_cases hch
      · subst ht'
        have hc' : nodeAt node c = some n' := hn'
        simp only [hc', hl', if_true]
        by_cases h256 : n'.sym.toNat = 256
        · simp only [h256, if_true]
          exact ⟨c, n', [], by simp, by simp, by simp, hc', hl', h256⟩
        · simp only [h256, if_false, snkWrite_open]
          have := ih (src.advance 1) root (bits ++ bitsN 8 n'.sym.toNat) tr K rootIs (out ++ [n'.sym.toNat])
            (by rw [hrest]; exact hfl) hroot hnl
          rw [hrest] at this
          revert this
          cases tr.walk tr bs (out ++ [n'.sym.toNat]) with
          | done o rest =>
            rintro ⟨c2, n2, more, ho, hd, hle, hx⟩
            refine ⟨c2, n2, n'.sym.toNat :: more, by simp [ho], ?_, by simp; omega, hx⟩
            rw [hd]
            simp only [Source.advance_advance, List.flatMap_cons, List.append_assoc, List.length_cons]
            congr 3; omega
          | truncated o =>
            rintro ⟨c2, n2, more, ho, hd, hx⟩
            refine ⟨c2, n2, n'.sym.toNat :: more, by simp [ho], ?_, hx⟩
            rw [hd]
            simp only [Source.advance_advance, List.flatMap_cons, List.append_assoc, List.length_cons]
            congr 3; omega
      · subst ht'
        have hc' : nodeAt node c = some n' := hn'
        simp only [hc', hl', Bool.false_eq_true, if_false]
        have := ih (src.advance 1) c bits (.node n'.weight l' r') m cs out (by rw [hrest]; exact hfl) hch rfl
        rw [hrest] at this
        revert this
        cases tr.walk (.node n'.weight l' r') bs out with
        | done o rest =>
          rintro ⟨c2, n2, more, ho, hd, hle, hx⟩
          refine ⟨c2, n2, more, ho, ?_, by simp; omega, hx⟩
          rw [hd]
          simp only [Source.advance_advance, List.length_cons]
          congr 3; omega
        | truncated o =>
          rintro ⟨c2, n2, more, ho, hd, hx⟩
          refine ⟨c2, n2, more, ho, ?_, hx⟩
          rw [hd]
          simp only [Source.advance_advance, List.length_cons]
          congr 3; omega

end Sys2Proof.Machine
end

