-- ==== Sys2Proof/Laws/Deserializer.lean ====
section
/-! SUPPORT. Reading tokens (43_tree_serial.md R214): the token fetch is `SrcRead(1)` and, after a 1, `SrcRead(9)`; and
the passes of RDTREE over the serialization of a subtree store that subtree in preorder (R220). -/

namespace Sys2Proof.Machine

/-! ### The token fetch -/

/-- The token fetch, with the stream calls of 43_tree_serial.md R214 written out. -/
theorem readToken_eq_srcReads (src : Source) :
    readToken src =
      match srcRead 1 src with
      | none => .error src
      | some (b, src1) =>
        if b = 0 then .ok (.treeInternal, src1)
        else
          match srcRead 9 src1 with
          | none => .error src1
          | some (v, src2) => .ok (.treeLeaf (BitVec.ofNat 9 v), src2) := by
  cases h : src.rest with
  | nil => rw [srcRead_of_lt src (by simp [h])]; simp [readToken, decode, decodeToken, h]
  | cons b bs =>
    rw [srcRead_of_le src (by omega) (by simp [h])]
    cases b with
    | false => simp [readToken, decode, decodeToken, h, bitsVal, encode]
    | true =>
      have hr : (src.advance 1).rest = bs := by simp [h]
      simp only [readToken, decode, decodeToken, h, List.take_succ_cons, List.take_zero, bitsVal]
      simp only [Bool.toNat_true, List.length_nil, pow_zero, Nat.mul_one, Nat.add_zero, Nat.one_ne_zero, if_false]
      by_cases h9 : bs.length < 9
      · rw [if_pos h9, srcRead_of_lt (src.advance 1) (by rw [hr]; exact h9)]
      · rw [if_neg h9, srcRead_of_le (src.advance 1) (by omega) (by rw [hr]; omega), hr]
        simp [encode]

theorem readToken_internal {src : Source} {bs : List Bool} (h : src.rest = false :: bs) :
    readToken src = .ok (.treeInternal, src.advance 1) := by
  simp [readToken, decode, decodeToken, h, encode]

theorem readToken_leaf {src : Source} {x : Sym} {bs : List Bool}
    (h : src.rest = true :: (bitsN 9 x.val ++ bs)) :
    readToken src = .ok (.treeLeaf (symField x), src.advance 10) := by
  have hx := x.isLt
  have : BitVec.ofNat 9 (x.val % 512) = symField x := by rw [Nat.mod_eq_of_lt (by omega)]; rfl
  simp [readToken, decode, decodeToken, h, encode, this]

/-! ### What the passes over a subtree store -/

/-- The node entries of a tree stored in preorder from index n on (43_tree_serial.md R220). -/
def Tree.layout : Tree → Nat → List Node
  | .leaf s w, _ => [leafNode s w]
  | .node w l r, n =>
    internalNode (BitVec.ofNat 10 (n + 1)) (BitVec.ofNat 10 (n + 1 + l.size)) w
      :: (l.layout (n + 1) ++ r.layout (n + 1 + l.size))

/-- The symbols a subtree marks as seen. -/
def Tree.mark : Tree → Vector Bool 257 → Vector Bool 257
  | .leaf s _, seen =>
    match symOf s with
    | some x => wrSym seen x true
    | none => seen
  | .node _ l r, seen => r.mark (l.mark seen)

/-- The number of internal nodes of a tree. -/
def Tree.internals : Tree → Nat
  | .leaf _ _ => 0
  | .node _ l r => 1 + l.internals + r.internals

theorem Tree.layout_length (t : Tree) : ∀ n, (t.layout n).length = t.size := by
  induction t with
  | leaf s w => intro n; rfl
  | node w l r hl hr => intro n; simp [Tree.layout, Tree.size, hl, hr]; omega

theorem linkNode_length (link : Option (Nat × Side)) (n : Nat) (node : List Node) :
    (linkNode link n node).length = node.length := by
  match link with
  | none => rfl
  | some (p, .left) => simp [linkNode]
  | some (p, .right) => simp [linkNode]

theorem modify_append {α : Type} (f : α → α) (more : List α) : ∀ (l : List α) (p : Nat), p < l.length →
    (l ++ more).modify p f = l.modify p f ++ more := by
  intro l
  induction l with
  | nil => intro p h; simp at h
  | cons a l ih =>
    intro p h
    cases p with
    | zero => simp
    | succ p => simp [ih p (by simpa using h)]

theorem modify_length {α : Type} (f : α → α) (x : α) (more : List α) : ∀ (l : List α),
    (l ++ x :: more).modify l.length f = l ++ f x :: more := by
  intro l
  induction l with
  | nil => simp
  | cons a l ih => simp [ih]

theorem linkNode_append {link : Option (Nat × Side)} {n : Nat} {node more : List Node}
    (h : ∀ p sd, link = some (p, sd) → p < node.length) :
    linkNode link n (node ++ more) = linkNode link n node ++ more := by
  match link, h with
  | none, _ => rfl
  | some (p, .left), h => simp only [linkNode, modify_append _ _ _ _ (h p .left rfl)]
  | some (p, .right), h => simp only [linkNode, modify_append _ _ _ _ (h p .right rfl)]

theorem linkNode_left {N : List Node} {n m : Nat} {y z : Idx} {w : Nat} (h : N.length = n) :
    linkNode (some (n, .left)) m (N ++ [internalNode y z w]) = N ++ [internalNode (BitVec.ofNat 10 m) z w] := by
  subst h
  exact modify_length _ _ _ N

theorem linkNode_right {N L : List Node} {n m : Nat} {y z : Idx} {w : Nat} (h : N.length = n) :
    linkNode (some (n, .right)) m (N ++ internalNode y z w :: L) =
      N ++ internalNode y (BitVec.ofNat 10 m) w :: L := by
  subst h
  exact modify_length _ _ _ N

theorem Tree.unweighted_size (t : Tree) : t.unweighted.size = t.size := by
  induction t with
  | leaf s w => rfl
  | node w l r hl hr => simp only [Tree.unweighted, Tree.size, hl, hr]

theorem symOf_eq_some {f : BitVec 9} {x : Sym} (h : symOf f = some x) : f.toNat = x.val := by
  unfold symOf at h
  split at h
  · simp only [Option.some.injEq] at h; rw [← h]
  · cases h

/-- Marking leaves every symbol that is not in the tree as it was. -/
theorem Tree.rdSym_mark (t : Tree) : ∀ (seen : Vector Bool 257) (x : Sym), x.val ∉ t.syms →
    rdSym (t.mark seen) x = rdSym seen x := by
  induction t with
  | leaf sy w =>
    intro seen x hx
    simp only [Tree.mark]
    cases hc : symOf sy with
    | none => rfl
    | some y =>
      exact rdSym_wrSym_ne _ _ (fun e => hx (by simp [Tree.syms, symOf_eq_some hc, e]))
  | node w l r hl hr =>
    intro seen x hx
    simp only [Tree.syms, List.mem_append, not_or] at hx
    simp only [Tree.mark, hr _ _ hx.2, hl _ _ hx.1]

/-- Marking marks every symbol of the tree. -/
theorem Tree.rdSym_mark_mem (t : Tree) : ∀ (seen : Vector Bool 257) (x : Sym), x.val ∈ t.syms →
    rdSym (t.mark seen) x = true := by
  induction t with
  | leaf sy w =>
    intro seen x hx
    simp only [Tree.syms, List.mem_singleton] at hx
    have hlt := x.isLt
    have : symOf sy = some x := by
      simp only [symOf]
      rw [dif_pos (by omega)]
      exact congrArg some (Fin.ext hx.symm)
    simp [Tree.mark, this]
  | node w l r hl hr =>
    intro seen x hx
    simp only [Tree.mark]
    by_cases h : x.val ∈ r.syms
    · exact hr _ _ h
    · rw [Tree.rdSym_mark r _ x h]
      exact hl _ _ (by simpa [Tree.syms, h] using hx)

/-- The waiting parent does not matter once a leaf has been stored: it is set anew. -/
theorem afterLeaf_link (link link' : Option (Nat × Side)) (s : State) :
    afterLeaf { s with hidden := { s.hidden with link := link } } =
      afterLeaf { s with hidden := { s.hidden with link := link' } } := by
  cases h : s.hidden.stk with
  | nil => simp only [afterLeaf, h, finishTree, failTree, raise, loseTree]
  | cons e stk => simp only [afterLeaf, h]

/-- The passes of RDTREE over the serialization of a subtree, whose symbols are new and which the counter of internal nodes
has room for: the subtree is stored in preorder and hung under the waiting parent, its symbols are marked, and the
parse goes on as after a leaf (43_tree_serial.md R213, R214, R220). -/
theorem treeLoop_subtree (t : Tree) : ∀ (s : State) (f : Nat) (more : List Bool), s.seqr = .inTree →
    s.src.rest = t.ser ++ more → (∀ x ∈ t.syms, x ≤ 256) → t.syms.Nodup →
    (∀ x : Sym, x.val ∈ t.syms → rdSym s.hidden.seen x = false) → s.hidden.ni + t.internals ≤ 256 →
    (∀ p sd, s.hidden.link = some (p, sd) → p < s.node.length) →
    treeLoop (t.size + f) s = treeLoop f (afterLeaf
      { s with
        src := s.src.advance t.ser.length,
        node := linkNode s.hidden.link s.node.length s.node ++ t.unweighted.layout s.node.length,
        hidden := { s.hidden with seen := t.mark s.hidden.seen, ni := s.hidden.ni + t.internals,
                                  link := none } }) := by
  induction t with
  | leaf sy w =>
    intro s f more hq hr hle _ hseen _ hlink
    obtain ⟨x, hx⟩ : ∃ x : Sym, sy = symField x := by
      have := hle sy.toNat (by simp [Tree.syms])
      exact ⟨⟨sy.toNat, by omega⟩, by simp [symField]⟩
    subst hx
    have hs := hseen x (by simp [Tree.syms, symField_toNat])
    simp only [Tree.ser, symField_toNat, List.cons_append] at hr
    have hp : treePass s = storeLeaf x { s with src := s.src.advance 10 } := by
      simp only [treePass, readToken_leaf hr, treeLeaf, symOf_symField, hs, Bool.false_eq_true, if_false]
    rw [Tree.size, Nat.add_comm, treeLoop, hq]
    simp only [hp]
    congr 1
    simp only [storeLeaf, storeNode]
    rw [linkNode_append hlink]
    simp only [Tree.ser, Tree.unweighted, Tree.layout, Tree.mark, Tree.internals, symOf_symField, Nat.add_zero,
      List.length_cons, bitsN_length]
    simp only [hq]
    exact afterLeaf_link s.hidden.link none
      { s with
        seqr := .inTree, src := s.src.advance 10,
        node := linkNode s.hidden.link s.node.length s.node ++ [leafNode (symField x) 0],
        hidden := { s.hidden with seen := wrSym s.hidden.seen x true } }
  | node w l r ihl ihr =>
    intro s f more hq hr hle hnd hseen hni hlink
    simp only [Tree.syms, List.mem_append, List.nodup_append] at hle hnd hseen
    simp only [Tree.internals] at hni
    simp only [Tree.ser, List.cons_append] at hr
    have hp : treePass s = treeInternal { s with src := s.src.advance 1 } := by
      simp only [treePass, readToken_internal hr]
    have hni' : s.hidden.ni ≠ 256 := by omega
    rw [show (Tree.node w l r).size + f = (l.size + (r.size + f)) + 1 by simp only [Tree.size]; omega,
      treeLoop, hq]
    simp only [hp, treeInternal, hni', if_false, storeNode]
    rw [linkNode_append hlink]
    have hN := linkNode_length s.hidden.link s.node.length s.node
    generalize linkNode s.hidden.link s.node.length s.node = N at hN ⊢
    have hN1 : (N ++ [internalNode idxNil idxNil 0]).length = s.node.length + 1 := by simp [hN]
    -- the left subtree, and the right child of node n next
    have h1 := ihl
      { s with
        src := s.src.advance 1,
        node := N ++ [internalNode idxNil idxNil 0],
        hidden := { s.hidden with ni := s.hidden.ni + 1, stk := { idx := s.node.length } :: s.hidden.stk,
                                  link := some (s.node.length, .left) } }
      (r.size + f) (r.ser ++ more) hq (by simp [hr, List.append_assoc]) (fun x hx => hle x (Or.inl hx)) hnd.1
      (fun x hx => hseen x (Or.inl hx)) (by simp only; omega)
      (by simp only [Option.some.injEq, Prod.mk.injEq]; rintro p sd ⟨rfl, -⟩; simp [hN])
    simp only [hN1, linkNode_left hN] at h1
    -- the right subtree
    have hN2 : (N ++ [internalNode (BitVec.ofNat 10 (s.node.length + 1)) idxNil 0] ++
        l.unweighted.layout (s.node.length + 1)).length = s.node.length + 1 + l.size := by
      simp only [List.length_append, List.length_singleton, hN, Tree.layout_length, Tree.unweighted_size]
    have h2 := ihr
      { s with
        src := (s.src.advance 1).advance l.ser.length,
        node := N ++ [internalNode (BitVec.ofNat 10 (s.node.length + 1)) idxNil 0] ++
          l.unweighted.layout (s.node.length + 1),
        hidden := { s.hidden with seen := l.mark s.hidden.seen, ni := s.hidden.ni + 1 + l.internals,
                                  link := some (s.node.length, .right) } }
      f more hq
      (by
        simp only [Source.rest_advance, hr, List.append_assoc]
        rw [List.drop_succ_cons, List.drop_zero, List.drop_left])
      (fun x hx => hle x (Or.inr hx)) hnd.2.1
      (fun x hx => by
        simp only
        rw [Tree.rdSym_mark l _ x (fun hl => hnd.2.2 _ hl _ hx rfl)]; exact hseen x (Or.inr hx))
      (by simp only; omega)
      (by
        simp only [Option.some.injEq, Prod.mk.injEq]; rintro p sd ⟨rfl, -⟩
        rw [hN2]; omega)
    simp only [hN2] at h2
    simp only [hq] at h1 h2 ⊢
    refine (h1.trans h2).trans ?_
    have e1 : s.hidden.ni + 1 + l.internals + r.internals = s.hidden.ni + (Tree.node w l r).internals := by
      simp only [Tree.internals]; omega
    have e2 : ((s.src.advance 1).advance l.ser.length).advance r.ser.length =
        s.src.advance (Tree.node w l r).ser.length := by
      simp only [Source.advance_advance, Tree.ser, List.length_cons, List.length_append]
      congr 1; omega
    have e3 : linkNode (some (s.node.length, .right)) (s.node.length + 1 + l.size)
          (N ++ [internalNode (BitVec.ofNat 10 (s.node.length + 1)) idxNil 0] ++
            l.unweighted.layout (s.node.length + 1)) ++
          r.unweighted.layout (s.node.length + 1 + l.size) =
        N ++ (Tree.node w l r).unweighted.layout s.node.length := by
      simp only [List.append_assoc, List.nil_append, linkNode_right hN, Tree.unweighted, Tree.layout,
        Tree.unweighted_size, List.cons_append]
    rw [e1, e2, e3]
    rfl

end Sys2Proof.Machine
end

