-- ==== Sys2Proof/Laws/Memory.lean ====
section
/-! SUPPORT. The form of the memories (`Memory.wf`): it holds at reset, and every operation on a memory keeps it
(00_scope.md R15, 10_state.md R42, R45). -/

namespace Sys2Proof.Machine

theorem wmax_lt (p : Params) : wmax p < 2 ^ p.wbits := Nat.sub_lt (Nat.two_pow_pos _) Nat.one_pos

theorem mod_le_wmax (p : Params) (v : Nat) : v % 2 ^ p.wbits ≤ wmax p :=
  Nat.le_sub_one_of_lt (Nat.mod_lt _ (Nat.two_pow_pos _))

/-- The form is about HIST, NODE and the configuration only. -/
theorem Memory.wf_congr {s t : State} (hh : t.hist = s.hist) (hn : t.node = s.node) (hc : t.cfg = s.cfg) :
    Memory.wf t ↔ Memory.wf s := by
  simp only [Memory.wf, hh, hn, hc]

/-- A histogram of zeros fits. -/
theorem Memory.wf_cleared (s : State) : Memory.wf { s with hist := Vector.replicate 257 0, node := [] } := by
  simp [Memory.wf]

theorem Memory.wf_resetBlock (s : State) : Memory.wf (resetBlock s) := by
  simp [Memory.wf, resetBlock, State.reset]

/-- Writing a histogram entry that fits. -/
theorem Memory.wf_wrHist {s : State} (h : Memory.wf s) (x : Sym) {v : Nat} (hv : v ≤ wmax s.cfg) :
    Memory.wf { s with hist := wrSym s.hist x v } := by
  refine ⟨fun y => ?_, h.2⟩
  simp only [rdSym_wrSym]
  split
  · exact hv
  · exact h.1 y

theorem Memory.wf_hostWrite {s : State} (h : Memory.wf s) (addr : BitVec 12) (v : Nat) :
    Memory.wf (hostWrite addr v s) := by
  unfold hostWrite
  simp only
  split
  · exact Memory.wf_wrHist h _ (mod_le_wmax _ _)
  · exact h

theorem Memory.wf_raise {s : State} (h : Memory.wf s) (e : ErrKind) (info : Nat) : Memory.wf (raise e info s) := h

theorem Memory.wf_clearError {s : State} (h : Memory.wf s) : Memory.wf (clearError s) := h

theorem Memory.wf_dropTree {s : State} (h : Memory.wf s) : Memory.wf (dropTree s) := h

theorem Memory.wf_failTree {s : State} (h : Memory.wf s) (e : ErrKind) (info : Nat) : Memory.wf (failTree e info s) := by
  refine ⟨h.1, ?_, ?_⟩
  · simp [failTree, loseTree]
  · simp [failTree, loseTree]

/-- Hanging a node under another changes no weight. -/
theorem linkNode_weights {link : Option (Nat × Side)} {n : Nat} {node : List Node} {b : Nat}
    (h : ∀ x ∈ node, x.weight ≤ b) : ∀ x ∈ linkNode link n node, x.weight ≤ b := by
  have key : ∀ (f : Node → Node), (∀ x, (f x).weight = x.weight) → ∀ (l : List Node) (p : Nat),
      (∀ x ∈ l, x.weight ≤ b) → ∀ x ∈ l.modify p f, x.weight ≤ b := by
    intro f hf l
    induction l with
    | nil => intro p _ x hx; simp at hx
    | cons a l ih =>
      intro p hl x hx
      cases p with
      | zero =>
        simp only [List.modify_zero_cons, List.mem_cons] at hx
        obtain rfl | hx := hx
        · rw [hf]; exact hl a (by simp)
        · exact hl x (by simp [hx])
      | succ p =>
        simp only [List.modify_succ_cons, List.mem_cons] at hx
        obtain rfl | hx := hx
        · exact hl x (by simp)
        · exact ih p (fun y hy => hl y (by simp [hy])) x hx
  match link with
  | none => exact h
  | some (p, .left) => exact key _ (by simp) node p h
  | some (p, .right) => exact key _ (by simp) node p h

/-- Storing a node that fits while there is room. -/
theorem Memory.wf_storeNode {s : State} (h : Memory.wf s) {x : Node} (hx : x.weight ≤ wmax s.cfg)
    (hroom : s.node.length < maxNodes) : Memory.wf (storeNode x s) := by
  refine ⟨h.1, ?_, ?_⟩
  · refine linkNode_weights (fun y hy => ?_)
    simp only [List.mem_append, List.mem_singleton] at hy
    obtain hy | rfl := hy
    · exact h.2.1 y hy
    · exact hx
  · simp only [storeNode, linkNode_length, List.length_append, List.length_singleton]
    omega

/-- HIST's counting keeps every count within `WMAX` (40_frequency_counter.md R162). -/
theorem countUnits_bound (wm : Nat) : ∀ (k : Nat) (src : Source) (h : Vector Nat 257), (∀ x, rdSym h x ≤ wm) →
    ∀ x, rdSym (countUnits wm k src h).2.1 x ≤ wm := by
  intro k
  induction k with
  | zero => intro src h hh; exact hh
  | succ k ih =>
    intro src h hh
    simp only [countUnits]
    split
    · exact hh
    · split
      · exact hh
      · refine ih _ _ (fun x => ?_)
        have := hh x
        rw [rdSym_wrSym]
        split
        · rename_i u _ _ _ _
          have := hh (unitSym u)
          omega
        · exact this

/-- The merge loop keeps every weight within `WMAX` (41_tree_builder.md R178) and adds at most one node a pass. -/
theorem mergeLoop_bound (wm : Nat) : ∀ (k : Nat) (node : List Node) (pq : List Nat), (∀ n ∈ node, n.weight ≤ wm) →
    (∀ n ∈ (mergeLoop wm k node pq).node, n.weight ≤ wm) ∧ (mergeLoop wm k node pq).node.length ≤ node.length + k := by
  intro k
  induction k with
  | zero => intro node pq h; exact ⟨h, by simp [mergeLoop]⟩
  | succ k ih =>
    intro node pq h
    have grown {a b : Nat} {l r : Idx} (hle : ¬ wm < weightOf node a + weightOf node b) :
        ∀ n ∈ node ++ [internalNode l r (weightOf node a + weightOf node b)], n.weight ≤ wm := by
      intro n hn
      simp only [List.mem_append, List.mem_singleton] at hn
      obtain hn | rfl := hn
      · exact h n hn
      · exact Nat.le_of_not_lt hle
    simp only [mergeLoop]
    split
    · exact ⟨h, by simp⟩
    · split
      · exact ⟨h, by simp⟩
      · split
        · exact ⟨h, by simp⟩
        · rename_i hle
          refine ⟨(ih _ _ ?_).1, (ih _ _ ?_).2.trans ?_⟩
          · exact grown hle
          · exact grown hle
          · simp only [List.length_append, List.length_singleton]; omega

end Sys2Proof.Machine
end

