-- ==== Sys2Proof/Laws/PerInstr.lean ====
section
/-! SUPPORT. One lemma per constructor: the encoding of every instruction has the width that its row of the opcode table
gives it, 4 bits a command, 1 and 10 bits the tree tokens, 32 bits the marker (30_encoding.md R121 to R123, R140). -/

namespace Sys2Proof.Laws.Width

/-- The width column of the opcode table. -/
def rowWidth : Instr → Nat
  | .nop => 4
  | .hist => 4
  | .build => 4
  | .gencode => 4
  | .wrmagic => 4
  | .wrtree => 4
  | .encode => 4
  | .flush => 4
  | .rdmagic => 4
  | .rdtree => 4
  | .decode => 4
  | .rewind => 4
  | .compress => 4
  | .decompress => 4
  | .clrerr => 4
  | .reset => 4
  | .treeInternal => 1
  | .treeLeaf _ => 10
  | .marker _ => 32

/-- The encoding has the row's width. -/
def Statement (i : Instr) : Prop := (Sys2Proof.encode i).length = rowWidth i

theorem nop : Statement .nop := rfl
theorem hist : Statement .hist := rfl
theorem build : Statement .build := rfl
theorem gencode : Statement .gencode := rfl
theorem wrmagic : Statement .wrmagic := rfl
theorem wrtree : Statement .wrtree := rfl
theorem encode : Statement .encode := rfl
theorem flush : Statement .flush := rfl
theorem rdmagic : Statement .rdmagic := rfl
theorem rdtree : Statement .rdtree := rfl
theorem decode : Statement .decode := rfl
theorem rewind : Statement .rewind := rfl
theorem compress : Statement .compress := rfl
theorem decompress : Statement .decompress := rfl
theorem clrerr : Statement .clrerr := rfl
theorem reset : Statement .reset := rfl
theorem treeInternal : Statement .treeInternal := rfl
theorem treeLeaf (sym : BitVec 9) : Statement (.treeLeaf sym) := by simp [Statement, Sys2Proof.encode, rowWidth]
theorem marker (word : BitVec 32) : Statement (.marker word) := by simp [Statement, Sys2Proof.encode, rowWidth]

end Sys2Proof.Laws.Width
end

