-- ==== Sys2Proof/Tests/Slice0.lean ====
section
/-! SUPPORT. The model's own tests. Expected results come from spec/30_encoding.md (decoding) and the vectors of
spec/95_test_vectors.md, whose names stand in the comments; the spec computes them with `MAGIC = 0xFACE8201`. The
second half shows, for each statement with hypotheses, concrete values that meet them. -/

namespace Sys2Proof.Machine

-- One theorem after another: elaborating them side by side takes a thread with a stack of its own for each.
set_option Elab.async false

/-! ### Helpers -/

/-- The reset state of a block with the vectors' `MAGIC` and a chosen `WBITS`. -/
def labWith (wbits : Nat) : State :=
  { State.reset with cfg := { magic := 0xFACE8201#32, magicAlt := 0xFACE8200#32, wbits := wbits } }

/-- The reset state with the vectors' parameters. -/
def lab : State := labWith 32

/-- The bits of bytes given as numbers. -/
def bytes (l : List Nat) : List Bool := l.flatMap (bitsN 8)

/-- A source at its first bit. -/
def srcOf (bits : List Bool) : Source := { bits := bits, pos := 0 }

/-- Read the next state of an outcome; none where there is no next state. -/
def after {α : Type} (o : Out State) (f : State → α) : Option α :=
  match o with
  | .next t => some (f t)
  | .fault _ => none
  | .refused _ => none

/-- The registers of an outcome: STATUS, ERRCODE, ERRINFO and the source's position. -/
def regsAfter (o : Out State) : Option (Nat × Nat × Nat × Nat) :=
  after o (fun t => (t.status.toNat, t.errcode.toNat, t.errinfo.toNat, t.src.pos))

/-- The tree that BUILD makes of "AAAAB" (vector V1). -/
def treeV1 : Tree := .node 6 (.node 2 (.leaf 66#9 1) (.leaf 256#9 1)) (.leaf 65#9 4)

/-- After BUILD of vector V1. -/
def builtV1 : State :=
  { lab with
    tv := true, root := 4#10, nn := 5#10,
    node := [leafNode 65#9 4, leafNode 66#9 1, leafNode 256#9 1, internalNode 1#10 2#10 2, internalNode 3#10 0#10 6] }

/-- After GENCODE of vector V1 (GC1). -/
def codedV1 : State :=
  { builtV1 with
    cv := true,
    code := wrSym (wrSym (wrSym (Vector.replicate 257 CodeEntry.none) 65 (codeEntry 1 1)) 66 (codeEntry 2 0))
      256 (codeEntry 2 1) }

/-- A block that holds the lone sentinel (vector V2). -/
def builtV2 : State := { lab with tv := true, degen := true, root := 0#10, nn := 1#10, node := [leafNode 256#9 1] }

/-- The artifact of "AAAAB" (vector V1). -/
def artifactV1 : List Bool := bytes [0xFA, 0xCE, 0x82, 0x01, 0x24, 0x2C, 0x02, 0x41, 0xF1]

/-- Inside RDTREE, waiting for its first token. -/
def waiting : State := startTree lab

/-! ### Well-formedness -/

theorem test_wf_refuses_symbol_257 : (Instr.treeLeaf 257#9).wf = false := by decide

theorem test_wf_refuses_symbol_511 : (Instr.treeLeaf 511#9).wf = false := by decide

theorem test_wf_accepts_sentinel : (Instr.treeLeaf 256#9).wf = true := by decide

/-! ### Decoding: words written out from 30_encoding.md R121 to R123 and R140 -/

theorem test_decode_nop_to_flush :
    decodeTableWord 4 0b0000 = some .nop ∧ decodeTableWord 4 0b0001 = some .hist ∧
    decodeTableWord 4 0b0010 = some .build ∧ decodeTableWord 4 0b0011 = some .gencode ∧
    decodeTableWord 4 0b0100 = some .wrmagic ∧ decodeTableWord 4 0b0101 = some .wrtree ∧
    decodeTableWord 4 0b0110 = some .encode ∧ decodeTableWord 4 0b0111 = some .flush := by decide

theorem test_decode_rdmagic_to_reset :
    decodeTableWord 4 0b1000 = some .rdmagic ∧ decodeTableWord 4 0b1001 = some .rdtree ∧
    decodeTableWord 4 0b1010 = some .decode ∧ decodeTableWord 4 0b1011 = some .rewind ∧
    decodeTableWord 4 0b1100 = some .compress ∧ decodeTableWord 4 0b1101 = some .decompress ∧
    decodeTableWord 4 0b1110 = some .clrerr ∧ decodeTableWord 4 0b1111 = some .reset := by decide

theorem test_decode_treeInternal : decodedInstr (decode .wireToken [false]) = some .treeInternal := by decide

/-- The sentinel's token is 1 100000000 (R123). -/
theorem test_decode_treeLeaf_sentinel :
    decodedInstr (decode .wireToken [true, true, false, false, false, false, false, false, false, false]) =
      some (.treeLeaf 256#9) := by decide

/-- 'A' is 1 001000001 (vector V1). -/
theorem test_decode_treeLeaf_A :
    decodedInstr (decode .wireToken [true, false, false, true, false, false, false, false, false, true]) =
      some (.treeLeaf 65#9) := by decide

/-- The marker, most significant bit first (vector W1). -/
theorem test_decode_marker :
    decodedInstr (decode .wireHeader
      [true, true, true, true, true, false, true, false, true, true, false, false, true, true, true, false,
       true, false, false, false, false, false, true, false, false, false, false, false, false, false, false, true]) =
      some (.marker 0xFACE8201#32) := by decide

theorem test_decode_rejects_short :
    decode .cmd4 [true, false, true] = .error .codeTooShort ∧ decode .wireToken [] = .error .flagMissing ∧
    decode .wireToken [true, false] = .error .symbolTooShort ∧ decode .wireHeader [true] = .error .markerTooShort :=
  ⟨rfl, rfl, rfl, rfl⟩

/-! ### The first step after reset -/

theorem test_first_step_runs_the_command :
    step (State.reset.withFetchWord 8 0x3) = exec .gencode State.reset := rfl

theorem test_first_step_runs_the_token :
    step (State.reset.withFetchWord 16 0b1100000000) =
      exec (.treeLeaf 256#9) { startTree State.reset with src := { bits := bitsN 10 0b1100000000, pos := 10 } } := rfl

theorem test_first_step_runs_the_marker :
    step (State.reset.withFetchWord 32 0xFACE8201) =
      exec (.marker 0xFACE8201#32)
        { State.reset with seqr := .inMarker, src := { bits := bitsN 32 0xFACE8201, pos := 32 } } := rfl

/-! ### One step of each instruction -/

/-- K1. -/
theorem test_nop : exec .nop builtV1 = .next builtV1 := rfl

/-- H1. -/
theorem test_hist_counts :
    after (exec .hist { lab with src := srcOf (bytes [0x41, 0x41, 0x41, 0x41, 0x42]) })
      (fun t => (rdSym t.hist 65, rdSym t.hist 66, rdSym t.hist 256, rdSym t.hist 0, t.src.pos)) =
      some (4, 1, 1, 0, 40) := by decide +kernel

/-- H6: the fourth unit overflows with `WBITS = 2`. -/
theorem test_hist_overflow :
    after (exec .hist { labWith 2 with src := srcOf (bytes [0x41, 0x41, 0x41, 0x41]) })
      (fun t => (t.errcode, t.errinfo, rdSym t.hist 65, rdSym t.hist 256, t.src.pos)) =
      some (9#4, 0x41#32, 3, 0, 32) := by decide +kernel

/-- V6: a leaf goes before an internal node of equal weight. -/
theorem test_build_tie_break :
    after (exec .build { lab with hist := wrSym (wrSym (wrSym (wrSym lab.hist 65 2) 66 1) 67 1) 256 1 })
      (fun t => (t.node, t.root, t.nn, t.status)) =
      some ([leafNode 65#9 2, leafNode 66#9 1, leafNode 67#9 1, leafNode 256#9 1, internalNode 1#10 2#10 2,
        internalNode 3#10 0#10 3, internalNode 4#10 5#10 5], 6#10, 7#10, 0x04#8) := by decide +kernel

/-- B6. -/
theorem test_build_overflow :
    regsAfter (exec .build { lab with hist := wrSym (wrSym lab.hist 0 0xFFFFFFFF) 256 1 }) =
      some (0x02, 9, 0x100, 0) := by decide +kernel

/-- GC1. -/
theorem test_gencode :
    after (exec .gencode builtV1)
      (fun t => (codeWord (rdSym t.code 65), codeWord (rdSym t.code 66), codeWord (rdSym t.code 256),
        codeWord (rdSym t.code 67), t.status)) =
      some (0x403, 0x005, 0x405, 0, 0x0C#8) := by decide +kernel

/-- GC5. -/
theorem test_gencode_without_tree : regsAfter (exec .gencode lab) = some (0x02, 8, 3, 0) := by decide +kernel

/-- W1. -/
theorem test_wrmagic :
    after (exec .wrmagic lab) (fun t => t.snk.bits) = some (bytes [0xFA, 0xCE, 0x82, 0x01]) := by decide +kernel

/-- W2. -/
theorem test_wrtree :
    after (exec .wrtree builtV1) (fun t => t.snk.bits) = some (bytes [0x24, 0x2C, 0x02, 0x41]) := by decide +kernel

/-- EN1. -/
theorem test_encode :
    after (exec .encode { codedV1 with src := srcOf (bytes [0x41, 0x41, 0x41, 0x41, 0x42]) })
      (fun t => (t.snk.bits, t.src.pos)) = some (bytes [0xF1], 40) := by decide +kernel

/-- EN3. -/
theorem test_encode_noCode :
    after (exec .encode { codedV1 with src := srcOf (bytes [0x41, 0x43]) })
      (fun t => (t.errcode, t.errinfo, t.snk.bits, t.src.pos)) = some (10#4, 0x43#32, [true], 16) := by decide +kernel

/-- K2. -/
theorem test_flush :
    after (exec .flush { lab with snk := { bits := bitsN 42 0x3FFFFFFFFFF, closed := false } })
      (fun t => (t.snk.bits, t.snk.closed)) =
      some (bytes [0xFF, 0xFF, 0xFF, 0xFF, 0xFF, 0xC0], true) := by decide +kernel

/-- E1, the command RDMAGIC of it. -/
theorem test_rdmagic_companion :
    regsAfter (exec .rdmagic { lab with src := srcOf (bytes [0xFA, 0xCE, 0x82, 0x00]) }) =
      some (0x02, 1, 0xFACE8200, 32) := by decide +kernel

/-- T11. -/
theorem test_rdmagic : regsAfter (exec .rdmagic { lab with src := srcOf (bitsN 32 0xFACE8201) }) =
    some (0x00, 0, 0, 32) := by decide +kernel

/-- T1. -/
theorem test_rdtree :
    after (exec .rdtree { lab with src := { bits := artifactV1, pos := 32 } })
      (fun t => (t.node, t.root, t.nn, t.src.pos, t.status)) =
      some ([internalNode 1#10 4#10 0, internalNode 2#10 3#10 0, leafNode 66#9 0, leafNode 256#9 0, leafNode 65#9 0],
        0#10, 5#10, 64, 0x04#8) := by decide +kernel

/-- T7, its last token: the 257th internal node. -/
theorem test_treeInternal_size :
    regsAfter (exec .treeInternal { waiting with node := List.replicate 256 (internalNode 0#10 0#10 0),
                                                 hidden := { waiting.hidden with ni := 256 } }) =
      some (0x02, 5, 0x100, 0) := by decide +kernel

/-- DE10: decoding on a built tree. -/
theorem test_decode_built :
    after (exec .decode { builtV1 with src := srcOf [true, false, false, false, true] })
      (fun t => (t.snk.bits, t.cur, t.src.pos, t.err)) = some (bytes [0x41, 0x42], 2#10, 5, false) := by decide +kernel

/-- DE4, on V1's built tree: `CUR` stands at node 3, inside a code word. -/
theorem test_decode_truncated :
    after (exec .decode { builtV1 with src := srcOf [true, true, false] })
      (fun t => (t.snk.bits, t.errcode, t.errinfo)) = some (bytes [0x41, 0x41], 7#4, 3#32) := by decide +kernel

/-- K4. -/
theorem test_rewind : after (exec .rewind { lab with src := { bits := bytes [1, 2, 3, 4, 5], pos := 40 } })
    (fun t => t.src.pos) = some 0 := by decide +kernel

/-- V1. -/
theorem test_compress :
    after (exec .compress { lab with src := srcOf (bytes [0x41, 0x41, 0x41, 0x41, 0x42]) })
      (fun t => (t.snk, t.status)) = some ({ bits := artifactV1, closed := true }, 0x0C#8) := by decide +kernel

/-- V2: the empty input. -/
theorem test_compress_empty :
    after (exec .compress lab) (fun t => (t.snk.bits, t.status)) =
      some (bytes [0xFA, 0xCE, 0x82, 0x01, 0xC0, 0x00], 0x1C#8) := by decide +kernel

/-- V1 and P2. -/
theorem test_decompress :
    after (exec .decompress { lab with src := srcOf artifactV1 }) (fun t => (t.snk, t.cur, t.src.pos, t.status)) =
      some ({ bits := bytes [0x41, 0x41, 0x41, 0x41, 0x42], closed := true }, 3#10, 72, 0x04#8) := by decide +kernel

/-- E5: V1's artifact without two bytes. -/
theorem test_decompress_short_header :
    regsAfter (exec .decompress { lab with src := srcOf (bytes [0xFA, 0xCE, 0x82, 0x01, 0x24, 0x2C, 0x02]) }) =
      some (0x02, 2, 4, 55) := by decide +kernel

/-- K6. -/
theorem test_clrerr : regsAfter (exec .clrerr { builtV1 with err := true, errcode := 7#4, errinfo := 5#32 }) =
    some (0x04, 0, 0, 0) := by decide +kernel

/-- 10_state.md R49, R50: the hidden working state that the error of P6's GENCODE left is empty after CLRERR. -/
theorem test_clrerr_hidden : after (exec .clrerr (raise .seqError 3 lab)) (fun t => t.hidden) = some Hidden.empty := rfl

/-- K7: RESET while an error is pending; the source keeps its position. -/
theorem test_reset :
    after (exec .reset { codedV1 with err := true, errcode := 7#4, src := { bits := bytes [1, 2], pos := 9 } })
      (fun t => (t.status, t.root, t.cur, t.nn, t.src.pos)) = some (0#8, 0x3FF#10, 0x3FF#10, 0#10, 9) := by
  decide +kernel

/-- K5: a command while an error is pending. -/
theorem test_error_ignores : exec .hist { lab with err := true } = .next { lab with err := true } := rfl

/-- T2, the token of it: the lone sentinel. -/
theorem test_treeLeaf :
    after (exec (.treeLeaf 256#9) waiting) (fun t => (t.node, t.root, t.nn, t.status)) =
      some ([leafNode 256#9 0], 0#10, 1#10, 0x14#8) := by decide +kernel

/-- T5b, the token of it. -/
theorem test_treeLeaf_symbol : regsAfter (exec (.treeLeaf 511#9) waiting) = some (0x02, 3, 0x1FF, 0) := by
  decide +kernel

/-- T1's first token: node 0 is stored and waits for its left child; the block stays busy. -/
theorem test_treeInternal :
    after (exec .treeInternal waiting) (fun t => (t.node, t.hidden.ni, t.hidden.link, t.status)) =
      some ([internalNode 0x3FF#10 0x3FF#10 0], 1, some (0, .left), 0x01#8) := by decide +kernel

/-- E1, the marker of it. -/
theorem test_marker : regsAfter (exec (.marker 0xFACE8200#32) { lab with seqr := .inMarker }) =
    some (0x02, 1, 0xFACE8200, 0) := by decide +kernel

/-! ### The host's register map -/

/-- V1's words of NODE[0] and NODE[4] at the host. -/
theorem test_host_reads_node :
    (hostRead 0x400#12 builtV1).hostData = 0x13FFFFC83 ∧ (hostRead 0x404#12 builtV1).hostData = 0x180000C00 := by
  decide +kernel

/-- A written HIST entry keeps the low `WBITS` bits (10_state.md R59). -/
theorem test_host_writes_hist : rdSym (hostWrite 0x200#12 0x100000005 lab).hist 256 = 5 := by decide +kernel

/-! ### Witnesses: concrete values that meet the hypotheses of each statement, all clauses

`labWith 1` has `WMAX = 1` and `labWith 2` has `WMAX = 3`, so that boundaries are short. A statement whose only
hypothesis is `Ready` or an idle block is witnessed by `lab` in `witness_ready`. -/

/-- NopChangesNothingAndRewindThePosition, RdtreeIsItsTokenSteps, CompositesEqualTheirExpansions. -/
theorem witness_ready : Ready lab ∧ lab.pending.head? ≠ some .hwReset := by decide

/-- EncodeInvertsDecode: the three formats. -/
theorem witness_EncodeInvertsDecode :
    decode .cmd4 [true, false, true, true, true] = .ok (.rewind, [true]) ∧
    decode .wireToken [false] = .ok (.treeInternal, []) ∧
    decode .wireToken [true, true, true, true, true, true, true, true, true, true] = .ok (.treeLeaf 511#9, []) ∧
    decode .wireHeader (List.replicate 32 true) = .ok (.marker 0xFFFFFFFF#32, []) := ⟨rfl, rfl, rfl, rfl⟩

/-- EveryCommandCodeIsAssigned: four bits, and a command. -/
theorem witness_EveryCommandCodeIsAssigned :
    4 ≤ [true, true, true, true].length ∧ Instr.reset.format = .cmd4 := by decide

/-- StepRunsCommandWritten. -/
theorem witness_StepRunsCommandWritten :
    let s := { lab with pending := [.write 0#12 0x1F, .attachSnk] }
    s.seqr = .idle ∧ s.pending = .write 0#12 0x1F :: [.attachSnk] := by decide

/-- StepRunsDecodedToken: a token of each kind, the largest field, and the marker. -/
theorem witness_StepRunsDecodedToken :
    waiting.pending.head? ≠ some .hwReset ∧ waiting.seqr = .inTree ∧
    decode .wireToken { waiting with src := srcOf [false] }.src.rest = .ok (.treeInternal, []) ∧
    decode .wireToken { waiting with src := srcOf (List.replicate 10 true) }.src.rest = .ok (.treeLeaf 511#9, []) ∧
    { lab with seqr := Sequencer.inMarker }.seqr = .inMarker ∧
    decode .wireHeader { lab with src := srcOf (List.replicate 32 false) }.src.rest = .ok (.marker 0#32, []) :=
  ⟨by decide, rfl, rfl, rfl, rfl, rfl⟩

/-- StepTakesHostActions: each clause, HIST at both ends, the addresses next to CMD and HIST, a read, and the reset input
inside a command. -/
theorem witness_StepTakesHostActions :
    (∀ a ∈ [0x001#12, 0x0FF#12, 0x201#12, 0xFFF#12],
      { lab with pending := [HostAction.write a 7] }.pending = .write a 7 :: [] ∧ a ≠ 0#12 ∧
        (a.toNat < 0x100 ∨ 0x200 < a.toNat)) ∧
    { lab with pending := [HostAction.read 0x001#12] }.pending = .read 0x001#12 :: [] ∧
    (lab.seqr = .idle ∧ lab.pending = []) ∧
    { lab with pending := [HostAction.attachSrc [true]] }.pending = .attachSrc [true] :: [] ∧
    { lab with pending := [HostAction.attachSnk] }.pending = .attachSnk :: [] ∧
    { lab with pending := [HostAction.write 0x100#12 7] }.pending =
      .write (BitVec.ofNat 12 (0x100 + (0 : Sym).val)) 7 :: [] ∧
    { lab with pending := [HostAction.write 0x200#12 7] }.pending =
      .write (BitVec.ofNat 12 (0x100 + sentinel.val)) 7 :: [] ∧
    { waiting with pending := [HostAction.hwReset] }.pending = .hwReset :: [] := by decide

/-- ResetCommandRestoresResetState, ClrerrClearsOnlyTheError: idle, without and with an error. -/
theorem witness_idle : lab.seqr = .idle ∧ { lab with err := true }.seqr = .idle := by decide

/-- FlushPadsAndCloses, WrmagicWritesTheMarker: an open sink. -/
theorem witness_FlushPadsAndCloses : Ready lab ∧ lab.snk.closed = false := by decide

/-- CommandsAreAcceptedOnlyWhenReady: an error pending, and a command running. -/
theorem witness_CommandsAreAcceptedOnlyWhenReady :
    Instr.decompress.format = .cmd4 ∧ { lab with err := true }.seqr = .idle ∧ { lab with err := true }.err = true ∧
    Instr.decompress ≠ .clrerr ∧ Instr.decompress ≠ .reset ∧ waiting.seqr ≠ .idle := by decide

/-- ClosedSinkIsNeverWritten: each clause; ENCODE with no unit and with one. -/
theorem witness_ClosedSinkIsNeverWritten :
    let shut : Sink := { bits := [], closed := true }
    let s := { codedV1 with snk := shut }
    let s1 := { codedV1 with snk := shut, src := srcOf (bytes [0x41]) }
    let s2 := { codedV1 with snk := shut, src := srcOf [true, false, true] }
    (Ready s ∧ s.snk.closed = true) ∧
    (s.tv = true ∧ treeOf s.node s.root.toNat = some treeV1) ∧
    (s.cv = true ∧ ∀ u ∈ (units s.src.rest).head?, (rdSym s.code (unitSym u)).valid = true) ∧
    (s1.cv = true ∧ ∀ u ∈ (units s1.src.rest).head?, (rdSym s1.code (unitSym u)).valid = true) ∧
    (Ready s2 ∧ s2.snk.closed = true ∧ treeV1.decode s2.src.rest = .done (65 :: []) []) ∧
    treeV1.decode (srcOf [true]).rest = .truncated (65 :: []) := by decide +kernel

/-- CommandsOutOfOrderRaiseSeqError: no tree, no table. -/
theorem witness_CommandsOutOfOrderRaiseSeqError : Ready lab ∧ lab.tv = false ∧ lab.cv = false := by decide

/-- FirstErrorIsKept: an ignored command, and the three ways out. -/
theorem witness_FirstErrorIsKept :
    ∀ a ∈ [HostAction.write 0#12 0x1, .write 0#12 0xE, .write 0#12 0xF, .hwReset],
      ∃ t, step { lab with err := true, errcode := 7#4, pending := [a] } = .next t := by
  intro a ha
  simp only [List.mem_cons, List.not_mem_nil, or_false] at ha
  obtain rfl | rfl | rfl | rfl := ha <;> exact ⟨_, rfl⟩

/-- HistCountsTheUnits: a count of exactly `WMAX`. -/
theorem witness_HistCountsTheUnits :
    let s := { labWith 2 with src := srcOf (bytes [0x41, 0x41, 0x41]) }
    Ready s ∧ (units s.src.rest).count (65 : Sym).val = wmax s.cfg ∧
      ∀ x : Sym, (units s.src.rest).count x.val ≤ wmax s.cfg := by decide +kernel

/-- HistOverflowStopsBeforeTheCount: one unit more. -/
theorem witness_HistOverflowStopsBeforeTheCount :
    let s := { labWith 2 with src := srcOf (bytes [0x41, 0x41, 0x41, 0x41, 0x42]) }
    Ready s ∧ units s.src.rest = [0x41, 0x41, 0x41] ++ 0x41 :: [0x42] ∧ [0x41, 0x41, 0x41].count 0x41 = wmax s.cfg ∧
      ∀ x : Sym, [0x41, 0x41, 0x41].count x.val ≤ wmax s.cfg := by decide +kernel

/-- BuildRejectsHistogramWithoutSentinel: B8. -/
theorem witness_BuildRejectsHistogramWithoutSentinel :
    let s := { lab with hist := wrSym lab.hist 65 4 }
    Ready s ∧ rdSym s.hist sentinel = 0 := by decide +kernel

/-- BuildOverflowsAboveWmax: B6, one more than `WMAX`. -/
theorem witness_BuildOverflowsAboveWmax :
    let s := { lab with hist := wrSym (wrSym lab.hist 0 0xFFFFFFFF) 256 1 }
    Ready s ∧ rdSym s.hist sentinel ≠ 0 ∧ (∀ x : Sym, rdSym s.hist x ≤ wmax s.cfg) ∧
      wmax s.cfg < histTotal s.hist := by decide +kernel

/-- BuildMakesTheHuffmanTree: B4, exactly `WMAX`; and B5, one leaf. -/
theorem witness_BuildMakesTheHuffmanTree :
    let s := { lab with hist := wrSym (wrSym lab.hist 0 0xFFFFFFFE) 256 1 }
    let s1 := { lab with hist := wrSym lab.hist 256 5 }
    (Ready s ∧ rdSym s.hist sentinel ≠ 0 ∧ histTotal s.hist = wmax s.cfg) ∧
    (Ready s1 ∧ rdSym s1.hist sentinel ≠ 0 ∧ histTotal s1.hist ≤ wmax s1.cfg) := by decide +kernel

/-- MergePassTakesTheTwoLeast: a set of exactly two. -/
theorem witness_MergePassTakesTheTwoLeast : [0, 1].Nodup ∧ 2 ≤ [0, 1].length := by decide

theorem treeV1_valid : treeV1.Valid := by decide

/-- The lone sentinel is a valid tree. -/
theorem leaf_valid : (Tree.leaf 256#9 1).Valid := by decide

/-- GencodeFillsTheCodeTable, WrtreeWritesTheSerialization, RdtreeInvertsWrtree (its first half): an internal root and
a leaf root. -/
theorem witness_GencodeFillsTheCodeTable :
    (Ready builtV1 ∧ builtV1.tv = true ∧ treeOf builtV1.node builtV1.root.toNat = some treeV1 ∧ treeV1.Valid ∧
      builtV1.snk.closed = false) ∧
    (Ready builtV2 ∧ builtV2.tv = true ∧ treeOf builtV2.node builtV2.root.toNat = some (.leaf 256#9 1) ∧
      (Tree.leaf 256#9 1).Valid ∧ builtV2.snk.closed = false) := by decide +kernel

/-- The chain of vector T6 from symbol k on, with d internal nodes: its deepest leaves are k and k + 1. -/
def chain : Nat → Tree
  | 0 => .leaf 0#9 0
  | d + 1 => .node 0 (chain d) (.leaf (BitVec.ofNat 9 (d + 1)) 0)

theorem chain_syms : (chain 256).syms = List.range 257 := by decide +kernel

theorem chain_valid : (chain 256).Valid := by
  refine ⟨fun s hs => ?_, ?_, ?_⟩
  · rw [chain_syms, List.mem_range] at hs; omega
  · rw [chain_syms]; exact List.nodup_range
  · rw [chain_syms, List.mem_range]; omega

/-- CodeEntriesHoldTheirPaths: a path of two bits, and the longest, of 256 bits (T6, GC4). -/
theorem witness_CodeEntriesHoldTheirPaths :
    (treeV1.Valid ∧ treeV1.codeOf (66 : Sym).val = some [false, false]) ∧
    ((chain 256).Valid ∧ (chain 256).codeOf (0 : Sym).val = some (List.replicate 256 false)) :=
  ⟨by decide, chain_valid, by decide +kernel⟩

/-- CodesFormACompletePrefixCode: both kinds of root. -/
theorem witness_CodesFormACompletePrefixCode :
    treeV1.Valid ∧ treeV1.isLeaf = false ∧ (65 : Nat) ≠ 66 ∧ treeV1.codeOf 65 = some [true] ∧
    treeV1.codeOf 66 = some [false, false] ∧ (Tree.leaf 256#9 1).Valid ∧ (Tree.leaf 256#9 1).isLeaf = true := by
  decide

/-- RdmagicChecksTheMarker: 31 bits; the marker; the companion constant. -/
theorem witness_RdmagicChecksTheMarker :
    Ready lab ∧ { lab with src := srcOf (List.replicate 31 true) }.src.rest.length < 32 ∧
    { lab with src := srcOf (bytes [0xFA, 0xCE, 0x82, 0x01]) }.src.rest = bitsN 32 lab.cfg.magic.toNat ++ [] ∧
    0xFACE8200#32 ≠ lab.cfg.magic ∧
    { lab with src := srcOf (bytes [0xFA, 0xCE, 0x82, 0x00]) }.src.rest = bitsN 32 (0xFACE8200#32).toNat ++ [] := by
  decide +kernel

/-- MarkerIsComparedWithMagic. -/
theorem witness_MarkerIsComparedWithMagic :
    { lab with seqr := Sequencer.inMarker }.seqr = .inMarker ∧ 0xFACE8201#32 = lab.cfg.magic ∧
    0xFACE8200#32 ≠ lab.cfg.magic := by decide

/-- InternalTokenStoresANode: the last node that is accepted, and the one after it. -/
theorem witness_InternalTokenStoresANode :
    waiting.seqr = .inTree ∧ { waiting.hidden with ni := 255 }.ni ≠ 256 ∧ { waiting.hidden with ni := 256 }.ni = 256 := by
  decide

/-- LeafTokenStoresALeaf: a waiting internal node; the end with the sentinel last; the end with the sentinel before. -/
theorem witness_LeafTokenStoresALeaf :
    (waiting.seqr = .inTree ∧ rdSym waiting.hidden.seen 0 = false ∧
      { waiting.hidden with stk := [{ idx := 0 }] }.stk = { idx := 0 } :: []) ∧
    (rdSym waiting.hidden.seen sentinel = false ∧ waiting.hidden.stk = []) ∧
    (rdSym (wrSym waiting.hidden.seen sentinel true) 255 = false ∧
      rdSym (wrSym waiting.hidden.seen sentinel true) sentinel = true) := by decide +kernel

/-- RejectedTokensEndRdtree: each clause; the field 257; nothing left; a flag bit and eight bits of a field. -/
theorem witness_RejectedTokensEndRdtree :
    waiting.seqr = .inTree ∧ 256 < (257#9).toNat ∧ rdSym (wrSym waiting.hidden.seen 65 true) 65 = true ∧
    (rdSym waiting.hidden.seen 65 = false ∧ waiting.hidden.stk = [] ∧ (65 : Sym) ≠ sentinel ∧
      rdSym waiting.hidden.seen sentinel = false) ∧
    waiting.pending.head? ≠ some .hwReset ∧ waiting.src.rest = [] ∧
    { waiting with src := srcOf (true :: List.replicate 8 false) }.src.rest = true :: List.replicate 8 false ∧
    (List.replicate 8 false).length < 9 := by decide +kernel

/-- RdtreeRebuildsTheTree: V1's tree with its payload after it; the lone sentinel. -/
theorem witness_RdtreeRebuildsTheTree :
    let s := { lab with src := { bits := artifactV1, pos := 32 } }
    let s1 := { lab with src := srcOf (true :: bitsN 9 256) }
    (Ready s ∧ parse s.src.rest = some (treeV1.unweighted, bytes [0xF1]) ∧ treeV1.unweighted.Valid) ∧
    (Ready s1 ∧ parse s1.src.rest = some (.leaf 256#9 0, []) ∧ (Tree.leaf 256#9 0).Valid) := by decide +kernel

/-- RdtreeRejectsEveryOtherHeader: an exhausted header, and a tree without the sentinel. -/
theorem witness_RdtreeRejectsEveryOtherHeader :
    Ready lab ∧ (¬ ∃ tr rest, parse lab.src.rest = some (tr, rest) ∧ tr.Valid) ∧
    (¬ ∃ tr rest, parse (true :: bitsN 9 65) = some (tr, rest) ∧ tr.Valid) := by
  refine ⟨by decide, ?_, ?_⟩
  · rintro ⟨tr, rest, h, -⟩
    have : parse lab.src.rest = none := rfl
    rw [this] at h
    cases h
  · rintro ⟨tr, rest, h, hv⟩
    have : parse (true :: bitsN 9 65) = some (.leaf 65#9 0, []) := rfl
    rw [this] at h
    cases h
    revert hv
    decide

/-- RdtreeInvertsWrtree: what `builtV1` writes and a block that reads it; a header that RDTREE accepts. -/
theorem witness_RdtreeInvertsWrtree :
    after (exec .wrtree builtV1) (fun t => t.snk.bits) = some (builtV1.snk.bits ++ treeV1.ser) ∧
    (let s2 := { lab with src := srcOf (treeV1.ser ++ [true]) }
     Ready s2 ∧ s2.src.rest = treeV1.ser ++ [true] ∧ s2.snk.closed = false ∧
       after (exec .rdtree s2) (fun t => t.err) = some false) := by decide +kernel

/-- EncodeWritesThePayload: EN1, and no unit at all. -/
theorem witness_EncodeWritesThePayload :
    let s := { codedV1 with src := srcOf (bytes [0x41, 0x41, 0x41, 0x41, 0x42]) }
    Ready s ∧ s.cv = true ∧ s.snk.closed = false ∧
      (∀ u ∈ units s.src.rest, (rdSym s.code (unitSym u)).valid = true) ∧ units codedV1.src.rest = [] := by
  decide +kernel

/-- EncodeStopsAtAUnitWithoutCode: EN3. -/
theorem witness_EncodeStopsAtAUnitWithoutCode :
    let s := { codedV1 with src := srcOf (bytes [0x41, 0x43, 0x42]) }
    Ready s ∧ s.cv = true ∧ s.snk.closed = false ∧ units s.src.rest = [0x41] ++ 0x43 :: [0x42] ∧
      (∀ v ∈ [0x41], (rdSym s.code (unitSym v)).valid = true) ∧ (rdSym s.code (unitSym 0x43)).valid = false := by
  decide +kernel

/-- DecodeRunsTheAutomaton: DE10; DE2 on a closed sink, which emits nothing; the source at its end; DE4, inside a code
word. -/
theorem witness_DecodeRunsTheAutomaton :
    let s := { builtV1 with src := srcOf [true, false, false, false, true] }
    let s1 := { builtV1 with src := srcOf [false, true], snk := { bits := [], closed := true } }
    Ready s ∧ s.tv = true ∧ treeOf s.node s.root.toNat = some treeV1 ∧ treeV1.Valid ∧ s.snk.closed = false ∧
      treeV1.decode s.src.rest = .done [0x41, 0x42] [] ∧
      (Ready s1 ∧ s1.snk.closed = true ∧ treeV1.decode s1.src.rest = .done [] []) ∧
      treeV1.decode builtV1.src.rest = .truncated [] ∧
      treeV1.decode [true, true, false] = .truncated [0x41, 0x41] := by
  decide +kernel

/-- 45_decoder.md R256, R258 on V1's built tree: between code words the automaton is at ROOT = 4, after the bit 0 at node
3, and the sentinel's code leads to node 2 (DE10). -/
theorem test_follow :
    follow builtV1.node 4#10 [] = some 4#10 ∧ follow builtV1.node 4#10 [false] = some 3#10 ∧
    follow builtV1.node 4#10 [false, true] = some 2#10 := by decide

/-- DecodeOfALeafRootEndsAtOnce: DE7. -/
theorem witness_DecodeOfALeafRootEndsAtOnce :
    Ready builtV2 ∧ builtV2.tv = true ∧ nodeAt builtV2.node builtV2.root = some (leafNode 256#9 1) ∧
    (leafNode 256#9 1).leaf = true := by decide

/-- DecodeInvertsTheCode, DecompressReadsTheArtifact: units that have a code. -/
theorem witness_DecodeInvertsTheCode : treeV1.Valid ∧ ∀ u ∈ [65, 66, 65], u < 256 ∧ u ∈ treeV1.syms := by decide

/-- CompressWritesTheArtifact: as many units as `WMAX` allows. -/
theorem witness_CompressWritesTheArtifact :
    let s := { labWith 2 with src := srcOf (bytes [0x41, 0x42]) }
    Ready s ∧ s.src.pos = 0 ∧ s.snk.closed = false ∧ (units s.src.bits).length + 1 = wmax s.cfg := by decide +kernel

/-- DecompressReadsTheArtifact: V1, with a byte after it (E11). -/
theorem witness_DecompressReadsTheArtifact :
    let s := { lab with src := srcOf (artifactV1 ++ bytes [0xFF]) }
    Ready s ∧ s.snk = { bits := [], closed := false } ∧ treeV1.Valid ∧
      (∀ u ∈ [65, 65, 65, 65, 66], u < 256 ∧ u ∈ treeV1.syms) ∧
      s.src.rest = bitsN 32 s.cfg.magic.toNat ++ (treeV1.ser ++
        ([65, 65, 65, 65, 66].flatMap (fun u => (treeV1.codeOf u).getD []) ++
          ((treeV1.codeOf 256).getD [] ++ bytes [0xFF]))) := by decide +kernel

/-- The artifact of "A" (vector V3). -/
def artifactV3 : List Bool := bytes [0xFA, 0xCE, 0x82, 0x01, 0x48, 0x38, 0x02]

/-- A block of `WBITS = 2`, so that "A" is short of its limit by one. -/
def compressA : State := { labWith 2 with src := srcOf (bitsOfBytes [0x41#8]) }

theorem compressA_artifact : ∃ t, exec .compress compressA = .next t ∧ t.snk.bits = artifactV3 := by
  have h : after (exec .compress compressA) (fun t => t.snk.bits) = some artifactV3 := by decide +kernel
  cases he : exec .compress compressA with
  | next t => rw [he] at h; exact ⟨t, rfl, Option.some.inj h⟩
  | fault r => rw [he] at h; cases h
  | refused r => rw [he] at h; cases h

/-- DecompressOfCompressIsTheInput: a block that compresses (with "AB" it would be at its limit), and one that reads the
artifact. -/
theorem witness_DecompressOfCompressIsTheInput :
    (Ready compressA ∧ compressA.src = { bits := bitsOfBytes [0x41#8], pos := 0 } ∧
      compressA.snk = { bits := [], closed := false } ∧ [0x41#8].length + 1 ≤ wmax compressA.cfg ∧
      [0x41#8, 0x42#8].length + 1 = wmax compressA.cfg) ∧
    ∃ t, exec .compress compressA = .next t ∧
      let s2 := { lab with src := srcOf t.snk.bits }
      Ready s2 ∧ s2.cfg.magic = compressA.cfg.magic ∧ s2.src = { bits := t.snk.bits, pos := 0 } ∧
        s2.snk = { bits := [], closed := false } := by
  obtain ⟨t, ht, -⟩ := compressA_artifact
  exact ⟨by decide +kernel, t, ht, ⟨rfl, rfl⟩, rfl, rfl, rfl⟩

/-- CompressOfALongerInputOverflows: one unit more than `WMAX` allows. -/
theorem witness_CompressOfALongerInputOverflows :
    let s := { labWith 2 with src := srcOf (bytes [0x41, 0x42, 0x43]) }
    Ready s ∧ s.src.pos = 0 ∧ ParamsOk s.cfg ∧ wmax s.cfg < (units s.src.bits).length + 1 := by decide +kernel

/-- DecompressRejectsAnotherMarker: E1. -/
theorem witness_DecompressRejectsAnotherMarker :
    let s := { lab with src := srcOf (bytes [0xFA, 0xCE, 0x82, 0x00, 0x24]) }
    Ready s ∧ 0xFACE8200#32 ≠ s.cfg.magic ∧
      s.src.rest = bitsN 32 (0xFACE8200#32).toNat ++ bytes [0x24] := by decide +kernel

/-- TruncatedArtifactFails: the last byte off (E6), and every byte off. -/
theorem witness_TruncatedArtifactFails :
    (Ready compressA ∧ compressA.src = { bits := bitsOfBytes [0x41#8], pos := 0 } ∧
      compressA.snk = { bits := [], closed := false } ∧ [0x41#8].length + 1 ≤ wmax compressA.cfg) ∧
    ∃ t1, exec .compress compressA = .next t1 ∧ t1.snk.bits.length = 8 * 7 ∧ ∀ n ∈ [0, 6],
      let s2 := { lab with src := srcOf (t1.snk.bits.take (8 * n)) }
      8 * n < t1.snk.bits.length ∧ Ready s2 ∧ s2.cfg.magic = compressA.cfg.magic ∧
        s2.src = { bits := t1.snk.bits.take (8 * n), pos := 0 } ∧ s2.snk = { bits := [], closed := false } := by
  obtain ⟨t, ht, hb⟩ := compressA_artifact
  have hl : t.snk.bits.length = 8 * 7 := by rw [hb]; rfl
  refine ⟨by decide +kernel, t, ht, hl, fun n hn => ⟨?_, ⟨rfl, rfl⟩, rfl, rfl, rfl⟩⟩
  simp only [List.mem_cons, List.not_mem_nil, or_false] at hn
  omega

/-- A step of a block that meets the invariants, holding V1's tree: NOP. -/
theorem witness_step : ∃ t, step { codedV1 with pending := [.write 0#12 0] } = .next t := ⟨_, rfl⟩

/-- StepKeepsErrorRegisters, StepKeepsStreams, StepKeepsMemoryForm: V1's block meets the invariants. -/
theorem witness_StepKeepsMemoryForm :
    let s := { codedV1 with pending := [HostAction.write 0#12 0] }
    s.seqr = .idle ∧ ErrorRegsOk s ∧ HiddenOk s ∧ s.err = false ∧ StreamsOk s ∧ ParamsOk s.cfg ∧ Memory.wf s := by decide +kernel

/-- StepKeepsAValidTree, StepKeepsTheCodeTable, StepEndsWithoutFault: V1's block holds a valid tree and its codes. -/
theorem witness_StepKeepsTheCodeTable :
    { codedV1 with pending := [HostAction.write 0#12 0] }.seqr = .idle ∧
    TreeOk { codedV1 with pending := [HostAction.write 0#12 0] } ∧
    CodeOk { codedV1 with pending := [HostAction.write 0#12 0] } := by
  refine ⟨rfl, ⟨fun _ => ⟨treeV1, [4, 3, 1, 2, 0], ?_⟩, fun h => by cases h⟩, fun _ => ⟨treeV1, ?_⟩⟩
  · decide +kernel
  · decide +kernel

/-- OnlyTheNamedCommandsWrite, SinkIsAppendOnlyAndSourceIsReadOnly: a command that answers a next state, in none of the
named lists but those of HIST; and one on a closed sink. -/
theorem witness_OnlyTheNamedCommandsWrite :
    Instr.nop.format = .cmd4 ∧ (∃ t, exec .nop { lab with snk := { bits := [], closed := true } } = .next t) ∧
    (∀ l ∈ [[Instr.build, .rdtree, .reset, .compress, .decompress], [Instr.hist, .reset, .compress],
        [Instr.gencode, .build, .rdtree, .reset, .compress, .decompress]], Instr.nop ∉ l) :=
  ⟨rfl, ⟨_, rfl⟩, by decide⟩

/-- HostSeesTheRegisterMap: the ends of every range, a specified and an unspecified NODE entry, and the addresses next to
CMD and HIST, where a write is ignored. -/
theorem witness_HostSeesTheRegisterMap :
    (0x100#12).toNat = 0x100 + (0 : Sym).val ∧ (0x200#12).toNat = 0x100 + sentinel.val ∧
    ((0x400#12).toNat = 0x400 + 0 ∧ builtV1.node[0]? = some (leafNode 65#9 4)) ∧
    ((0x600#12).toNat = 0x400 + 512 ∧
      (List.replicate 513 (leafNode 256#9 0))[512]? = some (leafNode 256#9 0)) ∧
    builtV1.node[5]? = none ∧
    (0x800#12).toNat = 0x800 + (0 : Sym).val ∧ (0x900#12).toNat = 0x800 + sentinel.val ∧
    (∀ a ∈ [0x001#12, 0x0FF#12, 0x201#12, 0xFFF#12],
      0 < a.toNat ∧ a.toNat < 0x100 ∨ 0x200 < a.toNat) ∧
    (∀ a ∈ [0x008#12, 0x0FF#12, 0x201#12, 0x3FF#12, 0x601#12, 0x7FF#12, 0x901#12, 0xFFF#12],
      0x007 < a.toNat ∧ a.toNat < 0x100 ∨ 0x200 < a.toNat ∧ a.toNat < 0x400 ∨
        0x600 < a.toNat ∧ a.toNat < 0x800 ∨ 0x900 < a.toNat) :=
  ⟨rfl, rfl, ⟨rfl, rfl⟩, ⟨rfl, (List.getElem?_replicate).trans (if_pos (by omega))⟩, rfl, rfl, rfl, by simp, by simp⟩

end Sys2Proof.Machine
end

section
/-! PROOFS. What the body of each command can do, said once: its next states and no others. Later proofs cite these and
do not unfold the bodies. -/

namespace Sys2Proof.Machine

variable {s t : State}

theorem runHist_cases (h : runHist s = .next t) :
    (∃ src hist x, countUnits (wmax s.cfg) s.src.rest.length s.src (Vector.replicate 257 0) = (src, hist, some x) ∧
      t = raise .overflow x.val { s with src := src, hist := hist }) ∨
    (∃ src hist, countUnits (wmax s.cfg) s.src.rest.length s.src (Vector.replicate 257 0) = (src, hist, none) ∧
      t = { s with src := src, hist := wrSym hist sentinel (max (rdSym hist sentinel) 1) }) := by
  unfold runHist at h
  split at h
  case h_1 src hist x hc => cases h; exact .inl ⟨src, hist, x, hc, rfl⟩
  case h_2 src hist hc => cases h; exact .inr ⟨src, hist, hc, rfl⟩

/-- The leaves BUILD begins with (41_tree_builder.md R171). -/
def histLeafNodes (hist : Vector Nat 257) : List Node := leafNodes 0 hist.toList

/-- The merge loop as BUILD runs it (41_tree_builder.md R172). -/
def mergeLeaves (wm : Nat) (lvs : List Node) : Merged := mergeLoop wm lvs.length lvs (List.range lvs.length)

/-- The state after a BUILD that succeeds (41_tree_builder.md R175, R176). -/
def builtState (m : Merged) (s : State) : State :=
  { dropTree s with
      node := m.node, root := BitVec.ofNat 10 (m.pq.headD 0), nn := BitVec.ofNat 10 m.node.length,
      degen := rootLeaf m.node (m.pq.headD 0), tv := true, hidden := { s.hidden with pq := m.pq.tail } }

theorem runBuild_badHist (h : rdSym s.hist sentinel = 0) : runBuild s = .next (failTree .badHist 0 (dropTree s)) :=
  if_pos h

theorem runBuild_overflow (h : rdSym s.hist sentinel ≠ 0)
    (ho : (mergeLeaves (wmax s.cfg) (histLeafNodes s.hist)).overflow = true) :
    runBuild s = .next (failTree .overflow 0x100 (dropTree s)) :=
  (if_neg h).trans (if_pos ho)

theorem runBuild_built (h : rdSym s.hist sentinel ≠ 0)
    (ho : (mergeLeaves (wmax s.cfg) (histLeafNodes s.hist)).overflow = false) :
    runBuild s = .next (builtState (mergeLeaves (wmax s.cfg) (histLeafNodes s.hist)) s) :=
  (if_neg h).trans (if_neg (Bool.eq_false_iff.1 ho))

theorem runBuild_cases (h : runBuild s = .next t) :
    (∃ e info, t = failTree e info (dropTree s)) ∨
    t = builtState (mergeLeaves (wmax s.cfg) (histLeafNodes s.hist)) s := by
  by_cases h0 : rdSym s.hist sentinel = 0
  · rw [runBuild_badHist h0] at h; cases h; exact .inl ⟨_, _, rfl⟩
  · cases ho : (mergeLeaves (wmax s.cfg) (histLeafNodes s.hist)).overflow with
    | true => rw [runBuild_overflow h0 ho] at h; cases h; exact .inl ⟨_, _, rfl⟩
    | false => rw [runBuild_built h0 ho] at h; cases h; exact .inr rfl

theorem runGencode_cases (h : runGencode s = .next t) :
    (s.tv = false ∧ t = raise .seqError 0x3 s) ∨
    (s.tv = true ∧ ∃ r, genLoop s.node walkFuel [{ idx := s.root.toNat }] (Vector.replicate 257 CodeEntry.none) =
        .next r ∧
      t = { s with hidden := { s.hidden with stk := r.1 }, code := r.2, cv := true }) := by
  unfold runGencode at h
  split at h
  · rename_i htv
    obtain ⟨r, hr, rfl⟩ := mapOut_eq_next.1 h
    exact .inr ⟨htv, r, hr, rfl⟩
  · rename_i htv
    cases h
    exact .inl ⟨by simpa using htv, rfl⟩

theorem runWrmagic_cases (h : runWrmagic s = .next t) :
    ∃ snk, snkWrite 32 s.cfg.magic.toNat s.snk = .next snk ∧ t = { s with snk := snk } := by
  obtain ⟨snk, hs, rfl⟩ := mapOut_eq_next.1 h
  exact ⟨snk, hs, rfl⟩

theorem runWrtree_cases (h : runWrtree s = .next t) :
    (s.tv = false ∧ t = raise .seqError 0x5 s) ∨
    (s.tv = true ∧ ∃ r, serLoop s.node walkFuel [{ idx := s.root.toNat }] s.snk = .next r ∧
      t = { s with hidden := { s.hidden with stk := r.1 }, snk := r.2 }) := by
  unfold runWrtree at h
  split at h
  · rename_i htv
    obtain ⟨r, hr, rfl⟩ := mapOut_eq_next.1 h
    exact .inr ⟨htv, r, hr, rfl⟩
  · rename_i htv
    cases h
    exact .inl ⟨by simpa using htv, rfl⟩

theorem runEncode_cases (h : runEncode s = .next t) :
    (s.cv = false ∧ t = raise .seqError 0x6 s) ∨
    (s.cv = true ∧ ∃ e, encodeLoop s.code s.src.rest.length s.src s.snk = .next e ∧
      ((∃ x, e.noCode = some x ∧ t = raise .noCode x.val { s with src := e.src, snk := e.snk }) ∨
       (e.noCode = none ∧ ∃ snk,
         snkWrite (rdSym s.code sentinel).len.toNat (rdSym s.code sentinel).bits.toNat e.snk = .next snk ∧
         t = { s with src := e.src, snk := snk }))) := by
  unfold runEncode at h
  split at h
  · rename_i hcv
    obtain ⟨e, he, h⟩ := bindOut_eq_next.1 h
    refine .inr ⟨hcv, e, he, ?_⟩
    split at h
    case h_1 x hx => cases h; exact .inl ⟨x, hx, rfl⟩
    case h_2 hx =>
      obtain ⟨snk, hs, rfl⟩ := mapOut_eq_next.1 h
      exact .inr ⟨hx, snk, hs, rfl⟩
  · rename_i hcv
    cases h
    exact .inl ⟨by simpa using hcv, rfl⟩

theorem runFlush_cases (h : runFlush s = .next t) :
    ∃ snk, snkFlush s.snk = .next snk ∧ t = { s with snk := snk } := by
  obtain ⟨snk, hs, rfl⟩ := mapOut_eq_next.1 h
  exact ⟨snk, hs, rfl⟩

theorem runRewind_cases (h : runRewind s = .next t) : t = { s with src := srcRewind s.src } := by
  cases h; rfl

theorem runRdmagic_cases (h : runRdmagic s = .next t) :
    (srcRead 32 s.src = none ∧ t = raise .badMagic 0 s) ∨
    ∃ v src, srcRead 32 s.src = some (v, src) ∧ t = checkMarker (BitVec.ofNat 32 v) { s with src := src } := by
  unfold runRdmagic at h
  split at h
  case h_1 hr => cases h; exact .inl ⟨hr, rfl⟩
  case h_2 v src hr => cases h; exact .inr ⟨v, src, hr, rfl⟩

theorem checkMarker_cases (w : BitVec 32) (s : State) :
    (w = s.cfg.magic ∧ checkMarker w s = { s with seqr := .idle }) ∨
    (w ≠ s.cfg.magic ∧ checkMarker w s = raise .badMagic w.toNat s) := by
  by_cases hw : w = s.cfg.magic
  · exact .inl ⟨hw, if_pos hw⟩
  · exact .inr ⟨hw, if_neg hw⟩

theorem runDecode_cases (h : runDecode s = .next t) :
    (s.tv = false ∧ t = raise .seqError 0xA s) ∨
    (s.tv = true ∧ ∃ n, nodeAt s.node s.root = some n ∧
      ((n.leaf = true ∧ t = { s with cur := s.root }) ∨
       (n.leaf = false ∧ ∃ w, decodeLoop s.node s.root (s.src.rest.length + 1) s.src s.root s.snk = .next w ∧
         ((w.truncated = true ∧
            t = raise .truncated w.cur.toNat { s with src := w.src, cur := w.cur, snk := w.snk }) ∨
          (w.truncated = false ∧ t = { s with src := w.src, cur := w.cur, snk := w.snk }))))) := by
  unfold runDecode at h
  split at h
  · rename_i htv
    refine .inr ⟨htv, ?_⟩
    split at h
    · cases h
    · rename_i n hn
      refine ⟨n, hn, ?_⟩
      cases hl : n.leaf with
      | true => rw [if_pos hl] at h; cases h; exact .inl ⟨rfl, rfl⟩
      | false =>
        rw [if_neg (by simp [hl])] at h
        obtain ⟨w, hw, h⟩ := bindOut_eq_next.1 h
        refine .inr ⟨rfl, w, hw, ?_⟩
        cases ht : w.truncated with
        | true => simp only [ht, if_true] at h; cases h; exact .inl ⟨rfl, rfl⟩
        | false => simp only [ht, Bool.false_eq_true, if_false] at h; cases h; exact .inr ⟨rfl, rfl⟩
  · rename_i htv
    cases h
    exact .inl ⟨by simpa using htv, rfl⟩

/-! ### Composites -/

theorem thenOk_next_ok {f : State → Out State} (he : s.err = false) : thenOk (.next s) f = f s :=
  if_neg (Bool.eq_false_iff.1 he)

theorem thenOk_next_error {f : State → Out State} (he : s.err = true) : thenOk (.next s) f = .next s := if_pos he

theorem runSteps_cons_ok {k : Nat} {body : State → Out State} {bodies : List (State → Out State)}
    (h : body (setStep k s) = .next t) (he : t.err = false) :
    runSteps k (body :: bodies) s = runSteps (k + 1) bodies t := by
  rw [runSteps, atStep, h, thenOk_next_ok he]

theorem runSteps_cons_error {k : Nat} {body : State → Out State} {bodies : List (State → Out State)}
    (h : body (setStep k s) = .next t) (he : t.err = true) : runSteps k (body :: bodies) s = .next t := by
  rw [runSteps, atStep, h, thenOk_next_error he]

/-- A property that every sub-command keeps, and that does not depend on `MSTEP`, is kept by the composite. -/
theorem runSteps_keeps {P : State → Prop} (hstep : ∀ k s, P s → P (setStep k s)) :
    ∀ (bodies : List (State → Out State)) (k : Nat) (s t : State),
      (∀ body ∈ bodies, ∀ s t, body s = .next t → P s → P t) → runSteps k bodies s = .next t → P s → P t := by
  intro bodies
  induction bodies with
  | nil =>
    intro k s t _ h hs
    cases h
    exact hstep 0 s hs
  | cons body bodies ih =>
    intro k s t hb h hs
    have hbody := hb body List.mem_cons_self
    obtain ⟨h, -⟩ | ⟨u, hu, -, h⟩ := thenOk_eq_next.1 h
    · exact hbody _ _ h (hstep k s hs)
    · exact ih (k + 1) u t (fun b hm => hb b (List.mem_cons_of_mem _ hm)) h (hbody _ _ hu (hstep k s hs))

/-! ### The step of the idle block -/

/-- What the host's next action does to the idle block (10_state.md R58, 20_memory.md R89). -/
def takeAction (a : HostAction) (s : State) : Out State :=
  match a with
  | .write addr v => if addr.toNat = 0 then exec (decodeCmd v) s else .next (hostWrite addr v s)
  | .read addr => .next (hostRead addr s)
  | .attachSrc bits => .next (attachSrc bits s)
  | .attachSnk => .next (attachSnk s)
  | .hwReset => .next (resetBlock s)

theorem step_idle_nil (hi : s.seqr = .idle) (hp : s.pending = []) : step s = .next s := by
  simp [step, fetch, fetchHost, hi, hp]

theorem step_idle_cons {a : HostAction} {rest : List HostAction} (hi : s.seqr = .idle) (hp : s.pending = a :: rest) :
    step s = takeAction a { s with pending := rest } := by
  cases a with
  | write addr v =>
    simp only [step, fetch, hp, hi, fetchHost, takeAction]
    by_cases h0 : addr.toNat = 0 <;> simp only [h0, if_true, if_false]
  | read addr => simp only [step, fetch, hp, hi, fetchHost, takeAction]
  | attachSrc bits => simp only [step, fetch, hp, hi, fetchHost, takeAction]
  | attachSnk => simp only [step, fetch, hp, hi, fetchHost, takeAction]
  | hwReset => simp only [step, fetch, hp, takeAction]

theorem decodeCmd_format (v : Nat) : (decodeCmd v).format = .cmd4 := by
  unfold decodeCmd
  split <;> rfl

/-- t is s but for the value the host read and the free counter. -/
def SameButRead (s t : State) : Prop := ∃ d f, t = { s with hostData := d, free := f }

/-- A host read changes no register, memory or stream (10_state.md R58). -/
theorem hostRead_sameButRead (addr : BitVec 12) (s : State) : SameButRead s (hostRead addr s) := by
  unfold hostRead
  dsimp only
  cases hostNode (addr.toNat - 0x400) s
  all_goals
    repeat' refine iteInduction (motive := SameButRead s) (fun _ => ?_) (fun _ => ?_)
    all_goals exact ⟨_, _, rfl⟩

end Sys2Proof.Machine
end

section
/-! PROOFS. Every step of the idle block keeps the form of the memories (00_scope.md R15, 10_state.md R42, R45). -/

namespace Sys2Proof.Machine

/-- What every body keeps: the memories hold what fits their entries, and a count has at least one bit, without which
the sentinel's count of 1 would not fit (40_frequency_counter.md R161). -/
def Fits (s : State) : Prop := 1 ≤ s.cfg.wbits ∧ Memory.wf s

variable {s t : State}

theorem one_le_wmax {p : Params} (h : 1 ≤ p.wbits) : 1 ≤ wmax p :=
  Nat.le_sub_one_of_lt (Nat.one_lt_two_pow (by omega))

theorem Fits.congr (hs : Fits s) (hh : t.hist = s.hist) (hn : t.node = s.node) (hc : t.cfg = s.cfg) : Fits t :=
  ⟨hc ▸ hs.1, (Memory.wf_congr hh hn hc).2 hs.2⟩

theorem Fits.failTree (hs : Fits s) (e : ErrKind) (info : Nat) : Fits (failTree e info s) :=
  ⟨hs.1, Memory.wf_failTree hs.2 e info⟩

/-! ### HIST and BUILD -/

theorem runHist_keeps_fits (h : runHist s = .next t) (hs : Fits s) : Fits t := by
  have hcount := countUnits_bound (wmax s.cfg) s.src.rest.length s.src (Vector.replicate 257 0) (by simp)
  obtain ⟨src, hist, x, hc, rfl⟩ | ⟨src, hist, hc, rfl⟩ := runHist_cases h
  · rw [hc] at hcount
    exact ⟨hs.1, hcount, hs.2.2⟩
  · rw [hc] at hcount
    have hcounted : Memory.wf { s with src := src, hist := hist } := ⟨hcount, hs.2.2⟩
    exact ⟨hs.1, Memory.wf_wrHist hcounted sentinel (max_le (hcount sentinel) (one_le_wmax hs.1))⟩

theorem leafNodes_length_le (cs : List Nat) : ∀ k, (leafNodes k cs).length ≤ cs.length := by
  induction cs with
  | nil => intro k; simp [leafNodes]
  | cons c cs ih =>
    intro k
    have := ih (k + 1)
    simp only [leafNodes]
    split <;> simp only [List.length_cons] <;> omega

/-- A leaf's weight is one of the counts. -/
theorem weight_mem_of_mem_leafNodes {n : Node} {cs : List Nat} : ∀ {k}, n ∈ leafNodes k cs → n.weight ∈ cs := by
  induction cs with
  | nil => intro k hn; cases hn
  | cons c cs ih =>
    intro k hn
    simp only [leafNodes] at hn
    split at hn
    · obtain rfl | hn := List.mem_cons.1 hn
      · exact List.mem_cons_self
      · exact List.mem_cons_of_mem _ (ih hn)
    · exact List.mem_cons_of_mem _ (ih hn)

theorem mem_toList_iff_rdSym {α : Type} {v : Vector α 257} {a : α} : a ∈ v.toList ↔ ∃ x : Sym, rdSym v x = a := by
  rw [Vector.mem_toList_iff, Vector.mem_iff_getElem]
  exact ⟨fun ⟨i, hi, h⟩ => ⟨⟨i, hi⟩, h⟩, fun ⟨x, h⟩ => ⟨x.val, x.isLt, h⟩⟩

/-- The leaves weigh no more than the counts' bound. -/
theorem histLeafNodes_weight_le {hist : Vector Nat 257} {b : Nat} (h : ∀ x : Sym, rdSym hist x ≤ b) :
    ∀ n ∈ histLeafNodes hist, n.weight ≤ b := by
  intro n hn
  obtain ⟨x, hx⟩ := mem_toList_iff_rdSym.1 (weight_mem_of_mem_leafNodes hn)
  exact hx ▸ h x

theorem histLeafNodes_length_le (hist : Vector Nat 257) : (histLeafNodes hist).length ≤ 257 :=
  (leafNodes_length_le hist.toList 0).trans_eq Vector.length_toList

/-- Each node the merge loop adds takes two elements off the priority set and puts one back (41_tree_builder.md
R174). -/
theorem mergeLoop_length_le (wm : Nat) : ∀ (k : Nat) (node : List Node) (pq : List Nat),
    (mergeLoop wm k node pq).node.length ≤ node.length + (pq.length - 1) := by
  intro k
  induction k with
  | zero => intro node pq; simp [mergeLoop]
  | succ k ih =>
    intro node pq
    simp only [mergeLoop]
    split
    · exact Nat.le_add_right _ _
    · rename_i a pq1 ha
      have h1 := popLeast_length ha
      split
      · exact Nat.le_add_right _ _
      · rename_i b pq2 hb
        have h2 := popLeast_length hb
        split
        · exact Nat.le_add_right _ _
        · refine (ih _ _).trans ?_
          simp only [List.length_append, List.length_singleton]
          omega

theorem runBuild_keeps_fits (h : runBuild s = .next t) (hs : Fits s) : Fits t := by
  obtain ⟨e, info, rfl⟩ | rfl := runBuild_cases h
  · exact Fits.failTree (hs.congr rfl rfl rfl : Fits (dropTree s)) e info
  · obtain ⟨hbits, hhist, -, -⟩ := hs
    have hlen := histLeafNodes_length_le s.hist
    have hnodes := mergeLoop_length_le (wmax s.cfg) (histLeafNodes s.hist).length (histLeafNodes s.hist)
      (List.range (histLeafNodes s.hist).length)
    rw [List.length_range] at hnodes
    refine ⟨hbits, hhist, (mergeLoop_bound (wmax s.cfg) _ _ _ (histLeafNodes_weight_le hhist)).1, ?_⟩
    exact hnodes.trans (by rw [maxNodes]; omega)

/-! ### RDTREE -/

/-- The number of symbols marked as seen. -/
def seenCount (seen : Vector Bool 257) : Nat := seen.count true

theorem seenCount_le (seen : Vector Bool 257) : seenCount seen ≤ 257 := Vector.count_le_size

theorem seenCount_mark {seen : Vector Bool 257} {x : Sym} (h : rdSym seen x = false) :
    seenCount (wrSym seen x true) = seenCount seen + 1 := by
  have hx : seen[x.val] = false := h
  simp [seenCount, wrSym, Vector.count_set, hx]

/-- While RDTREE waits for a token there is one node for each internal node and each seen symbol, and no more than 256
internal nodes (43_tree_serial.md R214, R217). -/
def NodesCounted (s : State) : Prop :=
  s.node.length = s.hidden.ni + seenCount s.hidden.seen ∧ s.hidden.ni ≤ 256

/-- The invariant of RDTREE's loop. -/
def ParsingFits (s : State) : Prop := Fits s ∧ (s.seqr = .inTree → NodesCounted s)

theorem ParsingFits.of_idle (hs : Fits s) (hi : s.seqr = .idle) : ParsingFits s :=
  ⟨hs, fun hq => by rw [hi] at hq; cases hq⟩

theorem Fits.failTree_parsing (hs : Fits s) (e : ErrKind) (info : Nat) :
    ParsingFits (Machine.failTree e info s) :=
  .of_idle (hs.failTree e info) rfl

theorem startTree_parsingFits (hs : Fits s) : ParsingFits (startTree s) := by
  refine ⟨⟨hs.1, hs.2.1, by simp, by simp⟩, fun _ => ?_⟩
  simp [NodesCounted, seenCount, Hidden.empty, Vector.count_replicate]

theorem treeInternal_parsingFits (hs : Fits s) (hn : NodesCounted s) : ParsingFits (treeInternal s) := by
  obtain ⟨hlen, hni⟩ := hn
  unfold treeInternal
  split
  · exact hs.failTree_parsing _ _
  · rename_i hroom
    have := seenCount_le s.hidden.seen
    have hstored := Memory.wf_storeNode hs.2 (x := internalNode idxNil idxNil 0) (Nat.zero_le _)
      (by rw [maxNodes]; omega)
    refine ⟨⟨hs.1, hstored⟩, fun _ => ?_⟩
    simp only [NodesCounted, storeNode_node, linkNode_length, List.length_append, List.length_singleton]
    omega

theorem finishTree_parsingFits (hs : Fits s) : ParsingFits (finishTree s) := by
  unfold finishTree
  split
  · exact .of_idle (hs.congr rfl rfl rfl) rfl
  · exact hs.failTree_parsing _ _

theorem afterLeaf_parsingFits (hs : Fits s) (hn : NodesCounted s) : ParsingFits (afterLeaf s) := by
  unfold afterLeaf
  split
  · exact finishTree_parsingFits hs
  · exact ⟨hs.congr rfl rfl rfl, fun _ => hn⟩

theorem treeLeaf_parsingFits (field : BitVec 9) (hs : Fits s) (hn : NodesCounted s) :
    ParsingFits (treeLeaf field s) := by
  obtain ⟨hlen, hni⟩ := hn
  unfold treeLeaf
  split
  · exact hs.failTree_parsing _ _
  · rename_i x _
    split
    · exact hs.failTree_parsing _ _
    · rename_i hunseen
      have hmark := seenCount_mark (Bool.eq_false_iff.2 hunseen)
      have hle := seenCount_le (wrSym s.hidden.seen x true)
      have hstored := Memory.wf_storeNode hs.2 (x := leafNode (symField x) 0) (Nat.zero_le _)
        (by rw [maxNodes]; omega)
      refine afterLeaf_parsingFits ⟨hs.1, hstored⟩ ?_
      simp only [NodesCounted, storeNode_node, storeNode_hidden, linkNode_length, List.length_append,
        List.length_singleton]
      omega

theorem treePass_parsingFits (hs : ParsingFits s) (hq : s.seqr = .inTree) : ParsingFits (treePass s) := by
  obtain ⟨hfits, hcounted⟩ := hs
  have hn := hcounted hq
  unfold treePass
  split
  · exact Fits.failTree_parsing (hfits.congr rfl rfl rfl) .hdrExhausted s.node.length
  · exact treeInternal_parsingFits (hfits.congr rfl rfl rfl) hn
  · exact treeLeaf_parsingFits _ (hfits.congr rfl rfl rfl) hn
  · exact ⟨hfits.congr rfl rfl rfl, fun _ => hn⟩

theorem treeLoop_keeps_fits : ∀ (k : Nat) (s : State), ParsingFits s → Fits (treeLoop k s) := by
  intro k
  induction k with
  | zero => intro s hs; exact hs.1
  | succ k ih =>
    intro s hs
    simp only [treeLoop]
    split
    · rename_i hq
      exact ih _ (treePass_parsingFits hs hq)
    · exact hs.1
    · exact hs.1

theorem runRdtree_keeps_fits (h : runRdtree s = .next t) (hs : Fits s) : Fits t := by
  cases h
  exact treeLoop_keeps_fits _ _ (startTree_parsingFits hs)

/-! ### The other bodies, which write neither HIST nor NODE -/

theorem runGencode_keeps_fits (h : runGencode s = .next t) (hs : Fits s) : Fits t := by
  obtain ⟨-, rfl⟩ | ⟨-, r, -, rfl⟩ := runGencode_cases h <;> exact hs.congr rfl rfl rfl

theorem runRewind_keeps_fits (h : runRewind s = .next t) (hs : Fits s) : Fits t := by
  rw [runRewind_cases h]; exact hs.congr rfl rfl rfl

theorem runWrmagic_keeps_fits (h : runWrmagic s = .next t) (hs : Fits s) : Fits t := by
  obtain ⟨snk, -, rfl⟩ := runWrmagic_cases h; exact hs.congr rfl rfl rfl

theorem runWrtree_keeps_fits (h : runWrtree s = .next t) (hs : Fits s) : Fits t := by
  obtain ⟨-, rfl⟩ | ⟨-, r, -, rfl⟩ := runWrtree_cases h <;> exact hs.congr rfl rfl rfl

theorem runEncode_keeps_fits (h : runEncode s = .next t) (hs : Fits s) : Fits t := by
  obtain ⟨-, rfl⟩ | ⟨-, e, -, ⟨x, -, rfl⟩ | ⟨-, snk, -, rfl⟩⟩ := runEncode_cases h <;> exact hs.congr rfl rfl rfl

theorem runFlush_keeps_fits (h : runFlush s = .next t) (hs : Fits s) : Fits t := by
  obtain ⟨snk, -, rfl⟩ := runFlush_cases h; exact hs.congr rfl rfl rfl

theorem checkMarker_keeps_fits (w : BitVec 32) (hs : Fits s) : Fits (checkMarker w s) := by
  obtain ⟨-, h⟩ | ⟨-, h⟩ := checkMarker_cases w s <;> rw [h] <;> exact hs.congr rfl rfl rfl

theorem runRdmagic_keeps_fits (h : runRdmagic s = .next t) (hs : Fits s) : Fits t := by
  obtain ⟨-, rfl⟩ | ⟨v, src, -, rfl⟩ := runRdmagic_cases h
  · exact hs.congr rfl rfl rfl
  · exact checkMarker_keeps_fits _ (hs.congr rfl rfl rfl)

theorem runDecode_keeps_fits (h : runDecode s = .next t) (hs : Fits s) : Fits t := by
  obtain ⟨-, rfl⟩ | ⟨-, n, -, ⟨-, rfl⟩ | ⟨-, w, -, ⟨-, rfl⟩ | ⟨-, rfl⟩⟩⟩ := runDecode_cases h <;>
    exact hs.congr rfl rfl rfl

theorem runSteps_keeps_fits {bodies : List (State → Out State)} {k : Nat}
    (hb : ∀ body ∈ bodies, ∀ s t, body s = .next t → Fits s → Fits t) (h : runSteps k bodies s = .next t)
    (hs : Fits s) : Fits t :=
  runSteps_keeps (fun _ _ hs => hs.congr rfl rfl rfl) bodies k s t hb h hs

theorem runCompress_keeps_fits (h : runCompress s = .next t) (hs : Fits s) : Fits t := by
  refine runSteps_keeps_fits ?_ h hs
  simp only [List.forall_mem_cons, List.not_mem_nil, false_imp_iff, implies_true, and_true]
  exact ⟨fun _ _ => runHist_keeps_fits, fun _ _ => runBuild_keeps_fits, fun _ _ => runGencode_keeps_fits,
    fun _ _ => runRewind_keeps_fits, fun _ _ => runWrmagic_keeps_fits, fun _ _ => runWrtree_keeps_fits,
    fun _ _ => runEncode_keeps_fits, fun _ _ => runFlush_keeps_fits⟩

theorem runDecompress_keeps_fits (h : runDecompress s = .next t) (hs : Fits s) : Fits t := by
  refine runSteps_keeps_fits ?_ h hs
  simp only [List.forall_mem_cons, List.not_mem_nil, false_imp_iff, implies_true, and_true]
  exact ⟨fun _ _ => runRdmagic_keeps_fits, fun _ _ => runRdtree_keeps_fits, fun _ _ => runDecode_keeps_fits,
    fun _ _ => runFlush_keeps_fits⟩

/-! ### Commands and steps -/

theorem accept_keeps_fits {body : State → Out State} (hb : body s = .next t → Fits s → Fits t)
    (h : accept body s = .next t) (hs : Fits s) : Fits t := by
  obtain ⟨-, ⟨-, rfl⟩ | ⟨-, h⟩⟩ := accept_eq_next.1 h
  · exact hs
  · exact hb h hs

theorem acceptAlways_keeps_fits {f : State → State} (hf : Fits s → Fits (f s))
    (h : acceptAlways (fun s => .next (f s)) s = .next t) (hs : Fits s) : Fits t := by
  by_cases hi : s.seqr = .idle
  · rw [acceptAlways_idle hi] at h
    cases h
    exact hf hs
  · rw [acceptAlways_busy hi] at h
    cases h

theorem exec_keeps_fits {i : Instr} (hi : i.format = .cmd4) (h : exec i s = .next t) (hs : Fits s) : Fits t := by
  cases i with
  | nop => exact accept_keeps_fits (fun h hs => by cases h; exact hs) h hs
  | hist => exact accept_keeps_fits runHist_keeps_fits h hs
  | build => exact accept_keeps_fits runBuild_keeps_fits h hs
  | gencode => exact accept_keeps_fits runGencode_keeps_fits h hs
  | wrmagic => exact accept_keeps_fits runWrmagic_keeps_fits h hs
  | wrtree => exact accept_keeps_fits runWrtree_keeps_fits h hs
  | encode => exact accept_keeps_fits runEncode_keeps_fits h hs
  | flush => exact accept_keeps_fits runFlush_keeps_fits h hs
  | rdmagic => exact accept_keeps_fits runRdmagic_keeps_fits h hs
  | rdtree => exact accept_keeps_fits runRdtree_keeps_fits h hs
  | decode => exact accept_keeps_fits runDecode_keeps_fits h hs
  | rewind => exact accept_keeps_fits runRewind_keeps_fits h hs
  | compress => exact accept_keeps_fits runCompress_keeps_fits h hs
  | decompress => exact accept_keeps_fits runDecompress_keeps_fits h hs
  | clrerr => exact acceptAlways_keeps_fits (fun hs => hs.congr rfl rfl rfl) h hs
  | reset => exact acceptAlways_keeps_fits (fun hs => ⟨hs.1, Memory.wf_resetBlock s⟩) h hs
  | treeInternal => cases hi
  | treeLeaf sym => cases hi
  | marker word => cases hi

theorem takeAction_keeps_fits {a : HostAction} (h : takeAction a s = .next t) (hs : Fits s) : Fits t := by
  cases a with
  | write addr v =>
    by_cases h0 : addr.toNat = 0
    · rw [takeAction, if_pos h0] at h
      exact exec_keeps_fits (decodeCmd_format v) h hs
    · rw [takeAction, if_neg h0] at h
      cases h
      have hcfg : (hostWrite addr v s).cfg = s.cfg := by
        unfold hostWrite
        exact iteInduction (motive := fun u : State => u.cfg = s.cfg) (fun _ => rfl) (fun _ => rfl)
      exact ⟨hcfg ▸ hs.1, Memory.wf_hostWrite hs.2 addr v⟩
  | read addr =>
    cases h
    obtain ⟨d, f, hr⟩ := hostRead_sameButRead addr s
    rw [hr]
    exact hs.congr rfl rfl rfl
  | attachSrc bits => cases h; exact hs.congr rfl rfl rfl
  | attachSnk => cases h; exact hs.congr rfl rfl rfl
  | hwReset => cases h; exact ⟨hs.1, Memory.wf_resetBlock s⟩

theorem step_keeps_fits (hi : s.seqr = .idle) (h : step s = .next t) (hs : Fits s) : Fits t := by
  cases hp : s.pending with
  | nil =>
    rw [step_idle_nil hi hp] at h
    cases h
    exact hs
  | cons a rest =>
    rw [step_idle_cons hi hp] at h
    exact takeAction_keeps_fits h (hs.congr rfl rfl rfl)

/-- Settles O54: every body keeps `Fits`, by the count of nodes in RDTREE and of merges in BUILD. -/
theorem stepKeepsMemoryForm : Obligations.StepKeepsMemoryForm := by
  intro s t hi hp hwf h
  exact (step_keeps_fits hi h ⟨hp.1, hwf⟩).2

end Sys2Proof.Machine
end

section
/-! PROOFS. The code of a tree: its paths, the code table entries that hold them (42_code_generator.md R190, R191,
R196), and the decode automaton on whole and on cut code words (45_decoder.md R264, R265). -/

namespace Sys2Proof.Machine

/-! ### Paths -/

/-- The path to a subtree stands before each of its paths. -/
theorem Tree.codes_eq_map (t : Tree) : ∀ p, t.codes p = (t.codes []).map (fun c => (c.1, p ++ c.2)) := by
  induction t with
  | leaf s w => intro p; simp [Tree.codes]
  | node w l r hl hr =>
    intro p
    simp only [Tree.codes, List.nil_append, List.map_append]
    rw [hl (p ++ [false]), hr (p ++ [true]), hl [false], hr [true]]
    simp [Function.comp_def]

/-- A path of an internal node is a bit and a path of the child it selects. -/
theorem Tree.mem_codes_node {w : Nat} {l r : Tree} {x : Nat} {p : List Bool} :
    (x, p) ∈ (Tree.node w l r).codes [] ↔ ∃ b q, p = b :: q ∧ (x, q) ∈ (if b then r else l).codes [] := by
  rw [Tree.codes, Tree.codes_eq_map l, Tree.codes_eq_map r]
  simp only [List.nil_append, List.mem_append, List.mem_map, Prod.mk.injEq, Prod.exists]
  constructor
  · rintro (⟨y, q, hq, rfl, rfl⟩ | ⟨y, q, hq, rfl, rfl⟩)
    · exact ⟨false, q, rfl, hq⟩
    · exact ⟨true, q, rfl, hq⟩
  · rintro ⟨b, q, rfl, hq⟩
    cases b with
    | false => exact .inl ⟨x, q, hq, rfl, rfl⟩
    | true => exact .inr ⟨x, q, hq, rfl, rfl⟩

theorem Tree.codeOf_isSome {t : Tree} {x : Nat} (h : x ∈ t.syms) : (t.codeOf x).isSome = true := by
  rw [← t.codes_map_fst [], List.mem_map] at h
  obtain ⟨c, hc, rfl⟩ := h
  rw [Tree.codeOf, Option.isSome_map, List.find?_isSome]
  exact ⟨c, hc, beq_self_eq_true c.1⟩

theorem Tree.mem_codes_of_codeOf {t : Tree} {x : Nat} {p : List Bool} (h : t.codeOf x = some p) :
    (x, p) ∈ t.codes [] := by
  obtain ⟨c, hc, rfl⟩ := Option.map_eq_some_iff.1 h
  obtain rfl : c.1 = x := by simpa using List.find?_some hc
  exact List.mem_of_find?_eq_some hc

/-- Every leaf symbol has its path as its code. -/
theorem Tree.codeOf_mem {t : Tree} {x : Nat} (h : x ∈ t.syms) : (x, (t.codeOf x).getD []) ∈ t.codes [] := by
  obtain ⟨p, hp⟩ := Option.isSome_iff_exists.1 (t.codeOf_isSome h)
  rw [hp]
  exact t.mem_codes_of_codeOf hp

/-- A code is shorter than the number of leaves. -/
theorem Tree.codeOf_length_lt {t : Tree} {x : Nat} {p : List Bool} (h : t.codeOf x = some p) :
    p.length < t.syms.length := by
  obtain ⟨q, rfl, hlt⟩ := t.codes_suffix [] _ (t.mem_codes_of_codeOf h)
  exact hlt

theorem Tree.Valid.codeOf_length_le {t : Tree} (hv : t.Valid) {x : Nat} {p : List Bool} (h : t.codeOf x = some p) :
    p.length ≤ 256 := by
  have := t.codeOf_length_lt h
  have := nodup_le_257 hv.1 hv.2.1
  omega

/-! ### Code table entries -/

/-- An entry of at most 256 bits holds its path exactly (10_state.md R47). -/
theorem codeString_codeEntry {p : List Bool} (h : p.length ≤ 256) :
    codeString (codeEntry p.length (bitsVal p)) = p := by
  have hval : bitsVal p < 2 ^ 256 := (bitsVal_lt p).trans_le (Nat.pow_le_pow_right (by decide) h)
  rw [codeString, codeEntry]
  simp only [BitVec.toNat_ofNat]
  rw [Nat.mod_eq_of_lt (show p.length < 2 ^ 9 by omega), Nat.mod_eq_of_lt hval, bitsN_bitsVal]

theorem Tree.Valid.codeString_entryOf {t : Tree} (hv : t.Valid) (x : Nat) :
    codeString (t.entryOf x) = (t.codeOf x).getD [] := by
  cases h : t.codeOf x with
  | none => rw [Tree.entryOf, h]; rfl
  | some p => rw [Tree.entryOf, h]; exact codeString_codeEntry (hv.codeOf_length_le h)

theorem Tree.entryOf_valid {t : Tree} {x : Nat} (h : x ∈ t.syms) : (t.entryOf x).valid = true := by
  obtain ⟨p, hp⟩ := Option.isSome_iff_exists.1 (t.codeOf_isSome h)
  rw [Tree.entryOf, hp]
  rfl

/-! ### The tree without weights, as the deserializer rebuilds it -/

theorem Tree.unweighted_codes (t : Tree) : ∀ p, t.unweighted.codes p = t.codes p := by
  induction t with
  | leaf s w => intro p; rfl
  | node w l r hl hr => intro p; simp only [Tree.unweighted, Tree.codes, hl, hr]

theorem Tree.unweighted_syms (t : Tree) : t.unweighted.syms = t.syms := by
  rw [← Tree.codes_map_fst _ [], Tree.unweighted_codes, Tree.codes_map_fst]

theorem Tree.unweighted_codeOf (t : Tree) (x : Nat) : t.unweighted.codeOf x = t.codeOf x := by
  rw [Tree.codeOf, Tree.unweighted_codes, Tree.codeOf]

theorem Tree.unweighted_isLeaf (t : Tree) : t.unweighted.isLeaf = t.isLeaf := by
  cases t <;> rfl

theorem Tree.Valid.unweighted {t : Tree} (hv : t.Valid) : t.unweighted.Valid := by
  rwa [Tree.Valid, Tree.unweighted_syms]

/-! ### The decode automaton -/

/-- What the automaton of 45_decoder.md R264 does at the child it has come to: emit or end at a leaf, go on from an
internal node. -/
def Tree.arrive (t : Tree) : Tree → List Bool → List Nat → Decoded
  | .leaf s _, bs, out => if s.toNat = 256 then .done out bs else t.walk t bs (out ++ [s.toNat])
  | .node w l r, bs, out => t.walk (.node w l r) bs out

theorem Tree.arrive_of_not_leaf {t sub : Tree} (h : sub.isLeaf = false) (bs : List Bool) (out : List Nat) :
    t.arrive sub bs out = t.walk sub bs out := by
  cases sub with
  | leaf s w => cases h
  | node w l r => rfl

theorem Tree.walk_cons (t : Tree) (w : Nat) (l r : Tree) (b : Bool) (bs : List Bool) (out : List Nat) :
    t.walk (.node w l r) (b :: bs) out = t.arrive (if b then r else l) bs out := by
  rw [Tree.walk]
  cases (if b then r else l) <;> rfl

/-- After the whole path of a symbol it is emitted, or the walk ends if it is the sentinel. -/
theorem Tree.arrive_path (t sub : Tree) : ∀ {x : Nat} {p : List Bool} (bs : List Bool) (out : List Nat),
    (x, p) ∈ sub.codes [] →
    t.arrive sub (p ++ bs) out = if x = 256 then .done out bs else t.walk t bs (out ++ [x]) := by
  induction sub with
  | leaf s w =>
    intro x p bs out h
    simp only [Tree.codes, List.mem_singleton, Prod.mk.injEq] at h
    obtain ⟨rfl, rfl⟩ := h
    rfl
  | node w l r hl hr =>
    intro x p bs out h
    obtain ⟨b, q, rfl, hq⟩ := Tree.mem_codes_node.1 h
    rw [List.cons_append, Tree.arrive, Tree.walk_cons]
    cases b with
    | false => exact hl bs out hq
    | true => exact hr bs out hq

/-- A path that is cut short emits nothing and ends truncated. -/
theorem Tree.arrive_cut_path (t sub : Tree) : ∀ {x : Nat} {p : List Bool} {k : Nat} (out : List Nat),
    (x, p) ∈ sub.codes [] → k < p.length → t.arrive sub (p.take k) out = .truncated out := by
  induction sub with
  | leaf s w =>
    intro x p k out h hk
    simp only [Tree.codes, List.mem_singleton, Prod.mk.injEq] at h
    obtain ⟨rfl, rfl⟩ := h
    cases hk
  | node w l r hl hr =>
    intro x p k out h hk
    obtain ⟨b, q, rfl, hq⟩ := Tree.mem_codes_node.1 h
    cases k with
    | zero => simp only [List.take_zero, Tree.arrive, Tree.walk]
    | succ k =>
      rw [List.take_succ_cons, Tree.arrive, Tree.walk_cons]
      have hk' : k < q.length := Nat.lt_of_succ_lt_succ hk
      cases b with
      | false => exact hl out hq hk'
      | true => exact hr out hq hk'

/-- The code words of units and then the sentinel's, the payload of 30_encoding.md R125. -/
def Tree.codeWords (t : Tree) (us : List Nat) : List Bool :=
  us.flatMap (fun u => (t.codeOf u).getD []) ++ (t.codeOf 256).getD []

theorem Tree.codeWords_cons (t : Tree) (u : Nat) (us : List Nat) :
    t.codeWords (u :: us) = (t.codeOf u).getD [] ++ t.codeWords us := by
  simp [Tree.codeWords]

theorem Tree.unweighted_codeWords (t : Tree) (us : List Nat) : t.unweighted.codeWords us = t.codeWords us := by
  simp only [Tree.codeWords, Tree.unweighted_codeOf]

theorem Tree.walk_codeWords {t : Tree} (hl : t.isLeaf = false) (hsent : 256 ∈ t.syms) (x : List Bool) :
    ∀ (us out : List Nat), (∀ u ∈ us, u < 256 ∧ u ∈ t.syms) →
      t.walk t (t.codeWords us ++ x) out = .done (out ++ us) x := by
  intro us
  induction us with
  | nil =>
    intro out _
    rw [← Tree.arrive_of_not_leaf hl]
    simpa [Tree.codeWords] using t.arrive_path t x out (t.codeOf_mem hsent)
  | cons u us ih =>
    intro out hus
    obtain ⟨⟨hlt, hu⟩, hus⟩ := List.forall_mem_cons.1 hus
    rw [← Tree.arrive_of_not_leaf hl, Tree.codeWords_cons, List.append_assoc,
      t.arrive_path t _ out (t.codeOf_mem hu), if_neg (Nat.ne_of_lt hlt), ih (out ++ [u]) hus, List.append_assoc,
      List.singleton_append]

/-- Code words that are cut short end truncated. -/
theorem Tree.walk_cut_codeWords {t : Tree} (hl : t.isLeaf = false) (hsent : 256 ∈ t.syms) :
    ∀ (us out : List Nat) (k : Nat), (∀ u ∈ us, u < 256 ∧ u ∈ t.syms) → k < (t.codeWords us).length →
      ∃ o, t.walk t ((t.codeWords us).take k) out = .truncated o := by
  intro us
  induction us with
  | nil =>
    intro out k _ hk
    refine ⟨out, ?_⟩
    rw [← Tree.arrive_of_not_leaf hl]
    exact t.arrive_cut_path t out (t.codeOf_mem hsent) hk
  | cons u us ih =>
    intro out k hus hk
    obtain ⟨⟨hlt, hu⟩, hus⟩ := List.forall_mem_cons.1 hus
    rw [Tree.codeWords_cons] at hk ⊢
    rw [List.length_append] at hk
    rw [← Tree.arrive_of_not_leaf hl, List.take_append]
    rcases Nat.lt_or_ge k ((t.codeOf u).getD []).length with hcut | hwhole
    · rw [Nat.sub_eq_zero_of_le hcut.le, List.take_zero, List.append_nil]
      exact ⟨out, t.arrive_cut_path t out (t.codeOf_mem hu) hcut⟩
    · rw [List.take_of_length_le hwhole, t.arrive_path t _ out (t.codeOf_mem hu), if_neg (Nat.ne_of_lt hlt)]
      exact ih (out ++ [u]) _ hus (by omega)

/-- The only valid leaf is the sentinel's, and its code is empty (10_state.md R41, 42_code_generator.md R193). -/
theorem Tree.Valid.leaf_syms {s : BitVec 9} {w : Nat} (hv : (Tree.leaf s w).Valid) : s.toNat = 256 := by
  simpa [Tree.Valid, Tree.syms, eq_comm] using hv.2.2

theorem Tree.Valid.leaf_codeWords {s : BitVec 9} {w : Nat} (hv : (Tree.leaf s w).Valid) {us : List Nat}
    (hus : ∀ u ∈ us, u < 256 ∧ u ∈ (Tree.leaf s w).syms) : us = [] ∧ (Tree.leaf s w).codeWords us = [] := by
  have hs := hv.leaf_syms
  have hnil : us = [] := List.eq_nil_iff_forall_not_mem.2 fun u hu => by
    obtain ⟨hlt, hmem⟩ := hus u hu
    simp only [Tree.syms, List.mem_singleton] at hmem
    omega
  subst hnil
  exact ⟨rfl, by simp [Tree.codeWords, Tree.codeOf, Tree.codes, hs]⟩

/-- The decoder inverts the code (45_decoder.md R265). -/
theorem Tree.Valid.decode_codeWords {t : Tree} (hv : t.Valid) {us : List Nat} (hus : ∀ u ∈ us, u < 256 ∧ u ∈ t.syms)
    (x : List Bool) : t.decode (t.codeWords us ++ x) = .done us x := by
  cases t with
  | leaf s w =>
    obtain ⟨rfl, hnil⟩ := hv.leaf_codeWords hus
    rw [hnil]
    rfl
  | node w l r => exact Tree.walk_codeWords rfl hv.2.2 x us [] hus

theorem Tree.Valid.decode_cut_codeWords {t : Tree} (hv : t.Valid) {us : List Nat}
    (hus : ∀ u ∈ us, u < 256 ∧ u ∈ t.syms) {k : Nat} (hk : k < (t.codeWords us).length) :
    ∃ o, t.decode ((t.codeWords us).take k) = .truncated o := by
  cases t with
  | leaf s w =>
    rw [(hv.leaf_codeWords hus).2] at hk
    cases hk
  | node w l r => exact Tree.walk_cut_codeWords rfl hv.2.2 us [] k hus hk

end Sys2Proof.Machine
end

section
/-! PROOFS. The result of each command's body where it succeeds: HIST, GENCODE, WRMAGIC, WRTREE, ENCODE, FLUSH
(40_frequency_counter.md, 42_code_generator.md, 43_tree_serial.md, 44_encoder.md, 46_control_and_sequences.md). -/

namespace Sys2Proof.Machine

variable {s : State}

theorem Sink.eq_of_open {snk : Sink} (h : snk.closed = false) : snk = { bits := snk.bits, closed := false } := by
  cases snk
  cases h
  rfl

/-! ### HIST -/

/-- The histogram of the units: their counts, and 1 for the sentinel (40_frequency_counter.md R161). -/
def CountsUnits (us : List Nat) (hist : Vector Nat 257) : Prop :=
  ∀ x : Sym, rdSym hist x = if x = sentinel then 1 else us.count x.val

/-- The sentinel is no unit. -/
theorem count_units_sentinel (bs : List Bool) : (units bs).count sentinel.val = 0 :=
  List.count_eq_zero.2 fun h => lt_irrefl _ (units_lt bs _ h)

theorem runHist_counts (hle : ∀ x : Sym, (units s.src.rest).count x.val ≤ wmax s.cfg) :
    ∃ hist, runHist s = .next { s with src := s.src.advance (8 * (units s.src.rest).length), hist := hist } ∧
      CountsUnits (units s.src.rest) hist := by
  obtain ⟨h, he, hc⟩ := countUnits_ok (wmax s.cfg) _ s.src (Vector.replicate 257 0) le_rfl (by simpa using hle)
  refine ⟨wrSym h sentinel (max (rdSym h sentinel) 1), by simp only [runHist, he], fun x => ?_⟩
  have hsent : rdSym h sentinel = 0 := by rw [hc, rdSym_replicate, count_units_sentinel]
  rw [rdSym_wrSym]
  by_cases hx : x = sentinel
  · rw [if_pos hx.symm, if_pos hx, hsent]; rfl
  · rw [if_neg (Ne.symm hx), if_neg hx, hc, rdSym_replicate, Nat.zero_add]

theorem runHist_overflow {pre post : List Nat} {u : Nat} (hus : units s.src.rest = pre ++ u :: post)
    (hu : pre.count u = wmax s.cfg) (hle : ∀ x : Sym, pre.count x.val ≤ wmax s.cfg) :
    ∃ hist, runHist s =
        .next (raise .overflow u { s with src := s.src.advance (8 * (pre.length + 1)), hist := hist }) ∧
      ∀ x : Sym, rdSym hist x = pre.count x.val := by
  have hlt : u < 256 := units_lt s.src.rest u (by rw [hus]; simp)
  obtain ⟨h, he, hc⟩ := countUnits_overflow (wmax s.cfg) pre _ s.src (Vector.replicate 257 0) u post le_rfl hus
    (by simpa using hu) (by simpa using hle)
  exact ⟨h, by simp only [runHist, he, unitSym_val hlt], fun x => by rw [hc, rdSym_replicate, Nat.zero_add]⟩

/-- Where some count exceeds a bound there is a first unit that makes it do so. -/
theorem exists_first_excess (b : Nat) (us : List Nat) : ∀ post : List Nat, (∃ x, b < us.count x) →
    ∃ pre u post', us ++ post = pre ++ u :: post' ∧ pre.count u = b ∧ ∀ x, pre.count x ≤ b := by
  induction us using List.reverseRecOn with
  | nil => rintro post ⟨x, hx⟩; simp at hx
  | append_singleton us u ih =>
    rintro post ⟨x, hx⟩
    by_cases hb : ∃ y, b < us.count y
    · obtain ⟨pre, v, post', he, hv⟩ := ih (u :: post) hb
      exact ⟨pre, v, post', by simpa using he, hv⟩
    · simp only [not_exists, not_lt] at hb
      refine ⟨us, u, post, by simp, ?_, hb⟩
      have hux : u = x := by
        by_contra hne
        rw [List.count_append, List.count_singleton, if_neg (by simpa using hne), Nat.add_zero] at hx
        exact absurd (hb x) (by omega)
      subst hux
      rw [List.count_append, List.count_singleton_self] at hx
      have := hb u
      omega

theorem histTotal_eq_sum (hist : Vector Nat 257) : histTotal hist = ∑ x : Sym, rdSym hist x := by
  have hv : hist = Vector.ofFn (rdSym hist) := rdSym_ext fun x => by simp [rdSym]
  conv_lhs => rw [histTotal, hv, Vector.toList_ofFn, List.sum_ofFn]

/-- The counts of numbers below 256 add up to how many there are. -/
theorem sum_count_of_lt {us : List Nat} (h : ∀ u ∈ us, u < 256) : ∑ x : Fin 256, us.count x.val = us.length := by
  rw [Fin.sum_univ_eq_sum_range (fun x => us.count x) 256]
  simpa only [Multiset.coe_count, Multiset.coe_card] using
    Multiset.sum_count_eq_card (m := (us : Multiset Nat)) fun u hu => Finset.mem_range.2 (h u hu)

/-- The total of the units' histogram (41_tree_builder.md R180). -/
theorem CountsUnits.total {us : List Nat} {hist : Vector Nat 257} (hc : CountsUnits us hist)
    (hlt : ∀ u ∈ us, u < 256) : histTotal hist = us.length + 1 := by
  rw [histTotal_eq_sum, Fin.sum_univ_castSucc, hc (Fin.last 256),
    if_pos (show Fin.last 256 = sentinel from rfl), ← sum_count_of_lt hlt]
  refine congrArg (· + 1) (Finset.sum_congr rfl fun x _ => ?_)
  have hne : x.castSucc ≠ sentinel := Fin.ne_of_lt (Fin.castSucc_lt_last x)
  rw [hc, if_neg hne, Fin.val_castSucc]

theorem CountsUnits.sentinel_eq {us : List Nat} {hist : Vector Nat 257} (hc : CountsUnits us hist) :
    rdSym hist sentinel = 1 :=
  (hc sentinel).trans (if_pos rfl)

theorem CountsUnits.pos_of_mem {us : List Nat} {hist : Vector Nat 257} (hc : CountsUnits us hist) {x : Sym}
    (hx : x.val < 256) (hmem : x.val ∈ us) : 0 < rdSym hist x := by
  have hne : x ≠ sentinel := fun h => absurd (congrArg Fin.val h) hx.ne
  rw [hc, if_neg hne]
  exact List.count_pos_iff.2 hmem

theorem CountsUnits.le {us : List Nat} {hist : Vector Nat 257} (hc : CountsUnits us hist) {b : Nat} (hb : 1 ≤ b)
    (hle : ∀ x, us.count x ≤ b) (x : Sym) : rdSym hist x ≤ b := by
  rw [hc]
  split
  · exact hb
  · exact hle x.val

/-! ### GENCODE and WRTREE -/

/-- A walk over a valid tree has the fuel for its nodes and for the look at the empty stack. -/
theorem Tree.Valid.walkFuel_eq {t : Tree} (hv : t.Valid) : ∃ f, walkFuel = t.size + (f + 1) :=
  ⟨513 - t.size, by have := hv.size_le; rw [walkFuel, maxNodes]; omega⟩

/-- The table filled from the root holds each symbol's entry (42_code_generator.md R190). -/
theorem Tree.rdSym_fill_root {t : Tree} (hv : t.Valid) (x : Sym) :
    rdSym (t.fill 0 0 (Vector.replicate 257 CodeEntry.none)) x = t.entryOf x.val := by
  have hfill := t.rdSym_fill [] (Vector.replicate 257 CodeEntry.none) x hv.2.1
  rw [rdSym_replicate] at hfill
  exact hfill

theorem runGencode_table {tr : Tree} (htv : s.tv = true) (ht : treeOf s.node s.root.toNat = some tr) (hv : tr.Valid) :
    ∃ code, runGencode s =
        .next { s with hidden := { s.hidden with stk := [] }, code := code, cv := true } ∧
      ∀ x : Sym, rdSym code x = tr.entryOf x.val := by
  obtain ⟨is, hat⟩ := treeOf_eq_some.1 ht
  obtain ⟨f, hf⟩ := hv.walkFuel_eq
  refine ⟨tr.fill 0 0 (Vector.replicate 257 CodeEntry.none), ?_, Tree.rdSym_fill_root hv⟩
  rw [runGencode, if_pos htv, hf, genLoop_subtree tr maxNodes _ is _ (f + 1) [] _ hat rfl hv.1]
  rfl

theorem runWrtree_ser {tr : Tree} (htv : s.tv = true) (ht : treeOf s.node s.root.toNat = some tr) (hv : tr.Valid)
    (hopen : s.snk.closed = false) :
    runWrtree s = .next { s with hidden := { s.hidden with stk := [] },
                                 snk := { bits := s.snk.bits ++ tr.ser, closed := false } } := by
  obtain ⟨is, hat⟩ := treeOf_eq_some.1 ht
  obtain ⟨f, hf⟩ := hv.walkFuel_eq
  rw [runWrtree, if_pos htv, hf, Sink.eq_of_open hopen, serLoop_subtree tr maxNodes _ is _ (f + 1) [] _ hat rfl]
  rfl

/-! ### WRMAGIC, ENCODE, FLUSH -/

theorem runWrmagic_marker (hopen : s.snk.closed = false) :
    runWrmagic s = .next { s with snk := { bits := s.snk.bits ++ bitsN 32 s.cfg.magic.toNat, closed := false } } := by
  rw [runWrmagic, Sink.eq_of_open hopen, snkWrite_open, mapOut_next]

theorem runEncode_payload (hcv : s.cv = true) (hopen : s.snk.closed = false)
    (hvalid : ∀ u ∈ units s.src.rest, (rdSym s.code (unitSym u)).valid = true) :
    runEncode s =
      .next { s with src := s.src.advance (8 * (units s.src.rest).length),
                     snk := { bits := s.snk.bits ++ payload s.code (units s.src.rest), closed := false } } := by
  rw [runEncode, if_pos hcv, Sink.eq_of_open hopen, encodeLoop_ok s.code _ s.src s.snk.bits le_rfl hvalid, bindOut_next]
  simp only [snkWrite_open, mapOut_next, payload, codeString, List.append_assoc]

theorem runFlush_pads (hopen : s.snk.closed = false) :
    runFlush s = .next { s with snk := { bits := s.snk.bits ++ List.replicate (padBits s.snk.bits.length) false,
                                         closed := true } } := by
  rw [runFlush, snkFlush_eq_next.2 ⟨hopen, rfl⟩, mapOut_next]

/-! ### The payload -/

/-- With the code table of a valid tree the payload is the tree's code words (30_encoding.md R125). -/
theorem payload_eq_codeWords {tr : Tree} {code : Vector CodeEntry 257} {us : List Nat} (hv : tr.Valid)
    (hcode : ∀ x : Sym, rdSym code x = tr.entryOf x.val) (hlt : ∀ u ∈ us, u < 256) :
    payload code us = tr.codeWords us := by
  have hstring : ∀ x : Sym, codeString (rdSym code x) = (tr.codeOf x.val).getD [] := fun x => by
    rw [hcode, hv.codeString_entryOf]
  rw [payload, Tree.codeWords, hstring sentinel]
  congr 1
  exact List.flatMap_congr fun u hu => by rw [hstring, unitSym_val (hlt u hu)]

end Sys2Proof.Machine
end

section
/-! PROOFS. BUILD: the nodes made so far are a forest whose roots are the priority set; a merge keeps it a forest over
the same leaves, and the last root stands over all of them (41_tree_builder.md R170 to R178, R183). -/

namespace Sys2Proof.Machine

/-! ### Trees in a node memory -/

theorem treeAt_leaf {node : List Node} {i : Nat} {n : Node} (k : Nat) (hn : nodeNat node i = some n)
    (hl : n.leaf = true) : treeAt (k + 1) node i = some (.leaf n.sym n.weight, [i]) := by
  rw [treeAt, hn]
  exact if_pos hl

theorem treeAt_node {k : Nat} {node : List Node} {i : Nat} {n : Node} {l r : Tree} {ls rs : List Nat}
    (hn : nodeNat node i = some n) (hl : n.leaf = false) (h1 : treeAt k node n.left.toNat = some (l, ls))
    (h2 : treeAt k node n.right.toNat = some (r, rs)) :
    treeAt (k + 1) node i = some (.node n.weight l r, i :: (ls ++ rs)) := by
  rw [treeAt, hn]
  simp only [hl, Bool.false_eq_true, if_false, h1, h2]

theorem nodeNat_append {node : List Node} {i : Nat} {n : Node} (more : List Node) (h : nodeNat node i = some n) :
    nodeNat (node ++ more) i = some n := by
  obtain ⟨hi, -⟩ := List.getElem?_eq_some_iff.1 h
  exact (List.getElem?_append_left hi).trans h

/-- More fuel and more nodes leave a tree as it is. -/
theorem treeAt_mono {node : List Node} (more : List Node) (t : Tree) : ∀ {k k' i : Nat} {is : List Nat},
    treeAt k node i = some (t, is) → k ≤ k' → treeAt k' (node ++ more) i = some (t, is) := by
  induction t with
  | leaf s w =>
    intro k k' i is h hk
    obtain ⟨m, n, rfl, hn, ⟨hl, ht, rfl⟩ | ⟨-, l, r, ls, rs, -, -, ht, -⟩⟩ := treeAt_cases h
    · cases ht
      obtain ⟨k', rfl⟩ : ∃ j, k' = j + 1 := ⟨k' - 1, by omega⟩
      exact treeAt_leaf k' (nodeNat_append more hn) hl
    · cases ht
  | node w l r ihl ihr =>
    intro k k' i is h hk
    obtain ⟨m, n, rfl, hn, ⟨-, ht, -⟩ | ⟨hl, l', r', ls, rs, h1, h2, ht, rfl⟩⟩ := treeAt_cases h
    · cases ht
    · cases ht
      obtain ⟨k', rfl⟩ : ∃ j, k' = j + 1 := ⟨k' - 1, by omega⟩
      have hk : m ≤ k' := by omega
      exact treeAt_node (nodeNat_append more hn) hl (ihl h1 hk) (ihr h2 hk)

theorem treeAt_lt {k : Nat} {node : List Node} {i : Nat} {t : Tree} {is : List Nat}
    (h : treeAt k node i = some (t, is)) : i < node.length := by
  obtain ⟨-, n, -, hn, -⟩ := treeAt_cases h
  exact (List.getElem?_eq_some_iff.1 hn).1

theorem weightOf_of_treeAt {k : Nat} {node : List Node} {i : Nat} {t : Tree} {is : List Nat}
    (h : treeAt k node i = some (t, is)) : weightOf node i = t.weight := by
  obtain ⟨-, n, -, hn, ⟨-, rfl, -⟩ | ⟨-, l, r, ls, rs, -, -, rfl, -⟩⟩ := treeAt_cases h <;>
    simp only [weightOf, hn, Tree.weight]

theorem treeAt_visits_length {node : List Node} (t : Tree) : ∀ {k i : Nat} {is : List Nat},
    treeAt k node i = some (t, is) → is.length = t.size := by
  induction t with
  | leaf s w =>
    intro k i is h
    obtain ⟨m, n, -, -, ⟨-, -, rfl⟩ | ⟨-, l, r, ls, rs, -, -, ht, -⟩⟩ := treeAt_cases h
    · rfl
    · cases ht
  | node w l r ihl ihr =>
    intro k i is h
    obtain ⟨m, n, -, -, ⟨-, ht, -⟩ | ⟨-, l', r', ls, rs, h1, h2, ht, rfl⟩⟩ := treeAt_cases h
    · cases ht
    · cases ht
      have := ihl h1
      have := ihr h2
      simp only [Tree.size, List.length_cons, List.length_append]
      omega

theorem Tree.leaves_map_fst (t : Tree) : t.leaves.map Prod.fst = t.syms := by
  induction t with
  | leaf s w => rfl
  | node w l r hl hr => simp only [Tree.leaves, Tree.syms, List.map_append, hl, hr]

theorem Tree.size_eq_leaves (t : Tree) : t.size + 1 = 2 * t.leaves.length := by
  rw [t.size_eq, ← t.leaves_map_fst, List.length_map]

/-- Where every internal weight is a sum, the root's is the sum of the leaves'. -/
theorem Tree.sum_leaves {t : Tree} (h : t.summed = true) : (t.leaves.map Prod.snd).sum = t.weight := by
  induction t with
  | leaf s w => rfl
  | node w l r hl hr =>
    simp only [Tree.summed, Bool.and_eq_true, decide_eq_true_eq] at h
    obtain ⟨⟨hw, hsl⟩, hsr⟩ := h
    rw [Tree.leaves, List.map_append, List.sum_append, hl hsl, hr hsr, Tree.weight, hw]

/-! ### The forest -/

/-- The nodes made so far are the trees `f i` of the roots i in the priority set: over the leaves L, each node in one of
them, each weight a sum. A tree needs no more levels than its root's index, since children come first. -/
structure Forest (L : List (Nat × Nat)) (node : List Node) (pq : List Nat) (f : Nat → Tree × List Nat) : Prop where
  nodup : pq.Nodup
  treeAt_root : ∀ i ∈ pq, treeAt (i + 1) node i = some (f i)
  summed : ∀ i ∈ pq, (f i).1.summed = true
  leaves : (pq.flatMap fun i => (f i).1.leaves).Perm L
  visits : (pq.flatMap fun i => (f i).2).Perm (List.range node.length)

variable {L : List (Nat × Nat)} {node : List Node} {pq : List Nat} {f : Nat → Tree × List Nat}

theorem Forest.perm (h : Forest L node pq f) {pq' : List Nat} (hp : pq.Perm pq') : Forest L node pq' f where
  nodup := hp.nodup_iff.1 h.nodup
  treeAt_root i hi := h.treeAt_root i (hp.mem_iff.2 hi)
  summed i hi := h.summed i (hp.mem_iff.2 hi)
  leaves := (hp.symm.flatMap_right _).trans h.leaves
  visits := (hp.symm.flatMap_right _).trans h.visits

/-- The weights of the roots add up to those of the leaves. -/
theorem Forest.total (h : Forest L node pq f) : (L.map Prod.snd).sum = (pq.map (weightOf node)).sum := by
  rw [← (h.leaves.map Prod.snd).sum_eq, List.map_flatMap, List.flatMap_def, List.sum_flatten, List.map_map]
  exact congrArg List.sum (List.map_congr_left fun i hi =>
    (Tree.sum_leaves (h.summed i hi)).trans (weightOf_of_treeAt (h.treeAt_root i hi)).symm)

/-- Each tree has one node less than twice its leaves. -/
theorem Forest.length_eq (h : Forest L node pq f) : node.length + pq.length = 2 * L.length := by
  have key : ∀ l : List Nat, (∀ i ∈ l, (f i).2.length + 1 = 2 * (f i).1.leaves.length) →
      (l.flatMap fun i => (f i).2).length + l.length = 2 * (l.flatMap fun i => (f i).1.leaves).length := by
    intro l
    induction l with
    | nil => simp
    | cons i l ih =>
      intro hl
      obtain ⟨hi, hl⟩ := List.forall_mem_cons.1 hl
      have := ih hl
      simp only [List.flatMap_cons, List.length_append, List.length_cons]
      omega
  have := key pq fun i hi => by rw [treeAt_visits_length _ (h.treeAt_root i hi), Tree.size_eq_leaves]
  rwa [h.visits.length_eq, h.leaves.length_eq, List.length_range] at this

/-- The node a merge adds. -/
def mergedNode (node : List Node) (a b : Nat) : Node :=
  internalNode (BitVec.ofNat 10 a) (BitVec.ofNat 10 b) (weightOf node a + weightOf node b)

/-- The tree a merge adds. -/
def mergedTree (node : List Node) (f : Nat → Tree × List Nat) (a b : Nat) : Tree × List Nat :=
  (.node (weightOf node a + weightOf node b) (f a).1 (f b).1, node.length :: ((f a).2 ++ (f b).2))

theorem Forest.lt (h : Forest L node pq f) {i : Nat} (hi : i ∈ pq) : i < node.length :=
  treeAt_lt (h.treeAt_root i hi)

theorem forall_mem_append_update {n : Nat} (hn : n ∉ pq) {x : Tree × List Nat} {P : Nat → Tree × List Nat → Prop}
    (hold : ∀ i ∈ pq, P i (f i)) (hnew : P n x) : ∀ i ∈ pq ++ [n], P i (Function.update f n x i) := by
  intro i hi
  rcases List.mem_append.1 hi with hi | hi
  · rw [Function.update_of_ne (ne_of_mem_of_not_mem hi hn)]
    exact hold i hi
  · obtain rfl := List.mem_singleton.1 hi
    rw [Function.update_self]
    exact hnew

theorem flatMap_append_update {α : Type} {n : Nat} (hn : n ∉ pq) (x : Tree × List Nat) (g : Tree × List Nat → List α) :
    ((pq ++ [n]).flatMap fun i => g (Function.update f n x i)) = (pq.flatMap fun i => g (f i)) ++ g x := by
  rw [List.flatMap_append, List.flatMap_singleton, Function.update_self]
  refine congrArg (· ++ g x) (List.flatMap_congr fun i hi => ?_)
  rw [Function.update_of_ne (ne_of_mem_of_not_mem hi hn)]

/-- The node a merge adds holds the tree it adds. -/
theorem treeAt_mergedNode {a b : Nat} (ha : treeAt (a + 1) node a = some (f a))
    (hb : treeAt (b + 1) node b = some (f b)) (hroom : node.length ≤ 1024) :
    treeAt (node.length + 1) (node ++ [mergedNode node a b]) node.length = some (mergedTree node f a b) := by
  have halt := treeAt_lt ha
  have hblt := treeAt_lt hb
  refine treeAt_node (n := mergedNode node a b) List.getElem?_concat_length rfl ?_ ?_
  · rw [show (mergedNode node a b).left.toNat = a from Nat.mod_eq_of_lt (by omega)]
    exact treeAt_mono _ _ ha halt
  · rw [show (mergedNode node a b).right.toNat = b from Nat.mod_eq_of_lt (by omega)]
    exact treeAt_mono _ _ hb hblt

theorem mergedTree_summed {a b : Nat} (ha : treeAt (a + 1) node a = some (f a))
    (hb : treeAt (b + 1) node b = some (f b)) (sa : (f a).1.summed = true) (sb : (f b).1.summed = true) :
    (mergedTree node f a b).1.summed = true := by
  rw [mergedTree, Tree.summed, weightOf_of_treeAt ha, weightOf_of_treeAt hb, sa, sb]
  simp

/-- A merge joins two trees under a new root (41_tree_builder.md R174). -/
theorem Forest.merge {a b : Nat} {rest : List Nat} (h : Forest L node (a :: b :: rest) f)
    (hroom : node.length ≤ 1024) :
    Forest L (node ++ [mergedNode node a b]) (rest ++ [node.length])
      (Function.update f node.length (mergedTree node f a b)) := by
  have hnew : node.length ∉ rest := fun hm => (h.lt (List.mem_cons_of_mem _ (List.mem_cons_of_mem _ hm))).ne rfl
  obtain ⟨ta, hta⟩ := List.forall_mem_cons.1 h.treeAt_root
  obtain ⟨tb, trest⟩ := List.forall_mem_cons.1 hta
  obtain ⟨sa, hsa⟩ := List.forall_mem_cons.1 h.summed
  obtain ⟨sb, srest⟩ := List.forall_mem_cons.1 hsa
  have hleaves := h.leaves
  have hvisits := h.visits
  rw [List.flatMap_cons, List.flatMap_cons, ← List.append_assoc] at hleaves hvisits
  refine ⟨?_, ?_, ?_, ?_, ?_⟩
  · rw [← List.concat_eq_append]
    exact (List.nodup_cons.1 (List.nodup_cons.1 h.nodup).2).2.concat hnew
  · exact forall_mem_append_update
      (P := fun i q => treeAt (i + 1) (node ++ [mergedNode node a b]) i = some q) hnew
      (fun i hi => treeAt_mono _ _ (trest i hi) le_rfl) (treeAt_mergedNode ta tb hroom)
  · exact forall_mem_append_update (P := fun _ q => q.1.summed = true) hnew srest (mergedTree_summed ta tb sa sb)
  · refine (List.Perm.of_eq (flatMap_append_update hnew _ fun q => q.1.leaves)).trans ?_
    exact List.perm_append_comm.trans hleaves
  · refine (List.Perm.of_eq (flatMap_append_update hnew _ Prod.snd)).trans ?_
    rw [List.length_append, List.length_singleton, List.range_succ]
    exact List.perm_append_comm.trans ((hvisits.cons node.length).trans (List.perm_append_singleton _ _).symm)

/-! ### The merge loop -/

/-- The merge loop joins the forest to one tree, or stops at a sum above `WMAX`, which the total then exceeds too
(41_tree_builder.md R172, R175, R178). -/
theorem mergeLoop_forest (wm : Nat) (hL : L.length ≤ 257) : ∀ (k : Nat) (node : List Node) (pq : List Nat)
    (f : Nat → Tree × List Nat), Forest L node pq f → pq ≠ [] → pq.length ≤ k →
    ((mergeLoop wm k node pq).overflow = true ∧ wm < (L.map Prod.snd).sum) ∨
    ((mergeLoop wm k node pq).overflow = false ∧
      ∃ r g, (mergeLoop wm k node pq).pq = [r] ∧ Forest L (mergeLoop wm k node pq).node [r] g) := by
  intro k
  induction k with
  | zero =>
    intro node pq f _ hne hk
    exact absurd (List.eq_nil_of_length_eq_zero (Nat.le_zero.1 hk)) hne
  | succ k ih =>
    intro node pq f h hne hk
    cases ha : popLeast node pq with
    | none => exact absurd (popLeast_eq_none ha) hne
    | some p =>
      obtain ⟨a, pq1⟩ := p
      obtain ⟨hpa, hnd1, -⟩ := popLeast_eq_some h.nodup ha
      cases hb : popLeast node pq1 with
      | none =>
        have hpq : pq = [a] := List.perm_singleton.1 (popLeast_eq_none hb ▸ hpa)
        simp only [mergeLoop, ha, hb]
        exact .inr ⟨trivial, a, f, hpq, hpq ▸ h⟩
      | some p =>
        obtain ⟨b, pq2⟩ := p
        obtain ⟨hpb, -, -⟩ := popLeast_eq_some hnd1 hb
        have hperm : pq.Perm (a :: b :: pq2) := hpa.trans (hpb.cons a)
        have hf := h.perm hperm
        have hlen := hperm.length_eq
        simp only [List.length_cons] at hlen
        simp only [mergeLoop, ha, hb]
        by_cases hw : wm < weightOf node a + weightOf node b
        · have htotal := hf.total
          simp only [List.map_cons, List.sum_cons] at htotal
          rw [if_pos hw]
          exact .inl ⟨rfl, by omega⟩
        · have hroom := hf.length_eq
          simp only [List.length_cons] at hroom
          rw [if_neg hw]
          exact ih _ _ _ (hf.merge (by omega)) (by simp)
            (by simp only [List.length_append, List.length_singleton]; omega)

/-! ### The leaves -/

/-- The symbol and weight of a leaf entry. -/
def leafPair (n : Node) : Nat × Nat := (n.sym.toNat, n.weight)

theorem leafNodes_leaf {n : Node} {cs : List Nat} : ∀ {k}, n ∈ leafNodes k cs → n.leaf = true := by
  induction cs with
  | nil => intro k hn; cases hn
  | cons c cs ih =>
    intro k hn
    simp only [leafNodes] at hn
    split at hn
    · obtain rfl | hn := List.mem_cons.1 hn
      · rfl
      · exact ih hn
    · exact ih hn

/-- The leaves are the counts above 0 with their places (41_tree_builder.md R171). -/
theorem leafNodes_map_leafPair (cs : List Nat) : ∀ k, k + cs.length ≤ 512 →
    (leafNodes k cs).map leafPair = ((cs.zipIdx k).filter fun c => 0 < c.1).map Prod.swap := by
  induction cs with
  | nil => intro k _; rfl
  | cons c cs ih =>
    intro k hk
    rw [List.length_cons] at hk
    have hsym : leafPair (leafNode (BitVec.ofNat 9 k) c) = (k, c) :=
      Prod.ext (Nat.mod_eq_of_lt (show k < 2 ^ 9 by omega)) rfl
    rw [leafNodes, List.zipIdx_cons, List.filter_cons]
    simp only [decide_eq_true_eq]
    split
    · rw [List.map_cons, hsym, ih (k + 1) (by omega)]
      rfl
    · exact ih (k + 1) (by omega)

theorem leafNodes_weights_sum (cs : List Nat) : ∀ k, ((leafNodes k cs).map Node.weight).sum = cs.sum := by
  induction cs with
  | nil => intro k; rfl
  | cons c cs ih =>
    intro k
    rw [leafNodes]
    split
    · rw [List.map_cons, List.sum_cons, ih, List.sum_cons]; rfl
    · rw [ih, List.sum_cons]; omega

/-- The leaves of a histogram as symbols and counts. -/
def histPairs (hist : Vector Nat 257) : List (Nat × Nat) := (histLeafNodes hist).map leafPair

theorem mem_histPairs {hist : Vector Nat 257} {x c : Nat} :
    (x, c) ∈ histPairs hist ↔ hist.toList[x]? = some c ∧ 0 < c := by
  rw [histPairs, histLeafNodes, leafNodes_map_leafPair _ _ (by simp)]
  simp [List.mk_mem_zipIdx_iff_getElem?]

theorem mem_histPairs_fst {hist : Vector Nat 257} {x : Nat} :
    x ∈ (histPairs hist).map Prod.fst ↔ ∃ h : x < 257, 0 < rdSym hist ⟨x, h⟩ := by
  simp only [List.mem_map, Prod.exists, mem_histPairs, List.getElem?_eq_some_iff, exists_and_right, exists_eq_right]
  constructor
  · rintro ⟨c, ⟨h, rfl⟩, hc⟩
    exact ⟨by simpa using h, by simpa [rdSym] using hc⟩
  · rintro ⟨h, hc⟩
    exact ⟨_, ⟨by simpa using h, rfl⟩, by simpa [rdSym] using hc⟩

theorem histPairs_nodup (hist : Vector Nat 257) : ((histPairs hist).map Prod.fst).Nodup := by
  rw [histPairs, histLeafNodes, leafNodes_map_leafPair _ _ (by simp), List.map_map]
  have hsub := (List.filter_sublist (p := fun c => 0 < c.1) (l := hist.toList.zipIdx)).map Prod.snd
  rw [List.zipIdx_map_snd] at hsub
  exact hsub.nodup List.nodup_range'

theorem histPairs_total (hist : Vector Nat 257) : ((histPairs hist).map Prod.snd).sum = histTotal hist := by
  rw [histPairs, List.map_map]
  exact leafNodes_weights_sum _ 0

theorem histPairs_length_le (hist : Vector Nat 257) : (histPairs hist).length ≤ 257 := by
  rw [histPairs, List.length_map]
  exact histLeafNodes_length_le hist

/-- The single leaf at index i. -/
def leafTreeAt (lvs : List Node) (i : Nat) : Tree × List Nat :=
  (.leaf (lvs.getD i default).sym (lvs.getD i default).weight, [i])

/-- BUILD begins with a forest of single leaves (41_tree_builder.md R171). -/
theorem forest_of_leaves {lvs : List Node} (h : ∀ n ∈ lvs, n.leaf = true) :
    Forest (lvs.map leafPair) lvs (List.range lvs.length) (leafTreeAt lvs) where
  nodup := List.nodup_range
  treeAt_root i hi := by
    have hi := List.mem_range.1 hi
    have hn : nodeNat lvs i = some (lvs.getD i default) := by simp [nodeNat, hi]
    exact treeAt_leaf i hn (h _ (List.mem_of_getElem? hn))
  summed _ _ := rfl
  leaves := by
    have hmap : ((List.range lvs.length).flatMap fun i => (leafTreeAt lvs i).1.leaves) =
        (List.range lvs.length).map fun i => leafPair (lvs.getD i default) := List.map_eq_flatMap.symm
    rw [hmap]
    exact List.Perm.of_eq (List.ext_getElem (by simp) fun i h1 h2 => by
      have hi : i < lvs.length := by simpa using h2
      simp [hi])
  visits := by simp [leafTreeAt]

/-! ### BUILD -/

variable {s : State}

/-- A histogram with the sentinel gives at least one leaf. -/
theorem range_histLeafNodes_ne_nil {hist : Vector Nat 257} (h : rdSym hist sentinel ≠ 0) :
    List.range (histLeafNodes hist).length ≠ [] := by
  have hmem := mem_histPairs_fst.2 ⟨sentinel.isLt, Nat.pos_of_ne_zero h⟩
  intro hnil
  have hempty : histLeafNodes hist = [] := List.eq_nil_of_length_eq_zero (List.range_eq_nil.1 hnil)
  rw [histPairs, hempty] at hmem
  cases hmem

/-- BUILD's merge loop ends with one tree over the histogram's leaves, or overflows. -/
theorem mergeLeaves_forest {hist : Vector Nat 257} (h : rdSym hist sentinel ≠ 0) (wm : Nat) :
    ((mergeLeaves wm (histLeafNodes hist)).overflow = true ∧ wm < histTotal hist) ∨
    ((mergeLeaves wm (histLeafNodes hist)).overflow = false ∧
      ∃ r g, (mergeLeaves wm (histLeafNodes hist)).pq = [r] ∧
        Forest (histPairs hist) (mergeLeaves wm (histLeafNodes hist)).node [r] g) := by
  rw [← histPairs_total]
  exact mergeLoop_forest wm (histPairs_length_le _) _ _ _ _ (forest_of_leaves fun _ hn => leafNodes_leaf hn)
    (range_histLeafNodes_ne_nil h) (by simp)

/-- The leaves of the one tree over a histogram are the symbols with a count above 0. -/
theorem Forest.mem_syms {hist : Vector Nat 257} {r : Nat} (h : Forest (histPairs hist) node [r] f) {x : Nat} :
    x ∈ (f r).1.syms ↔ ∃ hx : x < 257, 0 < rdSym hist ⟨x, hx⟩ := by
  have hleaves : (f r).1.leaves.Perm (histPairs hist) := by simpa using h.leaves
  rw [← Tree.leaves_map_fst, (hleaves.map Prod.fst).mem_iff, mem_histPairs_fst]

/-- That tree is valid when the sentinel is counted (10_state.md R41). -/
theorem Forest.valid {hist : Vector Nat 257} {r : Nat} (h : Forest (histPairs hist) node [r] f)
    (hsent : rdSym hist sentinel ≠ 0) : (f r).1.Valid := by
  have hleaves : (f r).1.leaves.Perm (histPairs hist) := by simpa using h.leaves
  refine ⟨fun x hx => ?_, ?_, h.mem_syms.2 ⟨sentinel.isLt, Nat.pos_of_ne_zero hsent⟩⟩
  · obtain ⟨hlt, -⟩ := h.mem_syms.1 hx
    exact Nat.le_of_lt_succ hlt
  · rw [← Tree.leaves_map_fst]
    exact (hleaves.map Prod.fst).nodup_iff.2 (histPairs_nodup hist)

/-- Its root is one of the at most 513 nodes, and 513 levels are enough to read it. -/
theorem Forest.treeOf_root {r : Nat} (h : Forest L node [r] f) (hL : L.length ≤ 257) :
    treeOf node (BitVec.ofNat 10 r).toNat = some (f r).1 := by
  have hat := h.treeAt_root r (List.mem_singleton_self r)
  have hr := treeAt_lt hat
  have hlen := h.length_eq
  rw [List.length_singleton] at hlen
  rw [BitVec.toNat_ofNat, Nat.mod_eq_of_lt (by omega)]
  have hmax := treeAt_mono [] (f r).1 (k' := maxNodes) hat (by rw [maxNodes]; omega)
  rw [List.append_nil] at hmax
  exact treeOf_eq_some.2 ⟨_, hmax⟩

/-- BUILD of a histogram whose total fits makes a valid tree with a leaf for each symbol counted (41_tree_builder.md
R170, R180). -/
theorem runBuild_tree (hsent : rdSym s.hist sentinel ≠ 0) (htotal : histTotal s.hist ≤ wmax s.cfg) :
    ∃ m tr, runBuild s = .next (builtState m s) ∧ treeOf m.node (builtState m s).root.toNat = some tr ∧ tr.Valid ∧
      ∀ x : Sym, x.val ∈ tr.syms ↔ 0 < rdSym s.hist x := by
  obtain ⟨-, hover⟩ | ⟨hno, r, g, hr, hg⟩ := mergeLeaves_forest hsent (wmax s.cfg)
  · omega
  · refine ⟨_, (g r).1, runBuild_built hsent hno, ?_, hg.valid hsent, fun x => ?_⟩
    · rw [builtState, hr]
      exact hg.treeOf_root (histPairs_length_le _)
    · rw [hg.mem_syms]
      exact ⟨fun ⟨_, h⟩ => h, fun h => ⟨x.isLt, h⟩⟩

theorem weightOf_le {b : Nat} (h : ∀ n ∈ node, n.weight ≤ b) (i : Nat) : weightOf node i ≤ b := by
  unfold weightOf
  split
  · rename_i n hn
    exact h n (List.mem_of_getElem? hn)
  · exact Nat.zero_le b

/-- BUILD of a histogram whose entries fit and whose total does not raises Overflow (41_tree_builder.md R178): the root
would weigh the total, and no node weighs more than `WMAX`. -/
theorem runBuild_total_overflow (hsent : rdSym s.hist sentinel ≠ 0) (hle : ∀ x : Sym, rdSym s.hist x ≤ wmax s.cfg)
    (htotal : wmax s.cfg < histTotal s.hist) :
    runBuild s = .next (failTree .overflow 0x100 (dropTree s)) := by
  obtain ⟨ho, -⟩ | ⟨-, r, g, -, hg⟩ := mergeLeaves_forest hsent (wmax s.cfg)
  · exact runBuild_overflow hsent ho
  · have hbound := (mergeLoop_bound (wmax s.cfg) (histLeafNodes s.hist).length _
      (List.range (histLeafNodes s.hist).length) (histLeafNodes_weight_le hle)).1
    have hroot : weightOf _ r ≤ wmax s.cfg := weightOf_le hbound r
    have hsum := hg.total
    rw [histPairs_total, List.map_singleton, List.sum_singleton] at hsum
    exact absurd (hsum.trans_le hroot) (by omega)

end Sys2Proof.Machine
end

section
/-! PROOFS. RDMAGIC, RDTREE and DECODE on the parts of an artifact, whole and cut short (43_tree_serial.md R210 to R220,
45_decoder.md R255 to R261). -/

namespace Sys2Proof.Machine

variable {s : State}

/-! ### RDMAGIC -/

theorem runRdmagic_marker {more : List Bool} (hr : s.src.rest = bitsN 32 s.cfg.magic.toNat ++ more) :
    runRdmagic s = .next { s with src := s.src.advance 32, seqr := .idle } := by
  have hread : srcRead 32 s.src = some (s.cfg.magic.toNat, s.src.advance 32) := by
    rw [srcRead_of_le s.src (by decide) (by simp [hr]), hr, List.take_left' (by simp),
      bitsVal_bitsN_of_lt s.cfg.magic.isLt]
  simp only [runRdmagic, hread, checkMarker, BitVec.ofNat_toNat, BitVec.setWidth_eq, if_true]

theorem runRdmagic_short (hr : s.src.rest.length < 32) : runRdmagic s = .next (raise .badMagic 0 s) := by
  simp only [runRdmagic, srcRead_of_lt s.src hr]

/-! ### What RDTREE stores -/

theorem Tree.unweighted_ser (t : Tree) : t.unweighted.ser = t.ser := by
  induction t with
  | leaf s w => rfl
  | node w l r hl hr => simp only [Tree.unweighted, Tree.ser, hl, hr]

theorem Tree.internals_eq (t : Tree) : t.internals + 1 = t.syms.length := by
  induction t with
  | leaf s w => rfl
  | node w l r hl hr =>
    simp only [Tree.internals, Tree.syms, List.length_append]
    omega

theorem Tree.size_pos (t : Tree) : 1 ≤ t.size := by
  cases t with
  | leaf s w => exact le_rfl
  | node w l r => simp only [Tree.size]; omega

theorem Tree.size_le_ser_length (t : Tree) : t.size ≤ t.ser.length := by
  have := t.size_eq
  have := t.ser_length
  omega

theorem Tree.Valid.internals_le {t : Tree} (hv : t.Valid) : t.internals ≤ 256 := by
  have := t.internals_eq
  have := nodup_le_257 hv.1 hv.2.1
  omega

theorem nodeNat_append_cons {pre post : List Node} {n : Node} : nodeNat (pre ++ n :: post) pre.length = some n := by
  simp [nodeNat]

/-- The entries of a tree in preorder hold that tree (43_tree_serial.md R220). -/
theorem treeAt_layout (t : Tree) : ∀ (k : Nat) (pre post : List Node), pre.length + t.size ≤ 1024 → t.size ≤ k →
    treeAt k (pre ++ (t.layout pre.length ++ post)) pre.length = some (t, List.range' pre.length t.size) := by
  induction t with
  | leaf s w =>
    intro k pre post _ hk
    obtain ⟨k, rfl⟩ : ∃ j, k = j + 1 := ⟨k - 1, by simp only [Tree.size] at hk; omega⟩
    exact treeAt_leaf k nodeNat_append_cons rfl
  | node w l r hl hr =>
    intro k pre post hroom hk
    simp only [Tree.size] at hroom hk
    have hlpos := l.size_pos
    have hrpos := r.size_pos
    have hrange : List.range' pre.length (1 + l.size + r.size) = pre.length ::
        (List.range' (pre.length + 1) l.size ++ List.range' (pre.length + 1 + l.size) r.size) := by
      rw [List.range'_append_1, Nat.add_assoc, Nat.add_comm 1, List.range'_succ]
    obtain ⟨k, rfl⟩ : ∃ j, k = j + 1 := ⟨k - 1, by omega⟩
    generalize hn : internalNode (BitVec.ofNat 10 (pre.length + 1)) (BitVec.ofNat 10 (pre.length + 1 + l.size)) w = n
    have hleft : n.left.toNat = pre.length + 1 := by
      rw [← hn]; exact Nat.mod_eq_of_lt (by omega)
    have hright : n.right.toNat = pre.length + 1 + l.size := by
      rw [← hn]; exact Nat.mod_eq_of_lt (by omega)
    -- the left subtree stands after the root, the right one after the left
    have h1 := hl k (pre ++ [n]) (r.layout (pre.length + 1 + l.size) ++ post)
      (by rw [List.length_append, List.length_singleton]; omega) (by omega)
    have h2 := hr k (pre ++ [n] ++ l.layout (pre.length + 1)) post
      (by rw [List.length_append, List.length_append, List.length_singleton, Tree.layout_length]; omega) (by omega)
    simp only [List.length_append, List.length_singleton, Tree.layout_length] at h1 h2
    have hroot := treeAt_node (k := k) (n := n) (node := pre ++ ((Tree.node w l r).layout pre.length ++ post))
      (by rw [Tree.layout, hn]; exact nodeNat_append_cons) (by rw [← hn]; rfl)
      (by rw [hleft, Tree.layout, hn]; simpa using h1) (by rw [hright, Tree.layout, hn]; simpa using h2)
    rw [hroot, Tree.size, hrange, ← hn]
    rfl

/-- The state after an RDTREE that succeeds on the serialization of a tree. -/
def rebuiltState (tr : Tree) (s : State) : State :=
  { dropTree s with
      src := s.src.advance tr.ser.length, node := tr.unweighted.layout 0, root := 0#10, nn := BitVec.ofNat 10 tr.size,
      degen := tr.isLeaf, tv := true, seqr := .idle, hidden := { Hidden.empty with mstep := s.hidden.mstep } }

/-- The tree it holds, its nodes in preorder from 0 on. -/
theorem treeAt_rebuiltState {tr : Tree} (hv : tr.Valid) (s : State) :
    treeAt maxNodes (rebuiltState tr s).node (rebuiltState tr s).root.toNat =
      some (tr.unweighted, List.range tr.size) := by
  have hsize := hv.size_le
  have h := treeAt_layout tr.unweighted maxNodes [] [] (by rw [Tree.unweighted_size, List.length_nil]; omega)
    (by rw [Tree.unweighted_size]; exact hsize)
  rw [List.append_nil, Tree.unweighted_size] at h
  rw [List.range_eq_range']
  exact h

theorem treeOf_rebuiltState {tr : Tree} (hv : tr.Valid) (s : State) :
    treeOf (rebuiltState tr s).node (rebuiltState tr s).root.toNat = some tr.unweighted :=
  treeOf_eq_some.2 ⟨_, treeAt_rebuiltState hv s⟩

/-! ### RDTREE on a whole serialization -/

/-- RDTREE waits for the tokens of a subtree that it can accept: symbols in range that it has not seen, room for the
internal nodes, and a waiting parent that is stored (43_tree_serial.md R214 to R217). -/
structure Expects (t : Tree) (s : State) : Prop where
  inTree : s.seqr = .inTree
  syms_le : ∀ x ∈ t.syms, x ≤ 256
  nodup : t.syms.Nodup
  unseen : ∀ x : Sym, x.val ∈ t.syms → rdSym s.hidden.seen x = false
  room : s.hidden.ni + t.internals ≤ 256
  parent : ∀ p sd, s.hidden.link = some (p, sd) → p < s.node.length

/-- The state before `afterLeaf` once the tokens of a subtree have been read. -/
def storedState (t : Tree) (s : State) : State :=
  { s with
    src := s.src.advance t.ser.length,
    node := linkNode s.hidden.link s.node.length s.node ++ t.unweighted.layout s.node.length,
    hidden := { s.hidden with seen := t.mark s.hidden.seen, ni := s.hidden.ni + t.internals, link := none } }

theorem Expects.treeLoop_eq {t : Tree} (h : Expects t s) {more : List Bool} (hr : s.src.rest = t.ser ++ more)
    (f : Nat) : treeLoop (t.size + f) s = treeLoop f (afterLeaf (storedState t s)) :=
  treeLoop_subtree t s f more h.inTree hr h.syms_le h.nodup h.unseen h.room h.parent

theorem Tree.Valid.expects {tr : Tree} (hv : tr.Valid) (s : State) : Expects tr (startTree s) where
  inTree := rfl
  syms_le := hv.1
  nodup := hv.2.1
  unseen _ _ := by simp [Hidden.empty]
  room := by simpa [Hidden.empty] using hv.internals_le
  parent _ _ h := by cases h

theorem treeLoop_of_idle (h : s.seqr = .idle) : ∀ k, treeLoop k s = s := by
  intro k
  cases k with
  | zero => rfl
  | succ k => simp only [treeLoop, h]

theorem rootLeaf_layout (t : Tree) : rootLeaf (t.layout 0) 0 = t.isLeaf := by
  cases t <;> rfl

theorem afterLeaf_of_empty (h : s.hidden.stk = []) : afterLeaf s = finishTree s := by
  rw [afterLeaf, h]

theorem finishTree_of_seen (h : rdSym s.hidden.seen sentinel = true) :
    finishTree s = { s with root := 0#10, nn := BitVec.ofNat 10 s.node.length, degen := rootLeaf s.node 0, tv := true,
                            seqr := .idle, hidden := { Hidden.empty with mstep := s.hidden.mstep } } :=
  if_pos h

/-- After the last token of a valid tree RDTREE is done (43_tree_serial.md R218, R220). -/
theorem afterLeaf_storedState_valid {tr : Tree} (hv : tr.Valid) (s : State) :
    afterLeaf (storedState tr (startTree s)) = rebuiltState tr s := by
  have hseen : rdSym (storedState tr (startTree s)).hidden.seen sentinel = true := tr.rdSym_mark_mem _ sentinel hv.2.2
  have hnode : (storedState tr (startTree s)).node = tr.unweighted.layout 0 := rfl
  rw [afterLeaf_of_empty rfl, finishTree_of_seen hseen]
  simp only [hnode, rootLeaf_layout, Tree.layout_length, Tree.unweighted_size, Tree.unweighted_isLeaf]
  rfl

/-- RDTREE's loop has a pass for each token of a tree the source begins with. -/
theorem exists_fuel_of_ser_length_le {t : Tree} {bs : List Bool} (h : t.ser.length ≤ bs.length) :
    ∃ f, bs.length + 1 = t.size + f :=
  ⟨bs.length + 1 - t.size, by have := t.size_le_ser_length; omega⟩

theorem runRdtree_rebuilds {tr : Tree} {more : List Bool} (hv : tr.Valid) (hr : s.src.rest = tr.ser ++ more) :
    runRdtree s = .next (rebuiltState tr s) := by
  obtain ⟨f, hf⟩ := exists_fuel_of_ser_length_le (t := tr) (bs := s.src.rest) (by simp [hr])
  have hloop := (hv.expects s).treeLoop_eq (s := startTree s) hr f
  rw [afterLeaf_storedState_valid hv, treeLoop_of_idle (s := rebuiltState tr s) rfl] at hloop
  rw [runRdtree, hf, hloop]

/-! ### RDTREE on a serialization that is cut short -/

/-- RDTREE ended because the source ran out (43_tree_serial.md R219). -/
def HeaderExhausted (s : State) : Prop := s.err = true ∧ s.errcode = 2#4

theorem treeLoop_exhausted {src : Source} (hq : s.seqr = .inTree) (hr : readToken s.src = .error src) (f : Nat) :
    HeaderExhausted (treeLoop (f + 1) s) := by
  have hpass : treePass s = failTree .hdrExhausted s.node.length { s with src := src } := by simp only [treePass, hr]
  rw [treeLoop, hq]
  simp only [hpass]
  rw [treeLoop_of_idle (s := failTree _ _ _) rfl]
  exact ⟨rfl, rfl⟩

theorem readToken_nil {src : Source} (h : src.rest = []) : readToken src = .error src := by
  simp only [readToken, h, decode, decodeToken]

theorem readToken_short_leaf {src : Source} {bs : List Bool} (h : src.rest = true :: bs) (hs : bs.length < 9) :
    readToken src = .error (src.advance 1) := by
  simp only [readToken, h, decode, decodeToken, if_pos hs]

/-- The state after an INTERNAL token. -/
def enteredState (s : State) : State := treeInternal { s with src := s.src.advance 1 }

theorem treePass_internal {bs : List Bool} (hr : s.src.rest = false :: bs) : treePass s = enteredState s := by
  simp only [treePass, readToken_internal hr, enteredState]

theorem treeInternal_of_room (h : s.hidden.ni ≠ 256) :
    treeInternal s =
      { storeNode (internalNode idxNil idxNil 0) s with
          hidden := { s.hidden with ni := s.hidden.ni + 1, stk := { idx := s.node.length } :: s.hidden.stk,
                                    link := some (s.node.length, .left) } } :=
  if_neg h

theorem afterLeaf_of_waiting {e : StkEntry} {stk : List StkEntry} (h : s.hidden.stk = e :: stk) :
    afterLeaf s = { s with hidden := { s.hidden with stk := stk, link := some (e.idx, .right) } } := by
  rw [afterLeaf, h]

variable {w : Nat} {l r : Tree}

theorem Expects.enteredState_eq (h : Expects (.node w l r) s) :
    enteredState s =
      { storeNode (internalNode idxNil idxNil 0) { s with src := s.src.advance 1 } with
          hidden := { s.hidden with ni := s.hidden.ni + 1, stk := { idx := s.node.length } :: s.hidden.stk,
                                    link := some (s.node.length, .left) } } := by
  have hroom := h.room
  rw [Tree.internals] at hroom
  exact treeInternal_of_room (by simp only; omega)

theorem Expects.left (h : Expects (.node w l r) s) : Expects l (enteredState s) := by
  obtain ⟨hq, hle, hnd, hseen, hroom, -⟩ := id h
  rw [Tree.syms] at hle hnd hseen
  rw [Tree.internals] at hroom
  rw [h.enteredState_eq]
  refine ⟨hq, fun x hx => hle x (List.mem_append_left _ hx), (List.nodup_append.1 hnd).1,
    fun x hx => hseen x (List.mem_append_left _ hx), by simp only; omega, fun p sd hp => ?_⟩
  cases hp
  simp [linkNode_length]

/-- With the left subtree stored RDTREE waits for the right one. -/
theorem Expects.right (h : Expects (.node w l r) s) : Expects r (afterLeaf (storedState l (enteredState s))) := by
  obtain ⟨hq, hle, hnd, hseen, hroom, -⟩ := id h
  rw [Tree.syms] at hle hnd hseen
  rw [Tree.internals] at hroom
  obtain ⟨-, hndr, hdisj⟩ := List.nodup_append.1 hnd
  rw [h.enteredState_eq, afterLeaf_of_waiting rfl]
  refine ⟨hq, fun x hx => hle x (List.mem_append_right _ hx), hndr, fun x hx => ?_, ?_, fun p sd hp => ?_⟩
  · refine (l.rdSym_mark _ x fun hl => hdisj _ hl _ hx rfl).trans (hseen x (List.mem_append_right _ hx))
  · simp only [storedState]
    omega
  · cases hp
    simp only [storedState, storeNode_node, List.length_append, linkNode_length, List.length_singleton]
    omega

theorem Expects.enteredState_src (h : Expects (.node w l r) s) : (enteredState s).src = s.src.advance 1 := by
  rw [h.enteredState_eq]
  rfl

theorem Expects.afterLeft_src (h : Expects (.node w l r) s) :
    (afterLeaf (storedState l (enteredState s))).src = (s.src.advance 1).advance l.ser.length := by
  rw [h.enteredState_eq, afterLeaf_of_waiting rfl]
  rfl

/-- On the bits of a serialization without its last ones RDTREE finds the source exhausted, and no other error
(43_tree_serial.md R219, 90_conflicts.md C3). -/
theorem Expects.treeLoop_cut (t : Tree) : ∀ {s : State} {k f : Nat}, Expects t s → s.src.rest = t.ser.take k →
    k < t.ser.length → k < f → HeaderExhausted (treeLoop f s) := by
  induction t with
  | leaf sy w =>
    intro s k f h hr hk hf
    obtain ⟨f, rfl⟩ : ∃ g, f = g + 1 := ⟨f - 1, by omega⟩
    cases k with
    | zero => exact treeLoop_exhausted h.inTree (readToken_nil hr) f
    | succ k =>
      refine treeLoop_exhausted h.inTree (readToken_short_leaf hr ?_) f
      simp only [Tree.ser, List.length_cons, bitsN_length] at hk
      rw [List.length_take, bitsN_length]
      omega
  | node w l r ihl ihr =>
    intro s k f h hr hk hf
    simp only [Tree.ser, List.length_cons, List.length_append] at hk
    have hsize := l.size_le_ser_length
    obtain ⟨f, rfl⟩ : ∃ g, f = g + 1 := ⟨f - 1, by omega⟩
    cases k with
    | zero => exact treeLoop_exhausted h.inTree (readToken_nil hr) f
    | succ k =>
      rw [Tree.ser, List.take_succ_cons, List.take_append] at hr
      rw [treeLoop, h.inTree]
      simp only [treePass_internal hr]
      have hentered : (enteredState s).src.rest = l.ser.take k ++ r.ser.take (k - l.ser.length) := by
        rw [h.enteredState_src, Source.rest_advance, hr]
        rfl
      rcases Nat.lt_or_ge k l.ser.length with hcut | hwhole
      · rw [Nat.sub_eq_zero_of_le hcut.le, List.take_zero, List.append_nil] at hentered
        exact ihl h.left hentered hcut (by omega)
      · rw [List.take_of_length_le hwhole] at hentered
        obtain ⟨g, rfl⟩ : ∃ g, f = l.size + g := ⟨f - l.size, by omega⟩
        rw [h.left.treeLoop_eq hentered]
        refine ihr h.right ?_ (show k - l.ser.length < r.ser.length by omega) (by omega)
        rw [h.afterLeft_src, ← h.enteredState_src, Source.rest_advance, hentered, List.drop_left]

theorem runRdtree_cut {tr : Tree} {k : Nat} (hv : tr.Valid) (hr : s.src.rest = tr.ser.take k)
    (hk : k < tr.ser.length) : ∃ t, runRdtree s = .next t ∧ HeaderExhausted t :=
  ⟨_, rfl, (hv.expects s).treeLoop_cut tr hr hk (by rw [hr, List.length_take]; omega)⟩

/-! ### DECODE -/

/-- DECODE ends at the sentinel with the automaton's units in the sink (45_decoder.md R255, R259, R264). -/
theorem runDecode_done {tr : Tree} {out : List Nat} {rest : List Bool} (htv : s.tv = true)
    (ht : treeOf s.node s.root.toNat = some tr) (hd : tr.decode s.src.rest = .done out rest)
    (hopen : s.snk.closed = false) :
    ∃ c, runDecode s =
      .next { s with cur := c, src := s.src.advance (s.src.rest.length - rest.length),
                     snk := { bits := s.snk.bits ++ out.flatMap (bitsN 8), closed := false } } := by
  obtain ⟨is, hat⟩ := treeOf_eq_some.1 ht
  obtain ⟨m, n, -, hn, ⟨hl, rfl, -⟩ | ⟨hl, l, r, ls, rs, -, -, rfl, -⟩⟩ := treeAt_cases hat
  · cases hd
    refine ⟨s.root, ?_⟩
    rw [runDecode, if_pos htv, nodeAt, hn]
    simp only [hl, if_true, Nat.sub_self, Source.advance_zero, List.flatMap_nil, List.append_nil,
      ← Sink.eq_of_open hopen]
  · have hwalk := decodeLoop_walk hat rfl (s.src.rest.length + 1) s.src s.root s.snk.bits _ _ _ [] (Nat.lt_succ_self _)
      hat rfl
    rw [show Tree.walk _ _ s.src.rest [] = .done out rest from hd] at hwalk
    obtain ⟨c, -, more, hout, hloop, -⟩ := hwalk
    rw [List.nil_append] at hout
    refine ⟨c, ?_⟩
    rw [runDecode, if_pos htv, nodeAt, hn, Sink.eq_of_open hopen, hloop, hout]
    simp only [hl, Bool.false_eq_true, if_false, bindOut_next]

/-- DECODE that finds the source exhausted raises Truncated (45_decoder.md R258). -/
theorem runDecode_truncated {tr : Tree} {out : List Nat} (htv : s.tv = true)
    (ht : treeOf s.node s.root.toNat = some tr) (hd : tr.decode s.src.rest = .truncated out)
    (hopen : s.snk.closed = false) :
    ∃ c, runDecode s =
      .next (raise .truncated c.toNat
        { s with cur := c, src := s.src.advance s.src.rest.length,
                 snk := { bits := s.snk.bits ++ out.flatMap (bitsN 8), closed := false } }) := by
  obtain ⟨is, hat⟩ := treeOf_eq_some.1 ht
  obtain ⟨m, n, -, hn, ⟨hl, rfl, -⟩ | ⟨hl, l, r, ls, rs, -, -, rfl, -⟩⟩ := treeAt_cases hat
  · cases hd
  · have hwalk := decodeLoop_walk hat rfl (s.src.rest.length + 1) s.src s.root s.snk.bits _ _ _ [] (Nat.lt_succ_self _)
      hat rfl
    rw [show Tree.walk _ _ s.src.rest [] = .truncated out from hd] at hwalk
    obtain ⟨c, -, more, hout, hloop, -⟩ := hwalk
    rw [List.nil_append] at hout
    refine ⟨c, ?_⟩
    rw [runDecode, if_pos htv, nodeAt, hn, Sink.eq_of_open hopen, hloop, hout]
    simp only [hl, Bool.false_eq_true, if_false, bindOut_next, if_true]

end Sys2Proof.Machine
end

section
/-! PROOFS. COMPRESS and DECOMPRESS: the artifact, its round trip, a longer input, and an artifact cut short
(46_control_and_sequences.md R290 to R293, 00_scope.md R17, R18). -/

namespace Sys2Proof.Machine

variable {s : State}

/-! ### COMPRESS -/

/-- The block holds a valid tree and its code table (10_state.md R41, R48). -/
structure HoldsCode (tr : Tree) (s : State) : Prop where
  tv : s.tv = true
  cv : s.cv = true
  tree : treeOf s.node s.root.toNat = some tr
  valid : tr.Valid
  code : ∀ x : Sym, rdSym s.code x = tr.entryOf x.val

/-- Steps 0 to 3 of COMPRESS: from the first bit of a source whose units fit, HIST, BUILD, GENCODE and REWIND leave the
code of a tree with a leaf for each unit, the source at its first bit again, and the sink as it was. -/
theorem compress_first_steps (herr : s.err = false) (hpos : s.src.pos = 0)
    (hfit : (units s.src.bits).length + 1 ≤ wmax s.cfg) (bodies : List (State → Out State)) :
    ∃ t tr, runSteps 0 (runHist :: runBuild :: runGencode :: runRewind :: bodies) s = runSteps 4 bodies t ∧
      HoldsCode tr t ∧ (∀ u ∈ units s.src.bits, u ∈ tr.syms) ∧ CountsUnits (units s.src.bits) t.hist ∧
      t.err = false ∧ t.seqr = s.seqr ∧ t.src = s.src ∧ t.snk = s.snk ∧ t.cfg = s.cfg ∧ t.pending = s.pending := by
  have hrest : s.src.rest = s.src.bits := by rw [Source.rest, hpos, List.drop_zero]
  have hlt := units_lt s.src.bits
  -- HIST
  obtain ⟨hist, hhist, hcount⟩ := runHist_counts (s := setStep 0 s) fun x => by
    rw [setStep_src, setStep_cfg, hrest]
    exact List.count_le_length.trans (by omega)
  rw [setStep_src, hrest] at hhist hcount
  generalize hs1 : ({ setStep 0 s with src := _, hist := hist } : State) = s1 at hhist
  -- BUILD
  obtain ⟨m, tr, hbuild, htree, hvalid, hsyms⟩ := runBuild_tree (s := setStep 1 s1)
    (by rw [← hs1]; exact hcount.sentinel_eq ▸ Nat.one_ne_zero) (by rw [← hs1]; exact (hcount.total hlt).trans_le hfit)
  -- GENCODE
  obtain ⟨code, hgen, hcode⟩ := runGencode_table (s := setStep 2 (builtState m (setStep 1 s1))) rfl htree hvalid
  generalize hs3 : ({ setStep 2 (builtState m (setStep 1 s1)) with hidden := _, code := code, cv := true } : State) =
    s3 at hgen
  have herr1 : s1.err = false := by rw [← hs1]; exact herr
  have herr3 : s3.err = false := by rw [← hs3]; exact herr1
  refine ⟨{ setStep 3 s3 with src := srcRewind s3.src }, tr, ?_, ?_, fun u hu => ?_, ?_⟩
  · rw [runSteps_cons_ok hhist herr1, runSteps_cons_ok hbuild herr1, runSteps_cons_ok hgen herr3]
    exact runSteps_cons_ok (body := runRewind) rfl herr3
  · rw [← hs3]
    exact ⟨rfl, rfl, htree, hvalid, hcode⟩
  · have hu256 := hlt u hu
    refine (hsyms ⟨u, by omega⟩).2 ?_
    rw [← hs1]
    exact hcount.pos_of_mem hu256 hu
  · rw [← hs3, ← hs1]
    exact ⟨hcount, herr, rfl, congrArg (Source.mk s.src.bits) hpos.symm, rfl, rfl, rfl⟩

/-- An artifact without its padding: the marker, the tree and the code words (30_encoding.md R120). -/
def artifactBits (magic : BitVec 32) (tr : Tree) (us : List Nat) : List Bool :=
  bitsN 32 magic.toNat ++ (tr.ser ++ tr.codeWords us)

/-- Steps 4 to 7 of COMPRESS: with a tree's code held and the source at its first bit, WRMAGIC, WRTREE, ENCODE and FLUSH
append the artifact and close the sink. -/
theorem compress_last_steps {tr : Tree} (h : HoldsCode tr s) (herr : s.err = false) (hpos : s.src.pos = 0)
    (hopen : s.snk.closed = false) (hsyms : ∀ u ∈ units s.src.bits, u ∈ tr.syms) :
    ∃ t k, runSteps 4 [runWrmagic, runWrtree, runEncode, runFlush] s = .next t ∧ t.err = false ∧ k ≤ 7 ∧
      t.snk.bits.length % 8 = 0 ∧
      t.snk = { bits := s.snk.bits ++ (artifactBits s.cfg.magic tr (units s.src.bits) ++ List.replicate k false),
                closed := true } := by
  have hrest : s.src.rest = s.src.bits := by rw [Source.rest, hpos, List.drop_zero]
  have hlt := units_lt s.src.bits
  have hcodes : ∀ u ∈ units s.src.bits, (rdSym s.code (unitSym u)).valid = true := fun u hu => by
    rw [h.code, unitSym_val (hlt u hu)]
    exact Tree.entryOf_valid (hsyms u hu)
  have hpayload := payload_eq_codeWords h.valid h.code hlt
  have hmagic := runWrmagic_marker (s := setStep 4 s) hopen
  generalize hs1 : ({ setStep 4 s with snk := _ } : State) = s1 at hmagic
  have htree := runWrtree_ser (s := setStep 5 s1) (tr := tr) (by rw [← hs1]; exact h.tv) (by rw [← hs1]; exact h.tree)
    h.valid (by rw [← hs1]; rfl)
  generalize hs2 : ({ setStep 5 s1 with hidden := _, snk := _ } : State) = s2 at htree
  have hencode := runEncode_payload (s := setStep 6 s2) (by rw [← hs2, ← hs1]; exact h.cv) (by rw [← hs2]; rfl)
    (by rw [← hs2, ← hs1]; exact hrest.symm ▸ hcodes)
  generalize hs3 : ({ setStep 6 s2 with src := _, snk := _ } : State) = s3 at hencode
  have hflush := runFlush_pads (s := setStep 7 s3) (by rw [← hs3]; rfl)
  generalize hs4 : ({ setStep 7 s3 with snk := _ } : State) = s4 at hflush
  have herr1 : s1.err = false := by rw [← hs1]; exact herr
  have herr2 : s2.err = false := by rw [← hs2]; exact herr1
  have herr3 : s3.err = false := by rw [← hs3]; exact herr2
  have herr4 : s4.err = false := by rw [← hs4]; exact herr3
  refine ⟨setStep 0 s4, padBits s3.snk.bits.length, ?_, herr4, padBits_le _, ?_, ?_⟩
  · rw [runSteps_cons_ok hmagic herr1, runSteps_cons_ok htree herr2, runSteps_cons_ok hencode herr3,
      runSteps_cons_ok hflush herr4, runSteps]
  · rw [← hs4]
    simpa using padBits_mod s3.snk.bits.length
  · rw [← hs4, ← hs3, ← hs2, ← hs1]
    simp [hrest, hpayload, artifactBits]

/-- COMPRESS of a source that fits appends an artifact and closes the sink (46_control_and_sequences.md R290). -/
theorem runCompress_writes_artifact (herr : s.err = false) (hpos : s.src.pos = 0) (hopen : s.snk.closed = false)
    (hfit : (units s.src.bits).length + 1 ≤ wmax s.cfg) :
    ∃ t tr k, runCompress s = .next t ∧ t.err = false ∧ tr.Valid ∧ (∀ u ∈ units s.src.bits, u ∈ tr.syms) ∧ k ≤ 7 ∧
      t.snk.bits.length % 8 = 0 ∧
      t.snk = { bits := s.snk.bits ++ (artifactBits s.cfg.magic tr (units s.src.bits) ++ List.replicate k false),
                closed := true } := by
  obtain ⟨u, tr, hfirst, hcode, hsyms, -, hu, -, hsrc, hsnk, hcfg, -⟩ := compress_first_steps herr hpos hfit
    [runWrmagic, runWrtree, runEncode, runFlush]
  obtain ⟨t, k, hlast, ht, hk, haligned, htsnk⟩ := compress_last_steps hcode hu (hsrc ▸ hpos) (hsnk ▸ hopen)
    (hsrc ▸ hsyms)
  rw [hsrc, hsnk, hcfg] at htsnk
  exact ⟨t, tr, k, hfirst.trans hlast, ht, hcode.valid, hsyms, hk, haligned, htsnk⟩

/-- COMPRESS of a longer input raises Overflow before it writes, in HIST when a count does not fit and in BUILD when
only the total does not (40_frequency_counter.md R162, 41_tree_builder.md R178). -/
theorem runCompress_overflow (herr : s.err = false) (hpos : s.src.pos = 0) (hbits : 1 ≤ s.cfg.wbits)
    (hlong : wmax s.cfg < (units s.src.bits).length + 1) :
    ∃ t, runCompress s = .next t ∧ t.err = true ∧ t.errcode = 9#4 ∧ t.snk = s.snk := by
  have hrest : s.src.rest = s.src.bits := by rw [Source.rest, hpos, List.drop_zero]
  by_cases hexcess : ∃ x, wmax s.cfg < (units s.src.rest).count x
  · obtain ⟨pre, u, post, hus, hu, hle⟩ := exists_first_excess (wmax s.cfg) (units s.src.rest) [] hexcess
    rw [List.append_nil] at hus
    obtain ⟨hist, hhist, -⟩ := runHist_overflow (s := setStep 0 s) hus hu fun x => hle x.val
    exact ⟨_, runSteps_cons_error hhist rfl, rfl, rfl, rfl⟩
  · simp only [not_exists, not_lt] at hexcess
    obtain ⟨hist, hhist, hcount⟩ := runHist_counts (s := setStep 0 s) fun x => hexcess x.val
    rw [setStep_src] at hhist hcount
    generalize hs1 : ({ setStep 0 s with src := _, hist := hist } : State) = s1 at hhist
    have hbuild := runBuild_total_overflow (s := setStep 1 s1)
      (by rw [← hs1]; exact hcount.sentinel_eq ▸ Nat.one_ne_zero)
      (by rw [← hs1]; exact hcount.le (one_le_wmax hbits) hexcess)
      (by rw [← hs1]; exact hlong.trans_eq (hrest ▸ (hcount.total (units_lt _)).symm))
    refine ⟨_, (runSteps_cons_ok hhist (by rw [← hs1]; exact herr)).trans (runSteps_cons_error hbuild rfl),
      rfl, rfl, ?_⟩
    rw [← hs1]
    rfl

/-! ### DECOMPRESS -/

/-- Steps 0 and 1 of DECOMPRESS at a marker and a valid tree: the tree is held and the source stands after it. -/
theorem decompress_first_steps {tr : Tree} {more : List Bool} (herr : s.err = false) (hv : tr.Valid)
    (hr : s.src.rest = bitsN 32 s.cfg.magic.toNat ++ (tr.ser ++ more)) (bodies : List (State → Out State)) :
    ∃ t, runSteps 0 (runRdmagic :: runRdtree :: bodies) s = runSteps 2 bodies t ∧ t.tv = true ∧
      treeOf t.node t.root.toNat = some tr.unweighted ∧ t.src.rest = more ∧ t.snk = s.snk ∧ t.err = false := by
  have hmagic := runRdmagic_marker (s := setStep 0 s) hr
  generalize hs1 : ({ setStep 0 s with src := _, seqr := .idle } : State) = s1 at hmagic
  have hrest : s1.src.rest = tr.ser ++ more := by
    rw [← hs1]
    simp [hr]
  have htree := runRdtree_rebuilds (s := setStep 1 s1) hv hrest
  have herr1 : s1.err = false := by rw [← hs1]; exact herr
  refine ⟨rebuiltState tr (setStep 1 s1), ?_, rfl, treeOf_rebuiltState hv _, ?_, ?_, herr1⟩
  · rw [runSteps_cons_ok hmagic herr1, runSteps_cons_ok htree herr1]
  · rw [rebuiltState, Source.rest_advance, setStep_src, hrest, List.drop_left]
  · rw [← hs1]
    rfl

theorem length_flatMap_bitsN (n : Nat) (us : List Nat) : (us.flatMap (bitsN n)).length = us.length * n := by
  simp [List.length_flatMap]

/-- DECOMPRESS of an artifact, whatever follows it, gives the units and closes the sink (46_control_and_sequences.md
R292). -/
theorem runDecompress_reads_artifact {tr : Tree} {us : List Nat} {x : List Bool} (herr : s.err = false)
    (hv : tr.Valid) (hus : ∀ u ∈ us, u < 256 ∧ u ∈ tr.syms) (hsnk : s.snk = { bits := [], closed := false })
    (hr : s.src.rest = artifactBits s.cfg.magic tr us ++ x) :
    ∃ t, runDecompress s = .next t ∧ t.err = false ∧ t.snk = { bits := us.flatMap (bitsN 8), closed := true } := by
  rw [artifactBits, List.append_assoc, List.append_assoc] at hr
  obtain ⟨u, hfirst, htv, htree, hrest, husnk, hu⟩ := decompress_first_steps herr hv hr [runDecode, runFlush]
  rw [hsnk] at husnk
  have hdecode := hv.unweighted.decode_codeWords (Tree.unweighted_syms tr ▸ hus) x
  rw [Tree.unweighted_codeWords, ← hrest] at hdecode
  obtain ⟨c, hdec⟩ := runDecode_done (s := setStep 2 u) htv htree hdecode (by rw [setStep_snk, husnk])
  generalize hs1 : ({ setStep 2 u with cur := c, src := _, snk := _ } : State) = s1 at hdec
  have hs1snk : s1.snk = { bits := us.flatMap (bitsN 8), closed := false } := by
    rw [← hs1]
    simp [husnk]
  have hflush := runFlush_pads (s := setStep 3 s1) (by rw [setStep_snk, hs1snk])
  generalize hs2 : ({ setStep 3 s1 with snk := _ } : State) = s2 at hflush
  have herr1 : s1.err = false := by rw [← hs1]; exact hu
  have herr2 : s2.err = false := by rw [← hs2]; exact herr1
  have hpad : padBits (us.length * 8) = 0 := by rw [padBits]; omega
  refine ⟨setStep 0 s2, ?_, herr2, ?_⟩
  · rw [runDecompress, hfirst, runSteps_cons_ok hdec herr1, runSteps_cons_ok hflush herr2, runSteps]
  · rw [← hs2]
    simp only [setStep_snk, hs1snk, length_flatMap_bitsN, hpad, List.replicate_zero, List.append_nil]

/-- DECOMPRESS of an artifact that is cut short ends in an error: BadMagic within the marker, HdrExhausted within the
tree, Truncated within the code words (90_conflicts.md C3). -/
theorem runDecompress_cut_artifact {tr : Tree} {us : List Nat} {k : Nat} (herr : s.err = false) (hv : tr.Valid)
    (hus : ∀ u ∈ us, u < 256 ∧ u ∈ tr.syms) (hopen : s.snk.closed = false)
    (hr : s.src.rest = (artifactBits s.cfg.magic tr us).take k) (hk : k < (artifactBits s.cfg.magic tr us).length) :
    ∃ t, runDecompress s = .next t ∧ t.err = true ∧ (t.errcode = 1#4 ∨ t.errcode = 2#4 ∨ t.errcode = 7#4) := by
  simp only [artifactBits, List.length_append, bitsN_length] at hk
  rcases Nat.lt_or_ge k 32 with hmarker | hmarker
  · have hshort := runRdmagic_short (s := setStep 0 s) (by rw [setStep_src, hr, List.length_take]; omega)
    exact ⟨_, runSteps_cons_error hshort rfl, rfl, .inl rfl⟩
  rw [artifactBits, List.take_append, List.take_of_length_le (by rwa [bitsN_length]), bitsN_length,
    List.take_append] at hr
  rcases Nat.lt_or_ge (k - 32) tr.ser.length with htree | htree
  · rw [Nat.sub_eq_zero_of_le htree.le, List.take_zero, List.append_nil] at hr
    have hmagic := runRdmagic_marker (s := setStep 0 s) hr
    generalize hs1 : ({ setStep 0 s with src := _, seqr := .idle } : State) = s1 at hmagic
    have hrest : s1.src.rest = tr.ser.take (k - 32) := by
      rw [← hs1]
      simp [hr]
    obtain ⟨t, ht, hterr, htcode⟩ := runRdtree_cut (s := setStep 1 s1) hv hrest htree
    exact ⟨t, (runSteps_cons_ok hmagic (by rw [← hs1]; exact herr)).trans (runSteps_cons_error ht hterr), hterr,
      .inr (.inl htcode)⟩
  · rw [List.take_of_length_le htree] at hr
    obtain ⟨u, hfirst, htv, htreeOf, hrest, husnk, hu⟩ := decompress_first_steps herr hv hr [runDecode, runFlush]
    obtain ⟨o, hdecode⟩ := hv.unweighted.decode_cut_codeWords (k := k - 32 - tr.ser.length)
      (Tree.unweighted_syms tr ▸ hus) (by rw [Tree.unweighted_codeWords]; omega)
    rw [Tree.unweighted_codeWords, ← hrest] at hdecode
    obtain ⟨c, hdec⟩ := runDecode_truncated (s := setStep 2 u) htv htreeOf hdecode (by rw [setStep_snk, husnk, hopen])
    exact ⟨_, hfirst.trans (runSteps_cons_error hdec rfl), rfl, .inr (.inr rfl)⟩

/-! ### The obligations -/

theorem units_bitsOfBytes_eq (bytes : List (BitVec 8)) : units (bitsOfBytes bytes) = bytes.map BitVec.toNat := by
  have h := units_bitsOfBytes bytes [] (by decide)
  rwa [List.append_nil] at h

theorem flatMap_bitsN_units (bytes : List (BitVec 8)) :
    (units (bitsOfBytes bytes)).flatMap (bitsN 8) = bitsOfBytes bytes := by
  rw [units_bitsOfBytes_eq, List.flatMap_map, bitsOfBytes]

/-- COMPRESS of bytes that fit makes the artifact of the bytes, whole bytes long. -/
theorem compress_bytes {bytes : List (BitVec 8)} (hready : Ready s)
    (hsrc : s.src = { bits := bitsOfBytes bytes, pos := 0 }) (hsnk : s.snk = { bits := [], closed := false })
    (hfit : bytes.length + 1 ≤ wmax s.cfg) :
    ∃ t tr k, exec .compress s = .next t ∧ t.err = false ∧ tr.Valid ∧
      (∀ u ∈ units (bitsOfBytes bytes), u < 256 ∧ u ∈ tr.syms) ∧ k ≤ 7 ∧ t.snk.bits.length % 8 = 0 ∧
      t.snk = { bits := artifactBits s.cfg.magic tr (units (bitsOfBytes bytes)) ++ List.replicate k false,
                closed := true } := by
  obtain ⟨t, tr, k, ht, herr, hv, hsyms, hk, haligned, htsnk⟩ := runCompress_writes_artifact hready.2
    (by rw [hsrc]) (by rw [hsnk]) (by rw [hsrc, units_bitsOfBytes_eq, List.length_map]; exact hfit)
  rw [hsrc] at hsyms htsnk
  rw [hsnk, List.nil_append] at htsnk
  exact ⟨t, tr, k, (accept_ready hready).trans ht, herr, hv, fun u hu => ⟨units_lt _ u hu, hsyms u hu⟩, hk, haligned,
    htsnk⟩

/-- Settles O47: DECOMPRESS reads the artifact that COMPRESS writes, padding and all. -/
theorem decompressOfCompressIsTheInput : Obligations.DecompressOfCompressIsTheInput := by
  intro bytes s1 s2 hready hsrc hsnk hfit
  obtain ⟨t1, tr, k, ht1, herr, hv, hus, -, -, htsnk⟩ := compress_bytes hready hsrc hsnk hfit
  refine ⟨t1, ht1, herr, by rw [htsnk], fun hready2 hmagic hsrc2 hsnk2 => ?_⟩
  obtain ⟨t2, ht2, herr2, hout⟩ := runDecompress_reads_artifact (x := List.replicate k false) hready2.2 hv hus hsnk2
    (by rw [hsrc2, htsnk, hmagic]; rfl)
  rw [flatMap_bitsN_units] at hout
  exact ⟨t2, (accept_ready hready2).trans ht2, herr2, hout⟩

/-- Settles O48: HIST overflows at the first count that does not fit, and if all fit BUILD overflows at the total. -/
theorem compressOfALongerInputOverflows : Obligations.CompressOfALongerInputOverflows := by
  intro s hready hpos hparams hlong
  obtain ⟨t, ht, hend⟩ := runCompress_overflow hready.2 hpos hparams.1 hlong
  exact ⟨t, (accept_ready hready).trans ht, hend⟩

/-- Settles O50: the padding is less than a byte, so the cut falls within the marker, the tree or the code words. -/
theorem truncatedArtifactFails : Obligations.TruncatedArtifactFails := by
  intro bytes s1 s2 t1 n hready hsrc hsnk hfit ht1 hn hready2 hmagic hsrc2 hsnk2
  obtain ⟨t, tr, k, ht, -, hv, hus, hk, haligned, htsnk⟩ := compress_bytes hready hsrc hsnk hfit
  obtain rfl : t = t1 := Host.Outcome.next.inj (ht.symm.trans ht1)
  have hlen : t.snk.bits.length = (artifactBits s1.cfg.magic tr (units (bitsOfBytes bytes))).length + k := by
    rw [htsnk, List.length_append, List.length_replicate]
  have hcut : 8 * n < (artifactBits s1.cfg.magic tr (units (bitsOfBytes bytes))).length := by omega
  obtain ⟨t2, ht2, hend⟩ := runDecompress_cut_artifact (k := 8 * n) hready2.2 hv hus (by rw [hsnk2])
    (by
      rw [hsrc2, htsnk, hmagic]
      exact List.take_append_of_le_length hcut.le)
    (by rwa [hmagic])
  exact ⟨t2, (accept_ready hready2).trans ht2, hend⟩

end Sys2Proof.Machine
end

section
/-! PROOFS. RDTREE on any source: either its tokens are the serialization of a valid tree, which it rebuilds, or it ends
in an error (43_tree_serial.md R213 to R220). -/

namespace Sys2Proof.Machine

variable {s t : State}

/-- RDTREE waits for a token, its counter of internal nodes is within its bound, and its waiting parent is stored. -/
structure Waiting (s : State) : Prop where
  inTree : s.seqr = .inTree
  room : s.hidden.ni ≤ 256
  parent : ∀ p sd, s.hidden.link = some (p, sd) → p < s.node.length

theorem startTree_waiting (s : State) : Waiting (startTree s) where
  inTree := rfl
  room := Nat.zero_le _
  parent _ _ h := by cases h

/-! ### The two subtrees of an internal node -/

theorem enteredState_of_room (h : s.hidden.ni ≠ 256) :
    enteredState s =
      { storeNode (internalNode idxNil idxNil 0) { s with src := s.src.advance 1 } with
          hidden := { s.hidden with ni := s.hidden.ni + 1, stk := { idx := s.node.length } :: s.hidden.stk,
                                    link := some (s.node.length, .left) } } :=
  treeInternal_of_room h

theorem enteredState_waiting (hs : Waiting s) (h : s.hidden.ni ≠ 256) : Waiting (enteredState s) := by
  obtain ⟨hq, hroom, -⟩ := hs
  rw [enteredState_of_room h]
  refine ⟨hq, Nat.lt_of_le_of_ne hroom h, fun p sd hp => ?_⟩
  cases hp
  simp [linkNode_length]

/-- The state between the two subtrees of an internal node, with the left one stored. -/
def betweenState (l : Tree) (s : State) : State := afterLeaf (storedState l (enteredState s))

theorem betweenState_of_room (h : s.hidden.ni ≠ 256) (l : Tree) :
    betweenState l s =
      { storedState l (enteredState s) with
          hidden := { (storedState l (enteredState s)).hidden with
                        stk := s.hidden.stk, link := some (s.node.length, .right) } } := by
  have hstk : (storedState l (enteredState s)).hidden.stk = { idx := s.node.length } :: s.hidden.stk := by
    rw [enteredState_of_room h]; rfl
  exact afterLeaf_of_waiting hstk

theorem betweenState_waiting {l : Tree} (h : s.hidden.ni ≠ 256) (hl : Expects l (enteredState s)) :
    Waiting (betweenState l s) := by
  rw [betweenState_of_room h]
  refine ⟨hl.inTree, hl.room, fun p sd hp => ?_⟩
  cases hp
  rw [enteredState_of_room h]
  simp only [storedState, storeNode_node, List.length_append, linkNode_length, List.length_singleton]
  omega

theorem enteredState_rest {bs : List Bool} (h : s.hidden.ni ≠ 256) (hr : s.src.rest = false :: bs) :
    (enteredState s).src.rest = bs := by
  rw [enteredState_of_room h]
  simp [hr]

theorem betweenState_rest {l : Tree} {more : List Bool} (h : s.hidden.ni ≠ 256)
    (hl : (enteredState s).src.rest = l.ser ++ more) : (betweenState l s).src.rest = more := by
  rw [betweenState_of_room h, storedState, Source.rest_advance, hl, List.drop_left]

/-- Two subtrees that RDTREE can accept one after the other make one that it can accept. -/
theorem Expects.node {l r : Tree} (hs : Waiting s) (h : s.hidden.ni ≠ 256) (hl : Expects l (enteredState s))
    (hr : Expects r (betweenState l s)) : Expects (.node 0 l r) s := by
  have hunseenl := hl.unseen
  have hunseenr := hr.unseen
  have hroom := hr.room
  rw [betweenState_of_room h] at hunseenr hroom
  rw [enteredState_of_room h] at hunseenl hunseenr hroom
  have hdisjoint : ∀ x ∈ l.syms, x ∉ r.syms := fun x hxl hxr => by
    have hx := hunseenr ⟨x, Nat.lt_succ_of_le (hl.syms_le x hxl)⟩ hxr
    exact Bool.false_ne_true (hx.symm.trans (l.rdSym_mark_mem _ _ hxl))
  refine ⟨hs.inTree, List.forall_mem_append.2 ⟨hl.syms_le, hr.syms_le⟩, hl.nodup.append hr.nodup hdisjoint,
    fun x hx => ?_, ?_, hs.parent⟩
  · rcases List.mem_append.1 hx with hxl | hxr
    · exact hunseenl x hxl
    · exact (l.rdSym_mark _ x fun hxl => hdisjoint _ hxl hxr).symm.trans (hunseenr x hxr)
  · simp only [storedState] at hroom
    simp only [Tree.internals]
    omega

/-! ### One pass -/

/-- An error of RDTREE, which loses the tree and leaves the source where it stands (43_tree_serial.md R214 to R219,
60_exceptions.md R319). -/
def HeaderFails (s t : State) : Prop := ∃ e info src, t = failTree e info { s with src := src }

theorem treeInternal_of_full (h : s.hidden.ni = 256) : treeInternal s = failTree .hdrSize s.node.length s :=
  if_pos h

theorem exists_field {bs : List Bool} (h : 9 ≤ bs.length) :
    ∃ (field : BitVec 9) (more : List Bool), bs = bitsN 9 field.toNat ++ more := by
  have hlen : (bs.take 9).length = 9 := by rw [List.length_take, Nat.min_eq_left h]
  have hlt := bitsVal_lt (bs.take 9)
  have hbits := bitsN_bitsVal (bs.take 9)
  rw [hlen] at hlt hbits
  refine ⟨BitVec.ofNat 9 (bitsVal (bs.take 9)), bs.drop 9, ?_⟩
  rw [BitVec.toNat_ofNat, Nat.mod_eq_of_lt hlt, hbits, List.take_append_drop]

theorem readToken_field {src : Source} {field : BitVec 9} {bs : List Bool}
    (h : src.rest = true :: (bitsN 9 field.toNat ++ bs)) : readToken src = .ok (.treeLeaf field, src.advance 10) := by
  have hfield : BitVec.ofNat 9 (field.toNat % 512) = field := by
    rw [Nat.mod_eq_of_lt field.isLt, BitVec.ofNat_toNat, BitVec.setWidth_eq]
  simp [readToken, decode, decodeToken, h, encode, hfield]

theorem treePass_field {field : BitVec 9} {bs : List Bool} (h : s.src.rest = true :: (bitsN 9 field.toNat ++ bs)) :
    treePass s = treeLeaf field { s with src := s.src.advance 10 } := by
  simp only [treePass, readToken_field h]

theorem treePass_exhausted {src : Source} (h : readToken s.src = .error src) : HeaderFails s (treePass s) :=
  ⟨.hdrExhausted, s.node.length, src, by simp only [treePass, h]⟩

/-- A leaf field that RDTREE does not reject is the token of a leaf it can accept (43_tree_serial.md R215, R216). -/
theorem Waiting.expects_leaf {field : BitVec 9} {x : Sym} (hs : Waiting s) (hx : symOf field = some x)
    (hnew : rdSym s.hidden.seen x = false) : Expects (.leaf field 0) s where
  inTree := hs.inTree
  syms_le := by simpa [Tree.syms, symOf_eq_some hx] using Nat.le_of_lt_succ x.isLt
  nodup := List.nodup_singleton _
  unseen y hy := by
    obtain rfl : y = x := Fin.ext ((List.mem_singleton.1 hy).trans (symOf_eq_some hx))
    exact hnew
  room := hs.room
  parent := hs.parent

theorem Waiting.treeLeaf_cases (hs : Waiting s) (field : BitVec 9) (src : Source) :
    HeaderFails s (treeLeaf field { s with src := src }) ∨ Expects (.leaf field 0) s := by
  cases hx : symOf field with
  | none => exact .inl ⟨.hdrSymbol, field.toNat, src, by simp only [treeLeaf, hx]⟩
  | some x =>
    cases hseen : rdSym s.hidden.seen x with
    | true => exact .inl ⟨.hdrDup, x.val, src, by simp only [treeLeaf, hx, hseen, if_true]⟩
    | false => exact .inr (hs.expects_leaf hx hseen)

/-- A pass fails, or it reads a leaf that RDTREE accepts, or an internal node it has room for. -/
theorem Waiting.treePass_cases (hs : Waiting s) :
    HeaderFails s (treePass s) ∨
    (∃ field more, s.src.rest = (Tree.leaf field 0).ser ++ more ∧ Expects (.leaf field 0) s) ∨
    (∃ bs, s.src.rest = false :: bs ∧ s.hidden.ni ≠ 256) := by
  match hr : s.src.rest with
  | [] => exact .inl (treePass_exhausted (readToken_nil hr))
  | true :: bs =>
    rcases Nat.lt_or_ge bs.length 9 with hshort | hlong
    · exact .inl (treePass_exhausted (readToken_short_leaf hr hshort))
    · obtain ⟨field, more, rfl⟩ := exists_field hlong
      obtain hfail | hleaf := hs.treeLeaf_cases field (s.src.advance 10)
      · exact .inl (treePass_field hr ▸ hfail)
      · exact .inr (.inl ⟨field, more, rfl, hleaf⟩)
  | false :: bs =>
    by_cases hfull : s.hidden.ni = 256
    · exact .inl ⟨_, _, _, (treePass_internal hr).trans (treeInternal_of_full hfull)⟩
    · exact .inr (.inr ⟨bs, rfl, hfull⟩)

/-! ### The loop -/

theorem treeLoop_succ (h : s.seqr = .inTree) (f : Nat) : treeLoop (f + 1) s = treeLoop f (treePass s) := by
  rw [treeLoop, h]

theorem HeaderFails.treeLoop_eq (h : HeaderFails s t) (f : Nat) : treeLoop f t = t := by
  obtain ⟨e, info, src, rfl⟩ := h
  exact treeLoop_of_idle rfl f

/-- An error after an internal node loses all that the earlier passes stored. -/
theorem HeaderFails.of_entered (h : HeaderFails (enteredState s) t) (hroom : s.hidden.ni ≠ 256) : HeaderFails s t := by
  obtain ⟨e, info, src, rfl⟩ := h
  refine ⟨e, info, src, ?_⟩
  rw [enteredState_of_room hroom]
  rfl

theorem HeaderFails.of_between {l : Tree} (h : HeaderFails (betweenState l s) t) (hroom : s.hidden.ni ≠ 256) :
    HeaderFails s t := by
  obtain ⟨e, info, src, rfl⟩ := h
  refine HeaderFails.of_entered ⟨e, info, src, ?_⟩ hroom
  rw [betweenState_of_room hroom]
  rfl

/-- The passes from a state in which RDTREE waits read a subtree that it accepts, or end in an error. -/
theorem Waiting.reads_or_fails (n : Nat) : ∀ {s : State} {f : Nat}, Waiting s → s.src.rest.length < n →
    s.src.rest.length < f →
    (∃ t more, s.src.rest = t.ser ++ more ∧ Expects t s) ∨ HeaderFails s (treeLoop f s) := by
  induction n with
  | zero => intro s f _ hn; cases hn
  | succ n ih =>
    intro s f hs hn hf
    obtain ⟨f, rfl⟩ : ∃ g, f = g + 1 := ⟨f - 1, by omega⟩
    rw [treeLoop_succ hs.inTree]
    obtain hfail | ⟨field, more, hr, hleaf⟩ | ⟨bs, hr, hroom⟩ := hs.treePass_cases
    · exact .inr ((hfail.treeLoop_eq f).symm ▸ hfail)
    · exact .inl ⟨_, more, hr, hleaf⟩
    · have hentered := enteredState_rest hroom hr
      rw [hr, List.length_cons] at hn hf
      rw [treePass_internal hr]
      -- the left subtree
      obtain ⟨l, lmore, hlr, hl⟩ | hfail := ih (f := f) (enteredState_waiting hs hroom) (by rw [hentered]; omega)
        (by rw [hentered]; omega)
      · obtain rfl := hentered.symm.trans hlr
        have hbetween := betweenState_rest hroom hlr
        have hsize := l.size_le_ser_length
        rw [List.length_append] at hn hf
        obtain ⟨f, rfl⟩ : ∃ g, f = l.size + g := ⟨f - l.size, by omega⟩
        rw [hl.treeLoop_eq hlr]
        -- the right subtree
        obtain ⟨r, more, rfl, hre⟩ | hfail := hbetween ▸ ih (f := f) (betweenState_waiting hroom hl)
          (by rw [hbetween]; omega) (by rw [hbetween]; omega)
        · exact .inl ⟨.node 0 l r, more, by rw [hr, Tree.ser, List.cons_append, List.append_assoc],
            .node hs hroom hl hre⟩
        · exact .inr (hfail.of_between hroom)
      · exact .inr (hfail.of_entered hroom)

/-! ### RDTREE -/

theorem finishTree_of_unseen (h : rdSym s.hidden.seen sentinel = false) : finishTree s = failTree .hdrNoSent 0 s :=
  if_neg (Bool.eq_false_iff.1 h)

/-- With the tokens of a tree read RDTREE ends: in success exactly if the sentinel is among the symbols
(43_tree_serial.md R218, R220). -/
theorem Expects.finishes {tr : Tree} (h : Expects tr (startTree s)) :
    (tr.Valid ∧ afterLeaf (storedState tr (startTree s)) = rebuiltState tr s) ∨
    HeaderFails (startTree s) (afterLeaf (storedState tr (startTree s))) := by
  by_cases hsent : 256 ∈ tr.syms
  · have hv : tr.Valid := ⟨h.syms_le, h.nodup, hsent⟩
    exact .inl ⟨hv, afterLeaf_storedState_valid hv s⟩
  · have hunseen : rdSym (storedState tr (startTree s)).hidden.seen sentinel = false := by
      refine (tr.rdSym_mark _ sentinel hsent).trans ?_
      simp [Hidden.empty]
    rw [afterLeaf_of_empty rfl, finishTree_of_unseen hunseen]
    exact .inr ⟨.hdrNoSent, 0, s.src.advance tr.ser.length, rfl⟩

/-- RDTREE rebuilds the valid tree whose serialization the source goes on with, or ends in an error that leaves no tree
(43_tree_serial.md R213, R214, R220). -/
theorem runRdtree_cases (h : runRdtree s = .next t) :
    (∃ e info src, t = failTree e info (dropTree { s with src := src })) ∨
    ∃ tr more, tr.Valid ∧ s.src.rest = tr.ser ++ more ∧ t = rebuiltState tr s := by
  cases h
  have hfails : ∀ u, HeaderFails (startTree s) u →
      ∃ e info src, u = failTree e info (dropTree { s with src := src }) := by
    rintro u ⟨e, info, src, rfl⟩
    exact ⟨e, info, src, rfl⟩
  obtain ⟨tr, more, hr, htr⟩ | hfail :=
    (startTree_waiting s).reads_or_fails _ (Nat.lt_succ_self _) (Nat.lt_succ_self _)
  · rw [startTree_src] at hr
    obtain ⟨f, hf⟩ := exists_fuel_of_ser_length_le (t := tr) (bs := s.src.rest) (by simp [hr])
    rw [hf, htr.treeLoop_eq hr]
    obtain ⟨hv, hend⟩ | hfail := htr.finishes
    · rw [hend, treeLoop_of_idle rfl]
      exact .inr ⟨tr, more, hv, hr, rfl⟩
    · rw [hfail.treeLoop_eq]
      exact .inl (hfails _ hfail)
  · exact .inl (hfails _ hfail)

/-! ### BUILD -/

/-- BUILD joins the histogram's leaves to one valid tree, or ends in an error that leaves no tree (41_tree_builder.md
R170, R175, R177, R178). -/
theorem runBuild_forest (h : runBuild s = .next t) :
    (∃ e info, t = failTree e info (dropTree s)) ∨
    ∃ m r g, m.pq = [r] ∧ Forest (histPairs s.hist) m.node [r] g ∧ (g r).1.Valid ∧ t = builtState m s := by
  by_cases hsent : rdSym s.hist sentinel = 0
  · rw [runBuild_badHist hsent] at h
    cases h
    exact .inl ⟨_, _, rfl⟩
  · obtain ⟨ho, -⟩ | ⟨hno, r, g, hpq, hg⟩ := mergeLeaves_forest hsent (wmax s.cfg)
    · rw [runBuild_overflow hsent ho] at h
      cases h
      exact .inl ⟨_, _, rfl⟩
    · rw [runBuild_built hsent hno] at h
      cases h
      exact .inr ⟨_, r, g, hpq, hg, hg.valid hsent, rfl⟩

end Sys2Proof.Machine
end

section
/-! PROOFS. The commands as bodies: what an idle block does with a command, a composite command as the bodies of its
sub-commands, and the step of the idle block as an induction over primitive commands and host actions. -/

namespace Sys2Proof.Machine

variable {s t : State}

/-! ### Bodies -/

/-- What a command does once it is accepted (30_encoding.md R140, R145). The tokens of the wire are no commands. -/
def bodyOf : Instr → State → Out State
  | .nop => .next
  | .hist => runHist
  | .build => runBuild
  | .gencode => runGencode
  | .wrmagic => runWrmagic
  | .wrtree => runWrtree
  | .encode => runEncode
  | .flush => runFlush
  | .rdmagic => runRdmagic
  | .rdtree => runRdtree
  | .decode => runDecode
  | .rewind => runRewind
  | .compress => runCompress
  | .decompress => runDecompress
  | .clrerr => fun s => .next (clearError s)
  | .reset => fun s => .next (resetBlock s)
  | .treeInternal => .next
  | .treeLeaf _ => .next
  | .marker _ => .next

/-- What an idle block makes of a command: it ignores it or runs its body. -/
def Accepts (body : State → Out State) (s t : State) : Prop := s.seqr = .idle ∧ (t = s ∨ body s = .next t)

theorem accept_accepts {body : State → Out State} (h : accept body s = .next t) : Accepts body s t := by
  obtain ⟨hi, ⟨-, rfl⟩ | ⟨-, h⟩⟩ := accept_eq_next.1 h
  · exact ⟨hi, .inl rfl⟩
  · exact ⟨hi, .inr h⟩

theorem acceptAlways_accepts {body : State → Out State} (h : acceptAlways body s = .next t) : Accepts body s t := by
  by_cases hi : s.seqr = .idle
  · rw [acceptAlways_idle hi] at h
    exact ⟨hi, .inr h⟩
  · rw [acceptAlways_busy hi] at h
    cases h

theorem exec_accepts {i : Instr} (hi : i.format = .cmd4) (h : exec i s = .next t) : Accepts (bodyOf i) s t := by
  cases i with
  | clrerr | reset => exact acceptAlways_accepts h
  | treeInternal | treeLeaf sym | marker word => cases hi
  | _ => exact accept_accepts h

/-! ### Composites -/

/-- The commands that are no composites: each runs in one go (46_control_and_sequences.md R290). -/
abbrev Primitive (i : Instr) : Prop := i ∉ [Instr.compress, .decompress]

/-- The sub-commands of COMPRESS (46_control_and_sequences.md R290). -/
def compressSteps : List Instr := [.hist, .build, .gencode, .rewind, .wrmagic, .wrtree, .encode, .flush]

/-- The sub-commands of DECOMPRESS (46_control_and_sequences.md R292). -/
def decompressSteps : List Instr := [.rdmagic, .rdtree, .decode, .flush]

theorem runCompress_eq : runCompress s = runSteps 0 (compressSteps.map bodyOf) s := rfl

theorem runDecompress_eq : runDecompress s = runSteps 0 (decompressSteps.map bodyOf) s := rfl

theorem compressSteps_primitive : ∀ i ∈ compressSteps, Primitive i := by decide

theorem decompressSteps_primitive : ∀ i ∈ decompressSteps, Primitive i := by decide

/-- What each of a list of commands keeps, whatever `MSTEP` is, their sequence keeps. -/
theorem runSteps_map_keeps {P : State → Prop} (hstep : ∀ k s, P s → P (setStep k s)) {is : List Instr}
    (hbody : ∀ i ∈ is, ∀ s t, bodyOf i s = .next t → P s → P t) {k : Nat}
    (h : runSteps k (is.map bodyOf) s = .next t) (hs : P s) : P t :=
  runSteps_keeps hstep _ k s t (List.forall_mem_map.2 hbody) h hs

/-- What every primitive command keeps, whatever `MSTEP` is, every command keeps. -/
theorem bodyOf_keeps {P : State → Prop} (hstep : ∀ k s, P s → P (setStep k s))
    (hprim : ∀ i s t, Primitive i → bodyOf i s = .next t → P s → P t) {i : Instr} (h : bodyOf i s = .next t)
    (hs : P s) : P t := by
  by_cases hc : i = .compress
  · subst hc
    exact runSteps_map_keeps hstep (fun i hi s t => hprim i s t (compressSteps_primitive i hi)) h hs
  by_cases hd : i = .decompress
  · subst hd
    exact runSteps_map_keeps hstep (fun i hi s t => hprim i s t (decompressSteps_primitive i hi)) h hs
  · exact hprim i s t (by simp [Primitive, hc, hd]) h hs

/-! ### The step of the idle block -/

/-- A host action that is neither a command nor the reset input writes HIST, the streams and the host's side only
(10_state.md R58, R59; 20_memory.md R89). -/
def HostOnly (s t : State) : Prop :=
  t = { s with hist := t.hist, src := t.src, snk := t.snk, pending := t.pending, hostData := t.hostData,
               free := t.free }

theorem hostWrite_hostOnly (addr : BitVec 12) (v : Nat) (s : State) : HostOnly s (hostWrite addr v s) := by
  unfold hostWrite
  exact iteInduction (motive := HostOnly s) (fun _ => rfl) (fun _ => rfl)

theorem hostRead_hostOnly (addr : BitVec 12) (s : State) : HostOnly s (hostRead addr s) := by
  obtain ⟨d, f, h⟩ := hostRead_sameButRead addr s
  rw [h]
  rfl

theorem takeAction_cases {a : HostAction} (h : takeAction a s = .next t) :
    (∃ i : Instr, i.format = .cmd4 ∧ exec i s = .next t) ∨ t = resetBlock s ∨ HostOnly s t := by
  cases a with
  | write addr v =>
    by_cases h0 : addr.toNat = 0
    · rw [takeAction, if_pos h0] at h
      exact .inl ⟨_, decodeCmd_format v, h⟩
    · rw [takeAction, if_neg h0] at h
      cases h
      exact .inr (.inr (hostWrite_hostOnly addr v s))
  | read addr => cases h; exact .inr (.inr (hostRead_hostOnly addr s))
  | attachSrc bits => cases h; exact .inr (.inr rfl)
  | attachSnk => cases h; exact .inr (.inr rfl)
  | hwReset => cases h; exact .inr (.inl rfl)

/-- What every body and every host action keeps, every step of the idle block keeps. -/
theorem step_keeps {P : State → Prop} (hhost : ∀ s t, HostOnly s t → P s → P t)
    (hbody : ∀ i s t, bodyOf i s = .next t → P s → P t) (hi : s.seqr = .idle) (h : step s = .next t) (hs : P s) :
    P t := by
  cases hp : s.pending with
  | nil =>
    rw [step_idle_nil hi hp] at h
    cases h
    exact hs
  | cons a rest =>
    rw [step_idle_cons hi hp] at h
    have hs : P { s with pending := rest } := hhost _ _ rfl hs
    obtain ⟨i, hf, h⟩ | rfl | h := takeAction_cases h
    · obtain ⟨-, rfl | h⟩ := exec_accepts hf h
      · exact hs
      · exact hbody i _ _ h hs
    · exact hbody .reset _ _ rfl hs
    · exact hhost _ _ h hs

end Sys2Proof.Machine
end

section
/-! PROOFS. Which part of the state each command writes (10_state.md R32, R36 to R38, R45, R53, R60). -/

namespace Sys2Proof.Machine

variable {s t : State}

/-- s with what any command may write taken from t: the error registers, the sequencer, the hidden working state, the
streams and the counter of free values. -/
def worked (s t : State) : State :=
  { s with err := t.err, errcode := t.errcode, errinfo := t.errinfo, seqr := t.seqr, hidden := t.hidden, src := t.src,
           snk := t.snk, free := t.free }

/-- s with what the command may write taken from t: the registers and memories it is named for, besides what any command
may write. A composite may write what its sub-commands may, RESET all but the configuration and the host's side. -/
def written (i : Instr) (s t : State) : State :=
  match i with
  | .hist => { worked s t with hist := t.hist }
  | .build | .rdtree =>
    { worked s t with tv := t.tv, cv := t.cv, degen := t.degen, root := t.root, nn := t.nn, node := t.node,
                      cur := t.cur }
  | .gencode => { worked s t with cv := t.cv, code := t.code }
  | .decode => { worked s t with cur := t.cur }
  | .decompress => { t with code := s.code, hist := s.hist, cfg := s.cfg, pending := s.pending, hostData := s.hostData }
  | .compress | .reset => { t with cfg := s.cfg, pending := s.pending, hostData := s.hostData }
  | _ => worked s t

theorem checkMarker_worked (w : BitVec 32) (s : State) : checkMarker w s = worked s (checkMarker w s) := by
  obtain ⟨-, h⟩ | ⟨-, h⟩ := checkMarker_cases w s <;> rw [h] <;> rfl

theorem bodyOf_prim_writes {i : Instr} (hi : Primitive i) (h : bodyOf i s = .next t) : t = written i s t := by
  cases i with
  | nop | treeInternal | treeLeaf sym | marker word | clrerr | reset => cases h; rfl
  | hist => obtain ⟨src, hist, x, -, rfl⟩ | ⟨src, hist, -, rfl⟩ := runHist_cases h <;> rfl
  | build => obtain ⟨e, info, rfl⟩ | rfl := runBuild_cases h <;> rfl
  | gencode => obtain ⟨-, rfl⟩ | ⟨-, r, -, rfl⟩ := runGencode_cases h <;> rfl
  | wrmagic => obtain ⟨snk, -, rfl⟩ := runWrmagic_cases h; rfl
  | wrtree => obtain ⟨-, rfl⟩ | ⟨-, r, -, rfl⟩ := runWrtree_cases h <;> rfl
  | encode => obtain ⟨-, rfl⟩ | ⟨-, e, -, ⟨x, -, rfl⟩ | ⟨-, snk, -, rfl⟩⟩ := runEncode_cases h <;> rfl
  | flush => obtain ⟨snk, -, rfl⟩ := runFlush_cases h; rfl
  | rdmagic =>
    obtain ⟨-, rfl⟩ | ⟨v, src, -, rfl⟩ := runRdmagic_cases h
    · rfl
    · exact checkMarker_worked (BitVec.ofNat 32 v) { s with src := src }
  | rdtree => obtain ⟨e, info, src, rfl⟩ | ⟨tr, more, -, -, rfl⟩ := runRdtree_cases h <;> rfl
  | decode =>
    obtain ⟨-, rfl⟩ | ⟨-, n, -, ⟨-, rfl⟩ | ⟨-, w, -, ⟨-, rfl⟩ | ⟨-, rfl⟩⟩⟩ := runDecode_cases h <;> rfl
  | rewind => rw [runRewind_cases h]; rfl
  | compress | decompress => simp [Primitive] at hi

/-! ### What is not written -/

/-- The registers and the memory of the tree are those of s (10_state.md R36, R37, R42, R54). -/
def SameTree (s t : State) : Prop :=
  t.tv = s.tv ∧ t.degen = s.degen ∧ t.root = s.root ∧ t.nn = s.nn ∧ t.node = s.node

/-- The configuration and the host's side are those of s (10_state.md R30, R60). -/
def SameHost (s t : State) : Prop := t.cfg = s.cfg ∧ t.pending = s.pending ∧ t.hostData = s.hostData

variable {i : Instr}

theorem written_tree (hi : i ∉ [Instr.build, .rdtree, .reset, .compress, .decompress]) :
    SameTree s (written i s t) := by
  cases i with
  | build | rdtree | reset | compress | decompress => simp at hi
  | _ => exact ⟨rfl, rfl, rfl, rfl, rfl⟩

theorem written_cur (hi : i ∉ [Instr.build, .rdtree, .reset, .decode, .compress, .decompress]) :
    (written i s t).cur = s.cur := by
  cases i with
  | build | rdtree | reset | decode | compress | decompress => simp at hi
  | _ => rfl

theorem written_cv (hi : i ∉ [Instr.gencode, .build, .rdtree, .reset, .compress, .decompress]) :
    (written i s t).cv = s.cv := by
  cases i with
  | gencode | build | rdtree | reset | compress | decompress => simp at hi
  | _ => rfl

theorem written_code (hi : i ∉ [Instr.gencode, .reset, .compress]) : (written i s t).code = s.code := by
  cases i with
  | gencode | reset | compress => simp at hi
  | _ => rfl

theorem written_hist (hi : i ∉ [Instr.hist, .reset, .compress]) : (written i s t).hist = s.hist := by
  cases i with
  | hist | reset | compress => simp at hi
  | _ => rfl

theorem written_host : SameHost s (written i s t) := by
  cases i <;> exact ⟨rfl, rfl, rfl⟩

theorem SameHost.trans {u : State} (h : SameHost s u) (h' : SameHost u t) : SameHost s t := by
  obtain ⟨hc, hp, hh⟩ := h
  obtain ⟨hc', hp', hh'⟩ := h'
  exact ⟨hc'.trans hc, hp'.trans hp, hh'.trans hh⟩

theorem bodyOf_host (h : bodyOf i s = .next t) : SameHost s t := by
  refine bodyOf_keeps (P := SameHost s) (fun _ _ hs => hs) (fun j u v hj h hu => hu.trans ?_) h ⟨rfl, rfl, rfl⟩
  rw [bodyOf_prim_writes hj h]
  exact written_host

theorem decompressSteps_write_no_code_hist :
    ∀ j ∈ decompressSteps, j ∉ [Instr.gencode, .reset, .compress] ∧ j ∉ [Instr.hist, .reset, .compress] := by decide

theorem runDecompress_code_hist (h : runDecompress s = .next t) : t.code = s.code ∧ t.hist = s.hist := by
  rw [runDecompress_eq] at h
  refine runSteps_map_keeps (P := fun u => u.code = s.code ∧ u.hist = s.hist) (fun _ _ hs => hs)
    (fun j hj u v h hu => ?_) h ⟨rfl, rfl⟩
  rw [bodyOf_prim_writes (decompressSteps_primitive j hj) h]
  obtain ⟨hcode, hhist⟩ := decompressSteps_write_no_code_hist j hj
  exact ⟨(written_code hcode).trans hu.1, (written_hist hhist).trans hu.2⟩

theorem bodyOf_writes (h : bodyOf i s = .next t) : t = written i s t := by
  obtain ⟨hc, hp, hh⟩ := bodyOf_host h
  cases i with
  | compress => rw [written, ← hc, ← hp, ← hh]
  | decompress =>
    obtain ⟨hcode, hhist⟩ := runDecompress_code_hist h
    rw [written, ← hc, ← hp, ← hh, ← hcode, ← hhist]
  | _ => exact bodyOf_prim_writes (by simp [Primitive]) h

theorem exec_writes (hi : i.format = .cmd4) (h : exec i s = .next t) : t = written i s t := by
  obtain ⟨-, rfl | h⟩ := exec_accepts hi h
  · cases i <;> rfl
  · exact bodyOf_writes h

/-- Settles O58: a command leaves t as `written` has it, and `written` takes from t only what the command is named for. -/
theorem onlyTheNamedCommandsWrite : Obligations.OnlyTheNamedCommandsWrite := by
  intro i s t hi h
  rw [exec_writes hi h]
  exact ⟨written_tree, written_cur, written_cv, written_code, written_hist, written_host⟩

end Sys2Proof.Machine
end

section
/-! PROOFS. How a command ends: in an error, or with the error registers, the sequencer and the hidden working state as it
found them (10_state.md R33, R34, R49 to R51; 60_exceptions.md R300, R318). -/

namespace Sys2Proof.Machine

variable {s t : State} {i : Instr}

/-- An error has just been raised. -/
def Raised (t : State) : Prop := ∃ e info u, t = raise e info u

/-- The error registers of t are those of s. -/
def SameErrors (s t : State) : Prop := t.err = s.err ∧ t.errcode = s.errcode ∧ t.errinfo = s.errinfo

/-- The hidden working state is empty but for `MSTEP`, as between the sub-commands of a composite. -/
def Cleared (m : Nat) (s : State) : Prop := s.hidden = { Hidden.empty with mstep := m }

/-- A body that succeeds: an idle block is idle again and no working state is left. -/
structure EndsWell (s t : State) : Prop where
  errors : SameErrors s t
  idle : s.seqr = .idle → t.seqr = .idle
  cleared : ∀ {m}, Cleared m s → Cleared m t

theorem EndsWell.of_eq (he : SameErrors s t) (hq : t.seqr = s.seqr) (hh : t.hidden = s.hidden) : EndsWell s t where
  errors := he
  idle h := hq.trans h
  cleared h := hh.trans h

theorem checkMarker_ends (w : BitVec 32) (s : State) : Raised (checkMarker w s) ∨ EndsWell s (checkMarker w s) := by
  obtain ⟨-, h⟩ | ⟨-, h⟩ := checkMarker_cases w s <;> rw [h]
  · exact .inr ⟨⟨rfl, rfl, rfl⟩, fun _ => rfl, id⟩
  · exact .inl ⟨_, _, _, rfl⟩

theorem runGencode_ends (h : runGencode s = .next t) : Raised t ∨ EndsWell s t := by
  obtain ⟨-, rfl⟩ | ⟨-, r, hr, rfl⟩ := runGencode_cases h
  · exact .inl ⟨_, _, _, rfl⟩
  · refine .inr ⟨⟨rfl, rfl, rfl⟩, id, fun hc => ?_⟩
    simp only [Cleared] at hc ⊢
    rw [genLoop_stk _ _ _ hr, hc]
    rfl

theorem runWrtree_ends (h : runWrtree s = .next t) : Raised t ∨ EndsWell s t := by
  obtain ⟨-, rfl⟩ | ⟨-, r, hr, rfl⟩ := runWrtree_cases h
  · exact .inl ⟨_, _, _, rfl⟩
  · refine .inr ⟨⟨rfl, rfl, rfl⟩, id, fun hc => ?_⟩
    simp only [Cleared] at hc ⊢
    rw [serLoop_stk _ _ _ hr, hc]
    rfl

theorem runBuild_ends (h : runBuild s = .next t) : Raised t ∨ EndsWell s t := by
  obtain ⟨e, info, rfl⟩ | ⟨m, r, g, hpq, -, -, rfl⟩ := runBuild_forest h
  · exact .inl ⟨_, _, _, rfl⟩
  · refine .inr ⟨⟨rfl, rfl, rfl⟩, id, fun hc => ?_⟩
    simp only [Cleared, builtState] at hc ⊢
    rw [hpq, hc]
    rfl

theorem runRdtree_ends (h : runRdtree s = .next t) : Raised t ∨ EndsWell s t := by
  obtain ⟨e, info, src, rfl⟩ | ⟨tr, more, -, -, rfl⟩ := runRdtree_cases h
  · exact .inl ⟨_, _, _, rfl⟩
  · refine .inr ⟨⟨rfl, rfl, rfl⟩, fun _ => rfl, fun hc => ?_⟩
    simp only [Cleared, rebuiltState] at hc ⊢
    rw [hc]

/-- CLRERR, RESET and the composites end in their own way. -/
abbrev Plain (i : Instr) : Prop := i ∉ [Instr.clrerr, .reset, .compress, .decompress]

theorem bodyOf_plain_ends (hi : Plain i) (h : bodyOf i s = .next t) : Raised t ∨ EndsWell s t := by
  have same {u : State} (he : SameErrors s u) (hq : u.seqr = s.seqr) (hh : u.hidden = s.hidden) :
      Raised u ∨ EndsWell s u := .inr (.of_eq he hq hh)
  have raised (e : ErrKind) (info : Nat) (u : State) : Raised (raise e info u) ∨ EndsWell s (raise e info u) :=
    .inl ⟨e, info, u, rfl⟩
  cases i with
  | nop | treeInternal | treeLeaf sym | marker word => cases h; exact same ⟨rfl, rfl, rfl⟩ rfl rfl
  | hist =>
    obtain ⟨src, hist, x, -, rfl⟩ | ⟨src, hist, -, rfl⟩ := runHist_cases h
    · exact raised _ _ _
    · exact same ⟨rfl, rfl, rfl⟩ rfl rfl
  | build => exact runBuild_ends h
  | gencode => exact runGencode_ends h
  | wrmagic => obtain ⟨snk, -, rfl⟩ := runWrmagic_cases h; exact same ⟨rfl, rfl, rfl⟩ rfl rfl
  | wrtree => exact runWrtree_ends h
  | encode =>
    obtain ⟨-, rfl⟩ | ⟨-, e, -, ⟨x, -, rfl⟩ | ⟨-, snk, -, rfl⟩⟩ := runEncode_cases h
    · exact raised _ _ _
    · exact raised _ _ _
    · exact same ⟨rfl, rfl, rfl⟩ rfl rfl
  | flush => obtain ⟨snk, -, rfl⟩ := runFlush_cases h; exact same ⟨rfl, rfl, rfl⟩ rfl rfl
  | rdmagic =>
    obtain ⟨-, rfl⟩ | ⟨v, src, -, rfl⟩ := runRdmagic_cases h
    · exact raised _ _ _
    · obtain hr | ⟨he, hq, hc⟩ := checkMarker_ends (BitVec.ofNat 32 v) { s with src := src }
      · exact .inl hr
      · exact .inr ⟨he, hq, hc⟩
  | rdtree => exact runRdtree_ends h
  | decode =>
    obtain ⟨-, rfl⟩ | ⟨-, n, -, ⟨-, rfl⟩ | ⟨-, w, -, ⟨-, rfl⟩ | ⟨-, rfl⟩⟩⟩ := runDecode_cases h
    · exact raised _ _ _
    · exact same ⟨rfl, rfl, rfl⟩ rfl rfl
    · exact raised _ _ _
    · exact same ⟨rfl, rfl, rfl⟩ rfl rfl
  | rewind => rw [runRewind_cases h]; exact same ⟨rfl, rfl, rfl⟩ rfl rfl
  | clrerr | reset | compress | decompress => simp [Plain] at hi

/-! ### The sequencer -/

theorem bodyOf_prim_idle (hi : Primitive i) (h : bodyOf i s = .next t) (hs : s.seqr = .idle) : t.seqr = .idle := by
  cases i with
  | clrerr => cases h; exact hs
  | reset => cases h; rfl
  | compress | decompress => simp [Primitive] at hi
  | _ =>
    obtain ⟨e, info, u, rfl⟩ | hw := bodyOf_plain_ends (by simp [Plain]) h
    · rfl
    · exact hw.idle hs

theorem bodyOf_idle (h : bodyOf i s = .next t) (hs : s.seqr = .idle) : t.seqr = .idle :=
  bodyOf_keeps (P := fun u => u.seqr = .idle) (fun _ _ hs => hs) (fun _ _ _ => bodyOf_prim_idle) h hs

theorem step_idle (hi : s.seqr = .idle) (h : step s = .next t) : t.seqr = .idle :=
  step_keeps (P := fun u => u.seqr = .idle) (fun _ _ h hs => by rw [h]; exact hs) (fun _ _ _ => bodyOf_idle) hi h hi

/-! ### The hidden working state -/

/-- `HiddenOk` inside a composite that is at step m. -/
def WorkOk (m : Nat) (s : State) : Prop := s.err = false → Cleared m s

theorem bodyOf_plain_workOk {m : Nat} (hi : Plain i) (h : bodyOf i s = .next t) (hs : WorkOk m s) : WorkOk m t := by
  obtain ⟨e, info, u, rfl⟩ | ⟨⟨herr, -, -⟩, -, hclear⟩ := bodyOf_plain_ends hi h
  · intro he; cases he
  · exact fun he => hclear (hs (herr.symm.trans he))

/-- A composite sets `MSTEP` before each sub-command and back to 0 at a successful end (10_state.md R51). -/
theorem runSteps_hiddenOk {is : List Instr} (his : ∀ i ∈ is, Plain i) : ∀ {k m : Nat} {s : State},
    runSteps k (is.map bodyOf) s = .next t → WorkOk m s → HiddenOk t := by
  induction is with
  | nil =>
    intro k m s h hs
    cases h
    intro he
    rw [setStep_hidden, hs he]
    rfl
  | cons i is ih =>
    obtain ⟨hi, his⟩ := List.forall_mem_cons.1 his
    intro k m s h hs
    have hset : WorkOk k (setStep k s) := fun he => by rw [Cleared, setStep_hidden, hs he]
    obtain ⟨-, he⟩ | ⟨u, hu, -, h⟩ := thenOk_eq_next.1 h
    · intro hf; rw [he] at hf; cases hf
    · exact ih his h (bodyOf_plain_workOk hi hu hset)

theorem compressSteps_plain : ∀ i ∈ compressSteps, Plain i := by decide

theorem decompressSteps_plain : ∀ i ∈ decompressSteps, Plain i := by decide

theorem bodyOf_hiddenOk (h : bodyOf i s = .next t) (hs : HiddenOk s) : HiddenOk t := by
  have hwork : WorkOk 0 s := hs
  cases i with
  | clrerr | reset => cases h; exact fun _ => rfl
  | compress => exact runSteps_hiddenOk compressSteps_plain h hwork
  | decompress => exact runSteps_hiddenOk decompressSteps_plain h hwork
  | _ => exact bodyOf_plain_workOk (by simp [Plain]) h hwork

theorem step_hiddenOk (hi : s.seqr = .idle) (h : step s = .next t) (hs : HiddenOk s) : HiddenOk t :=
  step_keeps (P := HiddenOk) (fun _ _ h hs => by rw [h]; exact hs) (fun _ _ _ => bodyOf_hiddenOk) hi h hs

/-! ### The error registers -/

theorem ErrKind.code_bounds (e : ErrKind) : 1 ≤ e.code.toNat ∧ e.code.toNat ≤ 11 := by
  cases e <;> decide

theorem Raised.errorRegsOk (h : Raised t) : ErrorRegsOk t := by
  obtain ⟨e, info, u, rfl⟩ := h
  exact ⟨nofun, fun _ => e.code_bounds⟩

theorem SameErrors.errorRegsOk (h : SameErrors s t) (hs : ErrorRegsOk s) : ErrorRegsOk t := by
  obtain ⟨herr, hcode, hinfo⟩ := h
  rwa [ErrorRegsOk, herr, hcode, hinfo]

theorem resetBlock_errorRegsOk (s : State) : ErrorRegsOk (resetBlock s) :=
  ⟨fun _ => ⟨rfl, rfl⟩, nofun⟩

theorem bodyOf_prim_errorRegsOk (hi : Primitive i) (h : bodyOf i s = .next t) (hs : ErrorRegsOk s) :
    ErrorRegsOk t := by
  cases i with
  | clrerr => cases h; exact ⟨fun _ => ⟨rfl, rfl⟩, nofun⟩
  | reset => cases h; exact resetBlock_errorRegsOk s
  | compress | decompress => simp [Primitive] at hi
  | _ =>
    obtain hr | hw := bodyOf_plain_ends (by simp [Plain]) h
    · exact hr.errorRegsOk
    · exact hw.errors.errorRegsOk hs

theorem bodyOf_errorRegsOk (h : bodyOf i s = .next t) (hs : ErrorRegsOk s) : ErrorRegsOk t :=
  bodyOf_keeps (P := ErrorRegsOk) (fun _ _ hs => hs) (fun _ _ _ => bodyOf_prim_errorRegsOk) h hs

/-! ### The tokens of the wire, and the step of a busy block -/

theorem treeInternal_errors (s : State) : Raised (treeInternal s) ∨ SameErrors s (treeInternal s) := by
  unfold treeInternal
  split
  · exact .inl ⟨_, _, _, rfl⟩
  · exact .inr ⟨rfl, rfl, rfl⟩

theorem finishTree_errors (s : State) : Raised (finishTree s) ∨ SameErrors s (finishTree s) := by
  unfold finishTree
  split
  · exact .inr ⟨rfl, rfl, rfl⟩
  · exact .inl ⟨_, _, _, rfl⟩

theorem afterLeaf_errors (s : State) : Raised (afterLeaf s) ∨ SameErrors s (afterLeaf s) := by
  unfold afterLeaf
  split
  · exact finishTree_errors s
  · exact .inr ⟨rfl, rfl, rfl⟩

theorem treeLeaf_errors (field : BitVec 9) (s : State) :
    Raised (treeLeaf field s) ∨ SameErrors s (treeLeaf field s) := by
  unfold treeLeaf
  split
  · exact .inl ⟨_, _, _, rfl⟩
  · split
    · exact .inl ⟨_, _, _, rfl⟩
    · exact afterLeaf_errors _

/-- A token raises an error or leaves the error registers as they are; away from its command it has no effect. -/
theorem exec_token_errors (hi : i.format ≠ .cmd4) (h : exec i s = .next t) : Raised t ∨ SameErrors s t := by
  have same : SameErrors s s := ⟨rfl, rfl, rfl⟩
  cases i with
  | treeInternal =>
    cases h
    cases s.seqr with
    | inTree => exact treeInternal_errors s
    | inMarker | idle => exact .inr same
  | treeLeaf sym =>
    cases h
    cases s.seqr with
    | inTree => exact treeLeaf_errors sym s
    | inMarker | idle => exact .inr same
  | marker word =>
    cases h
    cases s.seqr with
    | inMarker => exact (checkMarker_ends word s).imp_right EndsWell.errors
    | inTree | idle => exact .inr same
  | _ => exact absurd rfl hi

theorem exec_errorRegsOk (h : exec i s = .next t) (hs : ErrorRegsOk s) : ErrorRegsOk t := by
  by_cases hi : i.format = .cmd4
  · obtain ⟨-, rfl | h⟩ := exec_accepts hi h
    · exact hs
    · exact bodyOf_errorRegsOk h hs
  · obtain hr | he := exec_token_errors hi h
    · exact hr.errorRegsOk
    · exact he.errorRegsOk hs

theorem fetchMarker_cases (s : State) :
    (∃ i src, fetchMarker s = .instr i { s with src := src }) ∨ ∃ u, fetchMarker s = .done u ∧ Raised u := by
  unfold fetchMarker
  split
  · exact .inl ⟨_, _, rfl⟩
  · exact .inr ⟨_, rfl, _, _, _, rfl⟩

theorem fetchToken_cases (s : State) :
    (∃ i src, fetchToken s = .instr i { s with src := src }) ∨ ∃ u, fetchToken s = .done u ∧ Raised u := by
  unfold fetchToken
  split
  · exact .inl ⟨_, _, rfl⟩
  · exact .inr ⟨_, rfl, _, _, _, rfl⟩

/-- A busy block takes the reset input, or a token of the source, or finds the source exhausted (43_tree_serial.md R210,
R214; 70_reset_and_hazards.md R340). -/
theorem fetch_busy_cases (hb : s.seqr ≠ .idle) :
    (∃ rest, fetch s = .done (resetBlock { s with pending := rest })) ∨
    (∃ i src, fetch s = .instr i { s with src := src }) ∨ ∃ u, fetch s = .done u ∧ Raised u := by
  unfold fetch
  split
  · exact .inl ⟨_, rfl⟩
  · split
    case h_1 hq => exact absurd hq hb
    case h_2 => exact .inr (fetchMarker_cases s)
    case h_3 => exact .inr (fetchToken_cases s)

theorem step_errorRegsOk (h : step s = .next t) (hs : ErrorRegsOk s) : ErrorRegsOk t := by
  by_cases hi : s.seqr = .idle
  · exact step_keeps (P := ErrorRegsOk) (fun _ _ h hs => by rw [h]; exact hs) (fun _ _ _ => bodyOf_errorRegsOk) hi h hs
  · obtain ⟨rest, hf⟩ | ⟨i, src, hf⟩ | ⟨u, hf, hu⟩ := fetch_busy_cases hi
    · simp only [step, hf] at h
      cases h
      exact resetBlock_errorRegsOk _
    · simp only [step, hf] at h
      exact exec_errorRegsOk h hs
    · simp only [step, hf] at h
      cases h
      exact hu.errorRegsOk

/-- Settles O52: a body raises an error or ends well, and so does a token of the wire. -/
theorem stepKeepsErrorRegisters : Obligations.StepKeepsErrorRegisters := by
  intro s t h
  exact ⟨step_errorRegsOk h, fun hi => step_idle hi h, fun hi => step_hiddenOk hi h⟩

end Sys2Proof.Machine
end

section
/-! PROOFS. `TV = 1` says NODE holds a valid tree, and `CV = 1` that CODE is its table: BUILD and RDTREE make the tree,
GENCODE the table, and no other command writes either (10_state.md R41, R43, R48, R52 to R54). -/

namespace Sys2Proof.Machine

variable {s t : State} {i : Instr}

/-! ### The tree -/

theorem rootLeaf_of_treeAt {k : Nat} {node : List Node} {r : Nat} {tr : Tree} {is : List Nat}
    (h : treeAt k node r = some (tr, is)) : rootLeaf node r = tr.isLeaf := by
  obtain ⟨-, n, -, hn, ⟨hl, rfl, -⟩ | ⟨hl, l, r, ls, rs, -, -, rfl, -⟩⟩ := treeAt_cases h <;>
    simp only [rootLeaf, hn, hl, Tree.isLeaf]

/-- Without a tree the flags are 0 and no entry is specified. -/
theorem treeOk_of_no_tree (htv : t.tv = false) (hcv : t.cv = false) (hdegen : t.degen = false) (hnode : t.node = []) :
    TreeOk t :=
  ⟨fun h => Bool.noConfusion (htv.symm.trans h), fun _ => ⟨hcv, hdegen, hnode⟩⟩

/-- With a tree the flags and NN are those of its nodes. -/
theorem treeOk_of_tree {tr : Tree} {is : List Nat} (htv : t.tv = true)
    (ht : treeAt maxNodes t.node t.root.toNat = some (tr, is)) (hv : tr.Valid)
    (hvisits : is.Perm (List.range t.node.length)) (hnn : t.nn.toNat = t.node.length) (hdegen : t.degen = tr.isLeaf) :
    TreeOk t :=
  ⟨fun _ => ⟨tr, is, ht, hv, hvisits, hnn, hdegen⟩, fun h => Bool.noConfusion (htv.symm.trans h)⟩

theorem builtState_treeOk {m : Merged} {r : Nat} {g : Nat → Tree × List Nat} (hpq : m.pq = [r])
    (hg : Forest (histPairs s.hist) m.node [r] g) (hv : (g r).1.Valid) : TreeOk (builtState m s) := by
  have hlen := hg.length_eq
  have hL := histPairs_length_le s.hist
  have hat := hg.treeAt_root r (List.mem_singleton_self r)
  have hr := treeAt_lt hat
  rw [List.length_singleton] at hlen
  have hroot : (builtState m s).root.toNat = r := by
    rw [builtState, hpq]
    exact Nat.mod_eq_of_lt (show r < 1024 by omega)
  have hmax : treeAt maxNodes m.node r = some (g r) := by
    simpa using treeAt_mono [] (g r).1 (k' := maxNodes) hat (by rw [maxNodes]; omega)
  have hvisits : (g r).2.Perm (List.range m.node.length) := by simpa using hg.visits
  refine treeOk_of_tree (tr := (g r).1) (is := (g r).2) rfl (hroot ▸ hmax) hv hvisits ?_ ?_
  · exact Nat.mod_eq_of_lt (show m.node.length < 1024 by omega)
  · rw [builtState, hpq]
    exact rootLeaf_of_treeAt hat

theorem rebuiltState_treeOk {tr : Tree} (hv : tr.Valid) : TreeOk (rebuiltState tr s) := by
  have hlen : (rebuiltState tr s).node.length = tr.size := by
    rw [rebuiltState, Tree.layout_length, Tree.unweighted_size]
  have hsize := hv.size_le
  refine treeOk_of_tree rfl (treeAt_rebuiltState hv s) hv.unweighted (by rw [hlen]) ?_ ?_
  · rw [hlen]
    exact Nat.mod_eq_of_lt (show tr.size < 1024 by omega)
  · rw [Tree.unweighted_isLeaf]
    rfl

theorem failTree_treeOk (e : ErrKind) (info : Nat) (s : State) : TreeOk (failTree e info (dropTree s)) :=
  treeOk_of_no_tree rfl rfl rfl rfl

theorem runBuild_treeOk (h : runBuild s = .next t) : TreeOk t := by
  obtain ⟨e, info, rfl⟩ | ⟨m, r, g, hpq, hg, hv, rfl⟩ := runBuild_forest h
  · exact failTree_treeOk e info s
  · exact builtState_treeOk hpq hg hv

theorem runRdtree_treeOk (h : runRdtree s = .next t) : TreeOk t := by
  obtain ⟨e, info, src, rfl⟩ | ⟨tr, more, hv, -, rfl⟩ := runRdtree_cases h
  · exact failTree_treeOk e info { s with src := src }
  · exact rebuiltState_treeOk hv

/-- GENCODE sets `CV`, and only with a tree (42_code_generator.md R190). -/
theorem runGencode_treeOk (h : runGencode s = .next t) (hs : TreeOk s) : TreeOk t := by
  obtain ⟨-, rfl⟩ | ⟨htv, r, -, rfl⟩ := runGencode_cases h
  · exact hs
  · exact ⟨hs.1, fun h => Bool.noConfusion (h.symm.trans htv)⟩

theorem bodyOf_prim_treeOk (hi : Primitive i) (h : bodyOf i s = .next t) (hs : TreeOk s) : TreeOk t := by
  cases i with
  | build => exact runBuild_treeOk h
  | rdtree => exact runRdtree_treeOk h
  | gencode => exact runGencode_treeOk h hs
  | reset => cases h; exact treeOk_of_no_tree rfl rfl rfl rfl
  | compress | decompress => simp [Primitive] at hi
  | _ => rw [bodyOf_writes h]; exact hs

theorem bodyOf_treeOk (h : bodyOf i s = .next t) (hs : TreeOk s) : TreeOk t :=
  bodyOf_keeps (P := TreeOk) (fun _ _ hs => hs) (fun _ _ _ => bodyOf_prim_treeOk) h hs

theorem step_treeOk (hi : s.seqr = .idle) (h : step s = .next t) (hs : TreeOk s) : TreeOk t :=
  step_keeps (P := TreeOk) (fun _ _ h hs => by rw [h]; exact hs) (fun _ _ _ => bodyOf_treeOk) hi h hs

/-- Settles O55: BUILD's merges leave a forest of one tree, RDTREE reads a serialization or fails, and no other command
writes the tree. -/
theorem stepKeepsAValidTree : Obligations.StepKeepsAValidTree := by
  intro s t hi hs h
  exact ⟨step_idle hi h, step_treeOk hi h hs⟩

/-! ### The code table -/

theorem codeOk_of_no_code (hcv : t.cv = false) : CodeOk t := fun h => Bool.noConfusion (hcv.symm.trans h)

/-- BUILD and RDTREE leave no code table of the tree before (10_state.md R53). -/
theorem runBuild_codeOk (h : runBuild s = .next t) : CodeOk t := by
  obtain ⟨e, info, rfl⟩ | rfl := runBuild_cases h <;> exact codeOk_of_no_code rfl

theorem runRdtree_codeOk (h : runRdtree s = .next t) : CodeOk t := by
  obtain ⟨e, info, src, rfl⟩ | ⟨tr, more, -, -, rfl⟩ := runRdtree_cases h <;> exact codeOk_of_no_code rfl

theorem runGencode_codeOk (h : runGencode s = .next t) (htree : TreeOk s) (hs : CodeOk s) : CodeOk t := by
  obtain ⟨-, rfl⟩ | ⟨htv, -⟩ := runGencode_cases h
  · exact hs
  · obtain ⟨tr, is, ht, hv, -⟩ := htree.1 htv
    have htreeOf := treeOf_eq_some.2 ⟨is, ht⟩
    obtain ⟨code, hgen, hcode⟩ := runGencode_table htv htreeOf hv
    cases hgen.symm.trans h
    exact fun _ => ⟨tr, htreeOf, hcode⟩

/-- The two invariants of the tree, which GENCODE needs together. -/
def TreeAndCodeOk (s : State) : Prop := TreeOk s ∧ CodeOk s

theorem bodyOf_prim_treeAndCodeOk (hi : Primitive i) (h : bodyOf i s = .next t) (hs : TreeAndCodeOk s) :
    TreeAndCodeOk t := by
  obtain ⟨htree, hcode⟩ := hs
  refine ⟨bodyOf_treeOk h htree, ?_⟩
  cases i with
  | build => exact runBuild_codeOk h
  | rdtree => exact runRdtree_codeOk h
  | gencode => exact runGencode_codeOk h htree hcode
  | reset => cases h; exact codeOk_of_no_code rfl
  | compress | decompress => simp [Primitive] at hi
  | _ => rw [bodyOf_writes h]; exact hcode

theorem bodyOf_treeAndCodeOk (h : bodyOf i s = .next t) (hs : TreeAndCodeOk s) : TreeAndCodeOk t :=
  bodyOf_keeps (P := TreeAndCodeOk) (fun _ _ hs => hs) (fun _ _ _ => bodyOf_prim_treeAndCodeOk) h hs

theorem step_treeAndCodeOk (hi : s.seqr = .idle) (h : step s = .next t) (hs : TreeAndCodeOk s) : TreeAndCodeOk t :=
  step_keeps (P := TreeAndCodeOk) (fun _ _ h hs => by rw [h]; exact hs) (fun _ _ _ => bodyOf_treeAndCodeOk) hi h hs

/-- Settles O56: GENCODE fills the table of the tree held, and a command that makes another tree clears `CV`. -/
theorem stepKeepsTheCodeTable : Obligations.StepKeepsTheCodeTable := by
  intro s t hi htree hcode h
  exact (step_treeAndCodeOk hi h ⟨htree, hcode⟩).2

end Sys2Proof.Machine
end

section
/-! PROOFS. The reset values (10_state.md R70) and the host's register map (10_state.md R58, R59). -/

namespace Sys2Proof.Machine

variable {s : State} {addr : BitVec 12}

/-- Settles O8: the memories hold one value in every entry, and the rest is read off the state. -/
theorem resetStateHoldsResetValues : Obligations.ResetStateHoldsResetValues := by
  refine ⟨rfl, rfl, rfl, rfl, rfl, rfl, fun x => ?_, fun x => ?_, rfl, rfl, fun x => ?_, rfl, rfl, rfl⟩ <;>
    exact rdSym_replicate _ x

/-! ### The bit places of STATUS, a NODE entry and a CODE entry -/

theorem status_fields (s : State) :
    s.status.toNat % 2 = (if s.seqr = .idle then 0 else 1) ∧ s.status.toNat / 2 ^ 1 % 2 = s.err.toNat ∧
    s.status.toNat / 2 ^ 2 % 2 = s.tv.toNat ∧ s.status.toNat / 2 ^ 3 % 2 = s.cv.toNat ∧
    s.status.toNat / 2 ^ 4 % 2 = s.degen.toNat ∧ s.status.toNat / 2 ^ 5 = 0 := by
  have hbusy : (if s.seqr = .idle then 0 else 1) = s.busy.toNat := by
    by_cases h : s.seqr = .idle <;> simp [State.busy, h]
  have := s.busy.toNat_le
  have := s.err.toNat_le
  have := s.tv.toNat_le
  have := s.cv.toNat_le
  have := s.degen.toNat_le
  have hsum : s.status.toNat =
      s.busy.toNat + s.err.toNat * 2 + s.tv.toNat * 4 + s.cv.toNat * 8 + s.degen.toNat * 16 :=
    Nat.mod_eq_of_lt (by omega)
  rw [hbusy, hsum]
  omega

theorem nodeWord_fields (n : Node) :
    nodeWord n % 2 = n.leaf.toNat ∧ nodeWord n / 2 ^ 1 % 2 ^ 9 = n.sym.toNat ∧
    nodeWord n / 2 ^ 10 % 2 ^ 10 = n.left.toNat ∧ nodeWord n / 2 ^ 20 % 2 ^ 10 = n.right.toNat ∧
    nodeWord n / 2 ^ 30 = n.weight := by
  have := n.leaf.toNat_le
  have := n.sym.isLt
  have := n.left.isLt
  have := n.right.isLt
  unfold nodeWord
  omega

theorem codeWord_fields (c : CodeEntry) :
    codeWord c % 2 = c.valid.toNat ∧ codeWord c / 2 ^ 1 % 2 ^ 9 = c.len.toNat ∧ codeWord c / 2 ^ 10 = c.bits.toNat := by
  have := c.valid.toNat_le
  have := c.len.isLt
  unfold codeWord
  omega

/-! ### Reads by address -/

theorem sym_ofNat_offset (base : Nat) (x : Sym) : Fin.ofNat 257 (base + x.val - base) = x := by
  rw [Nat.add_sub_cancel_left]
  exact Fin.ofNat_val_eq_self x

theorem hostRead_hist {x : Sym} (h : addr.toNat = 0x100 + x.val) :
    hostRead addr s = { s with hostData := rdSym s.hist x } := by
  have := x.isLt
  unfold hostRead
  simp only [h, sym_ofNat_offset]
  iterate 7 rw [if_neg (by omega)]
  rw [if_pos (by omega)]

theorem hostRead_code {x : Sym} (h : addr.toNat = 0x800 + x.val) :
    hostRead addr s = { s with hostData := codeWord (rdSym s.code x) } := by
  have := x.isLt
  unfold hostRead
  simp only [h, sym_ofNat_offset]
  iterate 9 rw [if_neg (by omega)]
  rw [if_pos (by omega)]

theorem hostRead_node {i : Nat} {n : Node} (hi : i ≤ 512) (h : addr.toNat = 0x400 + i) (hn : s.node[i]? = some n) :
    hostRead addr s = { s with hostData := nodeWord n } := by
  have hword : hostNode i s = some (nodeWord n) := by rw [hostNode, nodeNat, hn, Option.map_some]
  unfold hostRead
  simp only [h, Nat.add_sub_cancel_left, hword]
  iterate 8 rw [if_neg (by omega)]
  rw [if_pos (by omega)]

theorem hostRead_node_unspecified {i : Nat} (hi : i ≤ 512) (h : addr.toNat = 0x400 + i) (hn : s.node[i]? = none) :
    hostRead addr s =
      { s with hostData := Config.freeWord s.free % 2 ^ (30 + s.cfg.wbits), free := s.free + 1 } := by
  have hword : hostNode i s = none := by rw [hostNode, nodeNat, hn, Option.map_none]
  unfold hostRead
  simp only [h, Nat.add_sub_cancel_left, hword]
  iterate 8 rw [if_neg (by omega)]
  rw [if_pos (by omega)]

theorem hostRead_unassigned
    (h : 0x007 < addr.toNat ∧ addr.toNat < 0x100 ∨ 0x200 < addr.toNat ∧ addr.toNat < 0x400 ∨
      0x600 < addr.toNat ∧ addr.toNat < 0x800 ∨ 0x900 < addr.toNat) :
    hostRead addr s = { s with hostData := 0 } := by
  unfold hostRead
  dsimp only
  iterate 10 rw [if_neg (by omega)]

theorem hostRead_keeps (addr : BitVec 12) (s : State) :
    { hostRead addr s with hostData := s.hostData, free := s.free } = s := by
  obtain ⟨d, f, h⟩ := hostRead_sameButRead addr s
  rw [h]

/-! ### Writes by address -/

theorem hostWrite_hist {x : Sym} (v : Nat) (h : addr.toNat = 0x100 + x.val) :
    hostWrite addr v s = { s with hist := wrSym s.hist x (v % 2 ^ s.cfg.wbits) } := by
  have := x.isLt
  unfold hostWrite
  simp only [h, sym_ofNat_offset]
  rw [if_pos (by omega)]

theorem hostWrite_ignored (v : Nat) (h : 0 < addr.toNat ∧ addr.toNat < 0x100 ∨ 0x200 < addr.toNat) :
    hostWrite addr v s = s := by
  unfold hostWrite
  dsimp only
  rw [if_neg (by omega)]

/-- Settles O60: one law for each range of addresses, and the bit places by arithmetic. -/
theorem hostSeesTheRegisterMap : Obligations.HostSeesTheRegisterMap := by
  intro s addr v
  refine ⟨?_, ?_, ?_, ?_, ?_, ?_, ?_, ?_, fun _ => hostRead_hist, fun i n hi h hn => ?_, fun i hi h hn => ?_,
    fun x h => ?_, hostRead_unassigned, hostRead_keeps addr s, fun x h => ?_, hostWrite_ignored v⟩
  · rintro rfl; rfl
  · rintro rfl; exact ⟨s.status.toNat, rfl, status_fields s⟩
  · rintro rfl; rfl
  · rintro rfl; rfl
  · rintro rfl; rfl
  · rintro rfl; rfl
  · rintro rfl; rfl
  · rintro rfl; rfl
  · exact ⟨_, hostRead_node hi h hn, nodeWord_fields n⟩
  · exact ⟨_, Nat.mod_lt _ (Nat.two_pow_pos _), hostRead_node_unspecified hi h hn⟩
  · exact ⟨_, hostRead_code h, codeWord_fields _⟩
  · rw [hostWrite_hist v h]
    exact ⟨rfl, rfl⟩

end Sys2Proof.Machine
end

section
/-! PROOFS. The streams: a command reads on in the source, appends to the sink and leaves a closed sink as it is
(20_memory.md R80 to R94). -/

namespace Sys2Proof.Machine

variable {s t : State} {i : Instr}

/-! ### The source -/

/-- What the block makes of a source: the bits are the same, and a position within them stays within them (20_memory.md
R80, R82, R84). -/
def ReadsOn (src src' : Source) : Prop :=
  src'.bits = src.bits ∧ (src.pos ≤ src.bits.length → src'.pos ≤ src.bits.length)

theorem ReadsOn.refl (src : Source) : ReadsOn src src := ⟨rfl, id⟩

theorem ReadsOn.trans {a b c : Source} (h : ReadsOn a b) (h' : ReadsOn b c) : ReadsOn a c := by
  obtain ⟨hbits, hpos⟩ := h
  obtain ⟨hbits', hpos'⟩ := h'
  rw [hbits] at hbits' hpos'
  exact ⟨hbits', fun hle => hpos' (hpos hle)⟩

theorem readsOn_advance {src : Source} {n : Nat} (h : n ≤ src.rest.length) : ReadsOn src (src.advance n) := by
  rw [Source.rest_length] at h
  exact ⟨rfl, fun hle => by rw [Source.advance_pos]; omega⟩

theorem readsOn_srcRewind (src : Source) : ReadsOn src (srcRewind src) := ⟨rfl, fun _ => Nat.zero_le _⟩

theorem srcRead_readsOn {n v : Nat} {src src' : Source} (hn : 0 < n) (h : srcRead n src = some (v, src')) :
    ReadsOn src src' := by
  obtain ⟨hlen, -, rfl⟩ := (srcRead_eq_some hn src).1 h
  exact readsOn_advance hlen

theorem countUnits_readsOn (wm : Nat) : ∀ (k : Nat) (src : Source) (hist : Vector Nat 257),
    ReadsOn src (countUnits wm k src hist).1 := by
  intro k
  induction k with
  | zero => intro src hist; exact .refl src
  | succ k ih =>
    intro src hist
    simp only [countUnits]
    split
    · exact .refl src
    · rename_i u src1 hread
      have hunit := srcRead_readsOn (by decide) hread
      split
      · exact hunit
      · exact hunit.trans (ih _ _)

/-- The token fetch reads on, also where it finds the source exhausted (43_tree_serial.md R214, R219). -/
theorem readToken_readsOn (src : Source) :
    (∃ i src', readToken src = .ok (i, src') ∧ ReadsOn src src') ∨
    ∃ src', readToken src = .error src' ∧ ReadsOn src src' := by
  rw [readToken_eq_srcReads]
  cases hflag : srcRead 1 src with
  | none => exact .inr ⟨src, rfl, .refl src⟩
  | some r =>
    obtain ⟨b, src1⟩ := r
    have hreads := srcRead_readsOn (by decide) hflag
    by_cases hb : b = 0
    · exact .inl ⟨.treeInternal, src1, if_pos hb, hreads⟩
    · simp only [hb, if_false]
      cases hfield : srcRead 9 src1 with
      | none => exact .inr ⟨src1, rfl, hreads⟩
      | some r =>
        obtain ⟨v, src2⟩ := r
        exact .inl ⟨.treeLeaf (BitVec.ofNat 9 v), src2, rfl, hreads.trans (srcRead_readsOn (by decide) hfield)⟩

/-! ### The sink -/

/-- What a command makes of a sink: it appends, leaves a closed sink as it is, and closes a sink at a whole byte only
(20_memory.md R85, R87, R90). -/
structure Grows (snk snk' : Sink) : Prop where
  appends : ∃ x, snk'.bits = snk.bits ++ x
  closed : snk.closed = true → snk' = snk
  closes : snk.closed = false → snk'.closed = true → snk'.bits.length % 8 = 0

theorem Grows.refl (snk : Sink) : Grows snk snk where
  appends := ⟨[], (List.append_nil _).symm⟩
  closed _ := rfl
  closes ho hc := absurd (ho.symm.trans hc) (by decide)

theorem Grows.trans {a b c : Sink} (h : Grows a b) (h' : Grows b c) : Grows a c where
  appends := by
    obtain ⟨x, hx⟩ := h.appends
    obtain ⟨y, hy⟩ := h'.appends
    exact ⟨x ++ y, by rw [hy, hx, List.append_assoc]⟩
  closed ha := by
    obtain rfl := h.closed ha
    exact h'.closed ha
  closes ha hc := by
    cases hb : b.closed with
    | false => exact h'.closes hb hc
    | true =>
      obtain rfl := h'.closed hb
      exact h.closes ha hc

theorem snkWrite_grows {n v : Nat} {snk snk' : Sink} (h : snkWrite n v snk = .next snk') : Grows snk snk' := by
  obtain ⟨ho, rfl⟩ := snkWrite_eq_next.1 h
  exact ⟨⟨_, rfl⟩, fun hc => absurd (ho.symm.trans hc) (by decide), nofun⟩

theorem snkFlush_grows {snk snk' : Sink} (h : snkFlush snk = .next snk') : Grows snk snk' := by
  obtain ⟨ho, rfl⟩ := snkFlush_eq_next.1 h
  refine ⟨⟨_, rfl⟩, fun hc => absurd (ho.symm.trans hc) (by decide), fun _ _ => ?_⟩
  rw [List.length_append, List.length_replicate]
  exact padBits_mod _

theorem serLoop_grows {node : List Node} : ∀ (k : Nat) (stk : List StkEntry) (snk : Sink) {r : List StkEntry × Sink},
    serLoop node k stk snk = .next r → Grows snk r.2 := by
  intro k
  induction k with
  | zero => intro stk snk r h; cases h
  | succ k ih =>
    intro stk snk r h
    cases stk with
    | nil => cases h; exact .refl snk
    | cons e stk =>
      simp only [serLoop] at h
      split at h
      · cases h
      · split at h
        · -- a leaf: its flag and its symbol
          split at h
          · rename_i snk1 hw
            obtain ⟨snk0, hflag, hsym⟩ := bindOut_eq_next.1 hw
            exact (snkWrite_grows hflag).trans ((snkWrite_grows hsym).trans (ih _ _ h))
          · cases h
          · cases h
        · -- an internal node: its flag
          split at h
          · rename_i snk1 hw
            exact (snkWrite_grows hw).trans (ih _ _ h)
          · cases h
          · cases h

/-! ### Both streams -/

/-- The streams of t are those of s. -/
def SameStreams (s t : State) : Prop := t.src = s.src ∧ t.snk = s.snk

/-- The block has moved the streams of s to those of t. -/
def Moves (s t : State) : Prop := ReadsOn s.src t.src ∧ Grows s.snk t.snk

theorem SameStreams.moves (h : SameStreams s t) : Moves s t := by
  obtain ⟨hsrc, hsnk⟩ := h
  rw [Moves, hsrc, hsnk]
  exact ⟨.refl _, .refl _⟩

theorem Moves.trans {u : State} (h : Moves s t) (h' : Moves t u) : Moves s u := ⟨h.1.trans h'.1, h.2.trans h'.2⟩

theorem Moves.streamsOk (h : Moves s t) (hs : StreamsOk s) : StreamsOk t := by
  obtain ⟨⟨hbits, hpos⟩, hgrows⟩ := h
  obtain ⟨hle, hwhole⟩ := hs
  refine ⟨hbits ▸ hpos hle, fun hc => ?_⟩
  cases ho : s.snk.closed with
  | false => exact hgrows.closes ho hc
  | true => exact hgrows.closed ho ▸ hwhole ho

theorem encodeLoop_moves {code : Vector CodeEntry 257} : ∀ (k : Nat) (src : Source) (snk : Sink) {e : Encoded},
    encodeLoop code k src snk = .next e → ReadsOn src e.src ∧ Grows snk e.snk := by
  intro k
  induction k with
  | zero => intro src snk e h; cases h; exact ⟨.refl src, .refl snk⟩
  | succ k ih =>
    intro src snk e h
    simp only [encodeLoop] at h
    split at h
    · cases h; exact ⟨.refl src, .refl snk⟩
    · rename_i u src1 hread
      have hunit := srcRead_readsOn (by decide) hread
      split at h
      · split at h
        · rename_i snk1 hw
          obtain ⟨hreads, hgrows⟩ := ih _ _ h
          exact ⟨hunit.trans hreads, (snkWrite_grows hw).trans hgrows⟩
        · cases h
        · cases h
      · cases h; exact ⟨hunit, .refl snk⟩

theorem decodeLoop_moves {node : List Node} {root : Idx} : ∀ (k : Nat) (src : Source) (cur : Idx) (snk : Sink)
    {w : Walked}, decodeLoop node root k src cur snk = .next w → ReadsOn src w.src ∧ Grows snk w.snk := by
  intro k
  induction k with
  | zero => intro src cur snk w h; cases h
  | succ k ih =>
    intro src cur snk w h
    simp only [decodeLoop] at h
    split at h
    · cases h; exact ⟨.refl src, .refl snk⟩
    · rename_i b src1 hread
      have hbit := srcRead_readsOn (by decide) hread
      split at h
      · cases h
      · split at h
        · cases h
        · split at h
          · split at h
            · -- the sentinel
              cases h; exact ⟨hbit, .refl snk⟩
            · -- a unit to emit
              split at h
              · rename_i snk1 hw
                obtain ⟨hreads, hgrows⟩ := ih _ _ _ h
                exact ⟨hbit.trans hreads, (snkWrite_grows hw).trans hgrows⟩
              · cases h
              · cases h
          · -- an internal node
            obtain ⟨hreads, hgrows⟩ := ih _ _ _ h
            exact ⟨hbit.trans hreads, hgrows⟩

/-! ### The tokens of the wire -/

theorem checkMarker_streams (w : BitVec 32) (s : State) : SameStreams s (checkMarker w s) := by
  obtain ⟨-, h⟩ | ⟨-, h⟩ := checkMarker_cases w s <;> rw [h] <;> exact ⟨rfl, rfl⟩

theorem treeInternal_streams (s : State) : SameStreams s (treeInternal s) := by
  unfold treeInternal
  split <;> exact ⟨rfl, rfl⟩

theorem finishTree_streams (s : State) : SameStreams s (finishTree s) := by
  unfold finishTree
  split <;> exact ⟨rfl, rfl⟩

theorem afterLeaf_streams (s : State) : SameStreams s (afterLeaf s) := by
  unfold afterLeaf
  split
  · exact finishTree_streams s
  · exact ⟨rfl, rfl⟩

theorem treeLeaf_streams (field : BitVec 9) (s : State) : SameStreams s (treeLeaf field s) := by
  unfold treeLeaf
  split
  · exact ⟨rfl, rfl⟩
  · split
    · exact ⟨rfl, rfl⟩
    · exact afterLeaf_streams _

/-- A token acts once it has been read, and moves no stream. -/
theorem exec_token_streams (hi : i.format ≠ .cmd4) (h : exec i s = .next t) : SameStreams s t := by
  have same : SameStreams s s := ⟨rfl, rfl⟩
  cases i with
  | treeInternal =>
    cases h
    cases s.seqr with
    | inTree => exact treeInternal_streams s
    | inMarker | idle => exact same
  | treeLeaf sym =>
    cases h
    cases s.seqr with
    | inTree => exact treeLeaf_streams sym s
    | inMarker | idle => exact same
  | marker word =>
    cases h
    cases s.seqr with
    | inMarker => exact checkMarker_streams word s
    | inTree | idle => exact same
  | _ => exact absurd rfl hi

theorem treePass_readsOn (s : State) : ReadsOn s.src (treePass s).src := by
  obtain ⟨i, src, hr, hreads⟩ | ⟨src, hr, hreads⟩ := readToken_readsOn s.src <;> simp only [treePass, hr]
  · cases i with
    | treeInternal => exact (treeInternal_streams { s with src := src }).1 ▸ hreads
    | treeLeaf field => exact (treeLeaf_streams field { s with src := src }).1 ▸ hreads
    | _ => exact hreads
  · exact hreads

theorem treeLoop_readsOn : ∀ (k : Nat) (s : State), ReadsOn s.src (treeLoop k s).src := by
  intro k
  induction k with
  | zero => intro s; exact .refl _
  | succ k ih =>
    intro s
    simp only [treeLoop]
    split
    · exact (treePass_readsOn s).trans (ih _)
    · exact .refl _
    · exact .refl _

/-! ### Commands -/

theorem bodyOf_src_eq (hi : i ∉ [Instr.hist, .encode, .rewind, .rdmagic, .rdtree, .decode, .compress, .decompress])
    (h : bodyOf i s = .next t) : t.src = s.src := by
  cases i with
  | hist | encode | rewind | rdmagic | rdtree | decode | compress | decompress => simp at hi
  | nop | treeInternal | treeLeaf sym | marker word | clrerr | reset => cases h; rfl
  | build => obtain ⟨e, info, rfl⟩ | rfl := runBuild_cases h <;> rfl
  | gencode => obtain ⟨-, rfl⟩ | ⟨-, r, -, rfl⟩ := runGencode_cases h <;> rfl
  | wrmagic => obtain ⟨snk, -, rfl⟩ := runWrmagic_cases h; rfl
  | wrtree => obtain ⟨-, rfl⟩ | ⟨-, r, -, rfl⟩ := runWrtree_cases h <;> rfl
  | flush => obtain ⟨snk, -, rfl⟩ := runFlush_cases h; rfl

theorem bodyOf_snk_eq (hi : i ∉ [Instr.wrmagic, .wrtree, .encode, .flush, .decode, .compress, .decompress])
    (h : bodyOf i s = .next t) : t.snk = s.snk := by
  cases i with
  | wrmagic | wrtree | encode | flush | decode | compress | decompress => simp at hi
  | nop | treeInternal | treeLeaf sym | marker word | clrerr | reset => cases h; rfl
  | hist => obtain ⟨src, hist, x, -, rfl⟩ | ⟨src, hist, -, rfl⟩ := runHist_cases h <;> rfl
  | build => obtain ⟨e, info, rfl⟩ | rfl := runBuild_cases h <;> rfl
  | gencode => obtain ⟨-, rfl⟩ | ⟨-, r, -, rfl⟩ := runGencode_cases h <;> rfl
  | rdmagic =>
    obtain ⟨-, rfl⟩ | ⟨v, src, -, rfl⟩ := runRdmagic_cases h
    · rfl
    · exact (checkMarker_streams _ _).2
  | rdtree => obtain ⟨e, info, src, rfl⟩ | ⟨tr, more, -, -, rfl⟩ := runRdtree_cases h <;> rfl
  | rewind => rw [runRewind_cases h]

theorem runHist_readsOn (h : runHist s = .next t) : ReadsOn s.src t.src := by
  have hcount := countUnits_readsOn (wmax s.cfg) s.src.rest.length s.src (Vector.replicate 257 0)
  obtain ⟨src, hist, x, hc, rfl⟩ | ⟨src, hist, hc, rfl⟩ := runHist_cases h <;> rwa [hc] at hcount

theorem runRdmagic_readsOn (h : runRdmagic s = .next t) : ReadsOn s.src t.src := by
  obtain ⟨-, rfl⟩ | ⟨v, src, hr, rfl⟩ := runRdmagic_cases h
  · exact .refl _
  · rw [(checkMarker_streams _ _).1]
    exact srcRead_readsOn (by decide) hr

theorem runEncode_moves (h : runEncode s = .next t) : Moves s t := by
  obtain ⟨-, rfl⟩ | ⟨-, e, he, ⟨x, -, rfl⟩ | ⟨-, snk, hw, rfl⟩⟩ := runEncode_cases h
  · exact SameStreams.moves ⟨rfl, rfl⟩
  · exact encodeLoop_moves _ _ _ he
  · obtain ⟨hreads, hgrows⟩ := encodeLoop_moves _ _ _ he
    exact ⟨hreads, hgrows.trans (snkWrite_grows hw)⟩

theorem runDecode_moves (h : runDecode s = .next t) : Moves s t := by
  obtain ⟨-, rfl⟩ | ⟨-, n, -, ⟨-, rfl⟩ | ⟨-, w, hw, ⟨-, rfl⟩ | ⟨-, rfl⟩⟩⟩ := runDecode_cases h
  · exact SameStreams.moves ⟨rfl, rfl⟩
  · exact SameStreams.moves ⟨rfl, rfl⟩
  · exact decodeLoop_moves _ _ _ _ hw
  · exact decodeLoop_moves _ _ _ _ hw

theorem bodyOf_prim_readsOn (hi : Primitive i) (h : bodyOf i s = .next t) : ReadsOn s.src t.src := by
  cases i with
  | hist => exact runHist_readsOn h
  | encode => exact (runEncode_moves h).1
  | rewind => rw [runRewind_cases h]; exact readsOn_srcRewind _
  | rdmagic => exact runRdmagic_readsOn h
  | rdtree => cases h; exact treeLoop_readsOn _ (startTree s)
  | decode => exact (runDecode_moves h).1
  | compress | decompress => simp [Primitive] at hi
  | _ => rw [bodyOf_src_eq (by simp) h]; exact .refl _

theorem bodyOf_prim_grows (hi : Primitive i) (h : bodyOf i s = .next t) : Grows s.snk t.snk := by
  cases i with
  | wrmagic => obtain ⟨snk, hw, rfl⟩ := runWrmagic_cases h; exact snkWrite_grows hw
  | wrtree =>
    obtain ⟨-, rfl⟩ | ⟨-, r, hr, rfl⟩ := runWrtree_cases h
    · exact .refl _
    · exact serLoop_grows _ _ _ hr
  | encode => exact (runEncode_moves h).2
  | flush => obtain ⟨snk, hf, rfl⟩ := runFlush_cases h; exact snkFlush_grows hf
  | decode => exact (runDecode_moves h).2
  | compress | decompress => simp [Primitive] at hi
  | _ => rw [bodyOf_snk_eq (by simp) h]; exact .refl _

theorem bodyOf_moves (h : bodyOf i s = .next t) : Moves s t := by
  refine bodyOf_keeps (P := Moves s) (fun _ _ hs => hs) (fun j u v hj h hs => ?_) h (SameStreams.moves ⟨rfl, rfl⟩)
  exact hs.trans ⟨bodyOf_prim_readsOn hj h, bodyOf_prim_grows hj h⟩

theorem exec_moves (h : exec i s = .next t) : Moves s t := by
  by_cases hi : i.format = .cmd4
  · obtain ⟨-, rfl | h⟩ := exec_accepts hi h
    · exact SameStreams.moves ⟨rfl, rfl⟩
    · exact bodyOf_moves h
  · exact (exec_token_streams hi h).moves

/-- Settles O59: each primitive command reads on and appends or leaves a stream as it is, and so do their sequences. -/
theorem sinkIsAppendOnlyAndSourceIsReadOnly : Obligations.SinkIsAppendOnlyAndSourceIsReadOnly := by
  intro i s t hi h
  obtain ⟨hreads, hgrows⟩ := exec_moves h
  refine ⟨hgrows.appends, hgrows.closed, hreads.1, fun hsnk => ?_, fun hsrc => ?_⟩
  all_goals obtain ⟨-, rfl | h⟩ := exec_accepts hi h
  · rfl
  · exact bodyOf_snk_eq hsnk h
  · rfl
  · exact bodyOf_src_eq hsrc h

/-! ### Steps -/

/-- The state a step has reached once it has fetched. -/
def Fetched.state : Fetched → State
  | .instr _ s => s
  | .done s => s

theorem step_moves_fetched (h : step s = .next t) : Moves (fetch s).state t := by
  unfold step at h
  cases hf : fetch s with
  | instr i u => rw [hf] at h; exact exec_moves h
  | done u => rw [hf] at h; cases h; exact SameStreams.moves ⟨rfl, rfl⟩

theorem decode_wireHeader_ok {bs more : List Bool} (h : decode .wireHeader bs = .ok (i, more)) :
    (encode i).length ≤ bs.length := by
  simp only [decode] at h
  split at h
  · cases h
  · rename_i hlen
    cases h
    simpa [encode] using hlen

theorem fetchMarker_moves (s : State) : Moves s (fetchMarker s).state := by
  unfold fetchMarker
  split
  · rename_i hd
    exact ⟨readsOn_advance (decode_wireHeader_ok hd), .refl _⟩
  · exact SameStreams.moves ⟨rfl, rfl⟩

theorem fetchToken_moves (s : State) : Moves s (fetchToken s).state := by
  obtain ⟨i, src, hr, hreads⟩ | ⟨src, hr, hreads⟩ := readToken_readsOn s.src
  all_goals
    simp only [fetchToken, hr]
    exact ⟨hreads, .refl _⟩

theorem hostRead_streams (addr : BitVec 12) (s : State) : SameStreams s (hostRead addr s) := by
  obtain ⟨d, f, h⟩ := hostRead_sameButRead addr s
  rw [h]
  exact ⟨rfl, rfl⟩

theorem hostWrite_streams (addr : BitVec 12) (v : Nat) (s : State) : SameStreams s (hostWrite addr v s) := by
  unfold hostWrite
  exact iteInduction (motive := SameStreams s) (fun _ => ⟨rfl, rfl⟩) (fun _ => ⟨rfl, rfl⟩)

/-- The host attaches a source at its position 0 and an open sink, and writes no stream otherwise (20_memory.md R89). -/
theorem fetchHost_streamsOk (hs : StreamsOk s) : StreamsOk (fetchHost s).state := by
  unfold fetchHost
  split
  · exact hs
  · rename_i addr v rest _
    split
    · exact hs
    · exact (hostWrite_streams addr v { s with pending := rest }).moves.streamsOk hs
  · rename_i addr rest _
    exact (hostRead_streams addr { s with pending := rest }).moves.streamsOk hs
  · exact ⟨Nat.zero_le _, hs.2⟩
  · exact ⟨hs.1, nofun⟩
  · exact hs

theorem fetch_streamsOk (hs : StreamsOk s) : StreamsOk (fetch s).state := by
  unfold fetch
  split
  · exact hs
  · split
    · exact fetchHost_streamsOk hs
    · exact (fetchMarker_moves s).streamsOk hs
    · exact (fetchToken_moves s).streamsOk hs

/-- Settles O53: what is fetched keeps the streams in form, and what is executed moves them only. -/
theorem stepKeepsStreams : Obligations.StepKeepsStreams := by
  intro s t hs h
  exact (step_moves_fetched h).streamsOk (fetch_streamsOk hs)

end Sys2Proof.Machine
end

section
/-! PROOFS. A command that would write or flush a closed sink is refused (20_memory.md R90, 93_implementation_defined.md
U7). -/

namespace Sys2Proof.Machine

variable {s : State}

/-! ### The stream calls and the loops -/

@[simp] theorem bindOut_refused {α β : Type} (r : Refusal) (f : α → Out β) : bindOut (.refused r) f = .refused r :=
  rfl

@[simp] theorem mapOut_refused {α β : Type} (r : Refusal) (f : α → β) : mapOut f (.refused r) = .refused r := rfl

theorem snkFlush_closed {snk : Sink} (h : snk.closed = true) : snkFlush snk = .refused .sinkClosed := if_pos h

/-- WRTREE's walk writes at the first node it takes off the stack (43_tree_serial.md R208). -/
theorem serLoop_closed {node : List Node} {snk : Sink} {e : StkEntry} {n : Node} (hc : snk.closed = true)
    (hn : nodeNat node e.idx = some n) (k : Nat) (stk : List StkEntry) :
    serLoop node (k + 1) (e :: stk) snk = .refused .sinkClosed := by
  rw [serLoop, hn]
  cases n.leaf <;> simp [snkWrite_closed hc]

/-- ENCODE's loop is refused at a first unit with a code, and does nothing without a unit (44_encoder.md R241). -/
theorem encodeLoop_closed {code : Vector CodeEntry 257} {src : Source} {snk : Sink} (hc : snk.closed = true)
    (hu : ∀ u ∈ (units src.rest).head?, (rdSym code (unitSym u)).valid = true) :
    encodeLoop code src.rest.length src snk = .refused .sinkClosed ∨
    encodeLoop code src.rest.length src snk = .next { src := src, snk := snk, noCode := none } := by
  cases hlen : src.rest.length with
  | zero => exact .inr rfl
  | succ k =>
    rcases Nat.lt_or_ge src.rest.length 8 with hshort | hlong
    · rw [encodeLoop, srcRead_of_lt src hshort]
      exact .inr rfl
    · have hvalid := hu _ (by rw [units_long hlong]; rfl)
      rw [encodeLoop, srcRead_of_le src (by decide) hlong]
      simp only [hvalid, if_true, snkWrite_closed hc]
      exact .inl trivial

/-- DECODE's loop on a closed sink is refused where on an open one it emits (45_decoder.md R259). -/
theorem decodeLoop_closed {node : List Node} {root : Idx} {snk : Sink} (hc : snk.closed = true) {bits : List Bool} :
    ∀ (k : Nat) (src : Source) (cur : Idx) {w : Walked},
      decodeLoop node root k src cur { bits := bits, closed := false } = .next w → w.snk.bits ≠ bits →
      decodeLoop node root k src cur snk = .refused .sinkClosed := by
  intro k
  induction k with
  | zero => intro src cur w h; cases h
  | succ k ih =>
    intro src cur w h hne
    simp only [decodeLoop] at h ⊢
    split at h
    · cases h; exact absurd rfl hne
    · split at h
      · cases h
      · split at h
        · cases h
        · split at h
          · rename_i hleaf
            rw [if_pos hleaf]
            split at h
            · -- the sentinel
              cases h; exact absurd rfl hne
            · -- a unit to emit
              rename_i hsym
              rw [if_neg hsym, snkWrite_closed hc]
          · -- an internal node
            rename_i hleaf
            rw [if_neg hleaf]
            exact ih _ _ h hne

/-- A decoding that emits a unit writes to an open sink (45_decoder.md R264). -/
theorem decodeLoop_emits {node : List Node} {root : Idx} {tr : Tree} {is : List Nat} {src : Source} {u : Nat}
    {out : List Nat} {rest : List Bool} (hroot : treeAt maxNodes node root.toNat = some (tr, is))
    (hnl : tr.isLeaf = false)
    (hd : tr.walk tr src.rest [] = .done (u :: out) rest ∨ tr.walk tr src.rest [] = .truncated (u :: out)) :
    ∃ w, decodeLoop node root (src.rest.length + 1) src root { bits := [], closed := false } = .next w ∧
      w.snk.bits ≠ [] := by
  have hwalk := decodeLoop_walk hroot hnl (src.rest.length + 1) src root [] tr maxNodes is [] (Nat.lt_succ_self _)
    hroot hnl
  obtain hd | hd := hd
  all_goals
    rw [hd] at hwalk
    obtain ⟨c, n, more, hout, hloop, -⟩ := hwalk
    obtain rfl : u :: out = more := hout
    exact ⟨_, hloop, by simp [bitsN]⟩

/-! ### The commands -/

theorem runWrtree_closed {tr : Tree} (hc : s.snk.closed = true) (htv : s.tv = true)
    (ht : treeOf s.node s.root.toNat = some tr) : runWrtree s = .refused .sinkClosed := by
  obtain ⟨is, hat⟩ := treeOf_eq_some.1 ht
  obtain ⟨-, n, -, hn, -⟩ := treeAt_cases hat
  rw [runWrtree, if_pos htv, walkFuel, serLoop_closed hc hn, mapOut_refused]

theorem runEncode_closed (hc : s.snk.closed = true) (hcv : s.cv = true)
    (hu : ∀ u ∈ (units s.src.rest).head?, (rdSym s.code (unitSym u)).valid = true) :
    runEncode s = .refused .sinkClosed := by
  rw [runEncode, if_pos hcv]
  obtain h | h := encodeLoop_closed hc hu <;> rw [h]
  · rfl
  · simp only [bindOut_next, snkWrite_closed hc, mapOut_refused]

theorem runDecode_closed {tr : Tree} {u : Nat} {out : List Nat} {rest : List Bool} (hc : s.snk.closed = true)
    (htv : s.tv = true) (ht : treeOf s.node s.root.toNat = some tr)
    (hd : tr.decode s.src.rest = .done (u :: out) rest ∨ tr.decode s.src.rest = .truncated (u :: out)) :
    runDecode s = .refused .sinkClosed := by
  obtain ⟨is, hat⟩ := treeOf_eq_some.1 ht
  obtain ⟨m, n, -, hn, ⟨-, rfl, -⟩ | ⟨hl, l, r, ls, rs, -, -, rfl, -⟩⟩ := treeAt_cases hat
  · simp [Tree.decode] at hd
  · obtain ⟨w, hw, hne⟩ := decodeLoop_emits hat rfl hd
    rw [runDecode, if_pos htv, nodeAt, hn, decodeLoop_closed hc _ _ _ hw hne]
    simp only [hl, Bool.false_eq_true, if_false, bindOut_refused]

/-- Settles O14: the first write or flush that a command makes is refused, and DECODE makes one where it emits. -/
theorem closedSinkIsNeverWritten : Obligations.ClosedSinkIsNeverWritten := by
  intro s hready hc
  refine ⟨?_, ?_, fun t htv ht => ?_, fun hcv hu => ?_, fun t u out rest htv ht hd => ?_⟩
  · exact (accept_ready hready).trans (by rw [runWrmagic, snkWrite_closed hc, mapOut_refused])
  · exact (accept_ready hready).trans (by rw [runFlush, snkFlush_closed hc, mapOut_refused])
  · exact (accept_ready hready).trans (runWrtree_closed hc htv ht)
  · exact (accept_ready hready).trans (runEncode_closed hc hcv hu)
  · exact (accept_ready hready).trans (runDecode_closed hc htv ht hd)

end Sys2Proof.Machine
end

section
/-! PROOFS. The sixteen command codes (30_encoding.md R140, R141), when a command is accepted (R145), and the marker that
RDMAGIC compares (R132). -/

namespace Sys2Proof.Machine

variable {i : Instr} {s : State}

/-! ### Command codes -/

/-- Bits above bit 3 of a value written to `CMD` are ignored (30_encoding.md R141). -/
theorem decodeCmd_mod (v : Nat) : decodeCmd (v % 16) = decodeCmd v := by
  rw [decodeCmd, decodeCmd, Nat.mod_mod]

theorem decode_cmd4 {bs : List Bool} (h : 4 ≤ bs.length) :
    decode .cmd4 bs = .ok (decodeCmd (bitsVal (bs.take 4)), bs.drop 4) :=
  if_neg (Nat.not_lt.2 h)

theorem encode_cmd4_length (hi : i.format = .cmd4) : (encode i).length = 4 := by
  cases i with
  | treeInternal | treeLeaf sym | marker word => cases hi
  | _ => exact bitsN_length 4 _

/-- The command table is the same for the decoder and the encoder (30_encoding.md R140). -/
theorem decodeCmd_encode (hi : i.format = .cmd4) : decodeCmd (bitsVal (encode i)) = i := by
  cases i with
  | treeInternal | treeLeaf sym | marker word => cases hi
  | _ => rfl

/-- Settles O4: the code of a command is the value of the four bits that the encoder gives it. -/
theorem everyCommandCodeIsAssigned : Obligations.EveryCommandCodeIsAssigned := by
  refine ⟨fun bs hbs => ⟨_, decodeCmd_format _, decode_cmd4 hbs⟩, fun v => (decodeCmd_mod v).symm, fun i hi => ?_⟩
  have hcode := bitsVal_lt (encode i)
  rw [encode_cmd4_length hi] at hcode
  exact ⟨bitsVal (encode i), hcode, decodeCmd_encode hi⟩

/-! ### Acceptance -/

/-- Every command but CLRERR and RESET is its body behind `accept` (30_encoding.md R145). -/
theorem exec_eq_accept (hi : i.format = .cmd4) (hclr : i ≠ .clrerr) (hres : i ≠ .reset) :
    exec i s = accept (bodyOf i) s := by
  cases i with
  | clrerr => exact absurd rfl hclr
  | reset => exact absurd rfl hres
  | treeInternal | treeLeaf sym | marker word => cases hi
  | _ => rfl

theorem exec_clrerr (s : State) : exec .clrerr s = acceptAlways (bodyOf .clrerr) s := rfl

theorem exec_reset (s : State) : exec .reset s = acceptAlways (bodyOf .reset) s := rfl

theorem exec_busy (hi : i.format = .cmd4) (hb : s.seqr ≠ .idle) : exec i s = .refused .commandWhileBusy := by
  by_cases hclr : i = .clrerr
  · rw [hclr, exec_clrerr, acceptAlways_busy hb]
  by_cases hres : i = .reset
  · rw [hres, exec_reset, acceptAlways_busy hb]
  · rw [exec_eq_accept hi hclr hres, accept_busy hb]

/-- Settles O13: a command that looks at `ERR` is ignored while it is set, and all look at `BUSY`. -/
theorem commandsAreAcceptedOnlyWhenReady : Obligations.CommandsAreAcceptedOnlyWhenReady := by
  intro i s hi
  refine ⟨fun hidle herr hclr hres => ?_, exec_busy hi⟩
  rw [exec_eq_accept hi hclr hres, accept_error hidle herr]

/-! ### The marker -/

theorem exec_marker (w : BitVec 32) (hm : s.seqr = .inMarker) : exec (.marker w) s = .next (checkMarker w s) := by
  rw [exec, execMarker, hm]

/-- Settles O30: inside RDMAGIC a marker is compared with `MAGIC`, and the comparison has two outcomes. -/
theorem markerIsComparedWithMagic : Obligations.MarkerIsComparedWithMagic := by
  intro s w hm
  rw [exec_marker w hm]
  obtain ⟨heq, h⟩ | ⟨hne, h⟩ := checkMarker_cases w s
  · exact ⟨fun _ => congrArg _ h, absurd heq⟩
  · exact ⟨fun heq => absurd heq hne, fun _ => congrArg _ h⟩

end Sys2Proof.Machine
end

section
/-! PROOFS. The command HIST (40_frequency_counter.md R160 to R164): the two ends of its counting loop. -/

namespace Sys2Proof.Machine

/-- Settles O18: the body of an accepted HIST leaves the histogram of the units, whose total follows from its entries. -/
theorem histCountsTheUnits : Obligations.HistCountsTheUnits := by
  refine ⟨rfl, fun s hready hle => ?_⟩
  obtain ⟨h, hrun, hcounts⟩ := runHist_counts hle
  exact ⟨h, (accept_ready hready).trans hrun, hcounts, hcounts.total (units_lt s.src.rest)⟩

/-- Settles O19: the body of an accepted HIST stops at the first unit whose count is already `WMAX`. -/
theorem histOverflowStopsBeforeTheCount : Obligations.HistOverflowStopsBeforeTheCount := by
  intro s pre post u hready hus hu hle
  obtain ⟨h, hrun, hcounts⟩ := runHist_overflow hus hu hle
  exact ⟨h, (accept_ready hready).trans hrun, hcounts⟩

end Sys2Proof.Machine
end

section
/-! PROOFS. The command BUILD (41_tree_builder.md R170 to R183): its errors, one pass of its merge loop, and the nodes it
makes. -/

namespace Sys2Proof.Machine

variable {s : State} {node lvs : List Node} {pq rest : List Nat} {a b c k l wm : Nat}

/-! ### Errors -/

/-- An accepted BUILD that fails records the error, drops the tree and leaves all else as it was (60_exceptions.md R318,
R319). -/
theorem execBuild_of_failTree {e : ErrKind} {info : Nat} (hready : Ready s)
    (hrun : runBuild s = .next (failTree e info (dropTree s))) :
    ∃ t, exec .build s = .next t ∧ t.err = true ∧ t.errcode = e.code ∧ t.errinfo = BitVec.ofNat 32 info ∧
      t.tv = false ∧ t.cv = false ∧ t.degen = false ∧ t.cur = idxNil ∧
      { t with err := s.err, errcode := s.errcode, errinfo := s.errinfo, tv := s.tv, cv := s.cv, degen := s.degen,
               cur := s.cur, node := s.node, root := s.root, nn := s.nn, hidden := s.hidden, free := s.free } = s :=
  ⟨_, (accept_ready hready).trans hrun, rfl, rfl, rfl, rfl, rfl, rfl, rfl,
    congrArg (fun q => { s with seqr := q }) hready.1.symm⟩

/-- Settles O20: BUILD looks at the sentinel's count before anything else. -/
theorem buildRejectsHistogramWithoutSentinel : Obligations.BuildRejectsHistogramWithoutSentinel :=
  fun _ hready hsent => execBuild_of_failTree hready (runBuild_badHist hsent)

/-- Settles O21: without an overflow the root would weigh the total. -/
theorem buildOverflowsAboveWmax : Obligations.BuildOverflowsAboveWmax :=
  fun _ hready hsent hle htotal => execBuild_of_failTree hready (runBuild_total_overflow hsent hle htotal)

/-! ### One pass of the merge loop -/

/-- The indices a and b are the least and the second least of the set under the order of 00_scope.md R16, and `rest` is
what a pass leaves of it. -/
structure TwoLeast (node : List Node) (pq : List Nat) (a b : Nat) (rest : List Nat) : Prop where
  perm : pq.Perm (a :: b :: rest)
  less : nodeLess node a b = true
  least : ∀ c ∈ rest, nodeLess node b c = true

/-- There is a least element of a set that is not empty. -/
theorem exists_popLeast (h : 1 ≤ pq.length) : ∃ a pq', popLeast node pq = some (a, pq') := by
  cases pq with
  | nil => cases h
  | cons i is => exact ⟨_, _, rfl⟩

/-- A pass over two or more elements removes the two least and joins them, unless their sum is too large
(41_tree_builder.md R172 to R174, R178). -/
theorem mergeLoop_pass (wm k : Nat) (hnodup : pq.Nodup) (h2 : 2 ≤ pq.length) :
    ∃ a b rest, TwoLeast node pq a b rest ∧
      mergeLoop wm (k + 1) node pq =
        if wm < weightOf node a + weightOf node b then { node := node, pq := rest, overflow := true }
        else mergeLoop wm k (node ++ [mergedNode node a b]) (rest ++ [node.length]) := by
  obtain ⟨a, pq1, ha⟩ := exists_popLeast (node := node) (Nat.one_le_of_lt h2)
  have hlen := popLeast_length ha
  obtain ⟨b, rest, hb⟩ := exists_popLeast (node := node) (pq := pq1) (by omega)
  obtain ⟨hpa, hnd1, hla⟩ := popLeast_eq_some hnodup ha
  obtain ⟨hpb, -, hlb⟩ := popLeast_eq_some hnd1 hb
  refine ⟨a, b, rest, ⟨hpa.trans (hpb.cons a), hla b (hpb.mem_iff.2 List.mem_cons_self), hlb⟩, ?_⟩
  simp only [mergeLoop, ha, hb, mergedNode]

/-- With fewer than two elements nothing is left to join. -/
theorem mergeLoop_of_lt_two (wm k : Nat) (h : pq.length < 2) :
    mergeLoop wm k node pq = { node := node, pq := pq, overflow := false } := by
  cases k with
  | zero => rfl
  | succ k =>
    cases pq with
    | nil => rfl
    | cons i is =>
      obtain rfl : is = [] := List.eq_nil_of_length_eq_zero (by simpa using h)
      simp [mergeLoop, popLeast, leastIdx]

/-- Settles O23: the order of a pass, written out. -/
theorem mergePassTakesTheTwoLeast : Obligations.MergePassTakesTheTwoLeast := by
  intro wm k node pq hnodup h2
  obtain ⟨a, b, rest, hab, hpass⟩ := mergeLoop_pass (node := node) wm k hnodup h2
  exact ⟨a, b, rest, hab.perm, nodeLess_iff.1 hab.less, fun c hc => nodeLess_iff.1 (hab.least c hc), hpass⟩


/-! ### The nodes of the merge loop -/

/-- Node k joins the two least of the nodes below it that are still in the priority set, the lesser to the left
(41_tree_builder.md R172 to R174). -/
def JoinsTwoLeast (node : List Node) (l k : Nat) : Prop :=
  ∃ a b x y, a < k ∧ b < k ∧ Unmerged node l k a ∧ Unmerged node l k b ∧ node[a]? = some x ∧ node[b]? = some y ∧
    (x.weight < y.weight ∨ x.weight = y.weight ∧ a < b) ∧
    (∀ c z, c < k → Unmerged node l k c → c ≠ a → c ≠ b → node[c]? = some z →
      y.weight < z.weight ∨ y.weight = z.weight ∧ b < c) ∧
    node[k]? = some { leaf := false, sym := 0#9, left := BitVec.ofNat 10 a, right := BitVec.ofNat 10 b,
                      weight := x.weight + y.weight }

/-- What is true of the node memory and the priority set between two passes: the leaves come first, each node after them
joins the two least of its time, and the set holds the nodes that are no child. A pass adds a node and takes one off the
set, so that `room` keeps every index within 10 bits. -/
structure MergeHistory (lvs node : List Node) (pq : List Nat) : Prop where
  nodup : pq.Nodup
  leaves : lvs <+: node
  joins : ∀ k, lvs.length ≤ k → k < node.length → JoinsTwoLeast node lvs.length k
  mem_iff : ∀ c, c ∈ pq ↔ c < node.length ∧ Unmerged node lvs.length node.length c
  room : node.length + pq.length ≤ 1024

/-- A node added later is no parent of an earlier time. -/
theorem unmerged_append (more : List Node) (hk : k ≤ node.length) :
    Unmerged (node ++ more) l k c ↔ Unmerged node l k c := by
  refine forall₄_congr fun j n _ hj => ?_
  rw [List.getElem?_append_left (hj.trans_le hk)]

theorem JoinsTwoLeast.append (h : JoinsTwoLeast node l k) (more : List Node) (hk : k < node.length) :
    JoinsTwoLeast (node ++ more) l k := by
  obtain ⟨a, b, x, y, ha, hb, hua, hub, hx, hy, hless, hleast, hnode⟩ := h
  have hget : ∀ i, i ≤ k → (node ++ more)[i]? = node[i]? := fun i hi => List.getElem?_append_left (hi.trans_lt hk)
  have hun : ∀ i, Unmerged (node ++ more) l k i ↔ Unmerged node l k i := fun i => unmerged_append more hk.le
  refine ⟨a, b, x, y, ha, hb, (hun a).2 hua, (hun b).2 hub, (hget a ha.le).trans hx, (hget b hb.le).trans hy, hless,
    fun c z hc hu hca hcb hz => ?_, (hget k le_rfl).trans hnode⟩
  exact hleast c z hc ((hun c).1 hu) hca hcb ((hget c hc.le).symm.trans hz)

/-- The children of a node were made before it. -/
theorem JoinsTwoLeast.children_lt {n : Node} (h : JoinsTwoLeast node l k) (hn : node[k]? = some n) :
    n.left.toNat < k ∧ n.right.toNat < k := by
  obtain ⟨a, b, x, y, ha, hb, -, -, -, -, -, -, hnode⟩ := h
  cases hnode.symm.trans hn
  exact ⟨(Nat.mod_le a _).trans_lt ha, (Nat.mod_le b _).trans_lt hb⟩

/-- The last node is no child, and neither is the one to come. -/
theorem MergeHistory.unmerged_of_le (h : MergeHistory lvs node pq) (hc : node.length ≤ c + 1) :
    Unmerged node lvs.length node.length c := by
  intro j n hlj hj hn
  have hlt := (h.joins j hlj hj).children_lt hn
  omega

theorem weightOf_of_getElem? {i : Nat} {n : Node} (h : node[i]? = some n) : weightOf node i = n.weight := by
  simp only [weightOf, nodeNat, h]

theorem TwoLeast.mem_rest_iff (hab : TwoLeast node pq a b rest) (hnodup : pq.Nodup) :
    c ∈ rest ↔ c ∈ pq ∧ c ≠ a ∧ c ≠ b := by
  have hnd := hab.perm.nodup_iff.1 hnodup
  simp only [List.nodup_cons, List.mem_cons, not_or] at hnd
  obtain ⟨⟨-, har⟩, hbr, -⟩ := hnd
  rw [hab.perm.mem_iff, List.mem_cons, List.mem_cons]
  constructor
  · exact fun hc => ⟨.inr (.inr hc), ne_of_mem_of_not_mem hc har, ne_of_mem_of_not_mem hc hbr⟩
  · rintro ⟨rfl | rfl | hc, hca, hcb⟩
    · exact absurd rfl hca
    · exact absurd rfl hcb
    · exact hc

/-- The node a pass adds joins the two least of the nodes that are no child yet. -/
theorem MergeHistory.joins_mergedNode (h : MergeHistory lvs node pq) (hab : TwoLeast node pq a b rest) :
    JoinsTwoLeast (node ++ [mergedNode node a b]) lvs.length node.length := by
  obtain ⟨ha, hua⟩ := (h.mem_iff a).1 (hab.perm.mem_iff.2 (by simp))
  obtain ⟨hb, hub⟩ := (h.mem_iff b).1 (hab.perm.mem_iff.2 (by simp))
  have hx := List.getElem?_eq_getElem ha
  have hy := List.getElem?_eq_getElem hb
  have hget : ∀ i, i < node.length → (node ++ [mergedNode node a b])[i]? = node[i]? :=
    fun i hi => List.getElem?_append_left hi
  have hun : ∀ i, Unmerged (node ++ [mergedNode node a b]) lvs.length node.length i ↔
      Unmerged node lvs.length node.length i := fun i => unmerged_append _ le_rfl
  have hless := nodeLess_iff.1 hab.less
  rw [weightOf_of_getElem? hx, weightOf_of_getElem? hy] at hless
  refine ⟨a, b, node[a], node[b], ha, hb, (hun a).2 hua, (hun b).2 hub, (hget a ha).trans hx, (hget b hb).trans hy,
    hless, fun c z hc hu hca hcb hz => ?_, ?_⟩
  · have hrest : c ∈ rest := (hab.mem_rest_iff h.nodup).2 ⟨(h.mem_iff c).2 ⟨hc, (hun c).1 hu⟩, hca, hcb⟩
    have hleast := nodeLess_iff.1 (hab.least c hrest)
    rwa [weightOf_of_getElem? hy, weightOf_of_getElem? ((hget c hc).symm.trans hz)] at hleast
  · rw [List.getElem?_concat_length, mergedNode, weightOf_of_getElem? hx, weightOf_of_getElem? hy, internalNode]

/-- The node a pass adds makes children of the two it joins, and of no other. -/
theorem unmerged_mergedNode (ha : a < 1024) (hb : b < 1024) (hl : l ≤ node.length) :
    Unmerged (node ++ [mergedNode node a b]) l (node.length + 1) c ↔
      Unmerged node l node.length c ∧ c ≠ a ∧ c ≠ b := by
  have hleft : (mergedNode node a b).left.toNat = a := Nat.mod_eq_of_lt ha
  have hright : (mergedNode node a b).right.toNat = b := Nat.mod_eq_of_lt hb
  rw [← unmerged_append [mergedNode node a b] le_rfl]
  constructor
  · intro h
    obtain ⟨hca, hcb⟩ := h node.length _ hl (Nat.lt_succ_self _) List.getElem?_concat_length
    exact ⟨fun j n hlj hj => h j n hlj (Nat.lt_succ_of_lt hj), fun e => hca (hleft.trans e.symm),
      fun e => hcb (hright.trans e.symm)⟩
  · rintro ⟨h, hca, hcb⟩ j n hlj hj hn
    obtain hj | rfl := Nat.lt_succ_iff_lt_or_eq.1 hj
    · exact h j n hlj hj hn
    · cases List.getElem?_concat_length.symm.trans hn
      rw [hleft, hright]
      exact ⟨hca.symm, hcb.symm⟩

/-- A pass keeps the history (41_tree_builder.md R172 to R174). -/
theorem MergeHistory.pass (h : MergeHistory lvs node pq) (hab : TwoLeast node pq a b rest) :
    MergeHistory lvs (node ++ [mergedNode node a b]) (rest ++ [node.length]) := by
  obtain ⟨ha, -⟩ := (h.mem_iff a).1 (hab.perm.mem_iff.2 (by simp))
  obtain ⟨hb, -⟩ := (h.mem_iff b).1 (hab.perm.mem_iff.2 (by simp))
  have hroom := h.room
  have hlen := hab.perm.length_eq
  have hl := h.leaves.length_le
  have hnd := hab.perm.nodup_iff.1 h.nodup
  have hmem : ∀ c, c ∈ rest ↔ (c < node.length ∧ Unmerged node lvs.length node.length c) ∧ c ≠ a ∧ c ≠ b :=
    fun c => (hab.mem_rest_iff h.nodup).trans (and_congr_left' (h.mem_iff c))
  simp only [List.length_cons] at hlen
  refine ⟨?_, h.leaves.trans (List.prefix_append _ _), fun k hlk hk => ?_, fun c => ?_, ?_⟩
  · rw [← List.concat_eq_append]
    exact hnd.of_cons.of_cons.concat fun hm => ((hmem _).1 hm).1.1.ne rfl
  · rw [List.length_append, List.length_singleton] at hk
    obtain hk | rfl := Nat.lt_succ_iff_lt_or_eq.1 hk
    · exact (h.joins k hlk hk).append _ hk
    · exact h.joins_mergedNode hab
  · rw [List.length_append, List.length_singleton, unmerged_mergedNode (by omega) (by omega) hl, List.mem_append,
      List.mem_singleton, hmem]
    constructor
    · rintro (⟨⟨hc, hu⟩, hne⟩ | rfl)
      · exact ⟨hc.trans (Nat.lt_succ_self _), hu, hne⟩
      · exact ⟨Nat.lt_succ_self _, h.unmerged_of_le (Nat.le_succ _), ha.ne', hb.ne'⟩
    · rintro ⟨hc, hu, hne⟩
      exact (Nat.lt_succ_iff_lt_or_eq.1 hc).imp_left fun hc => ⟨⟨hc, hu⟩, hne⟩
  · simp only [List.length_append, List.length_singleton]
    omega

/-- The merge loop keeps the history, unless it stops at a sum that is too large. -/
theorem MergeHistory.of_mergeLoop (wm k : Nat) (h : MergeHistory lvs node pq)
    (ho : (mergeLoop wm k node pq).overflow = false) :
    MergeHistory lvs (mergeLoop wm k node pq).node (mergeLoop wm k node pq).pq := by
  induction k generalizing node pq with
  | zero => exact h
  | succ k ih =>
    by_cases h2 : pq.length < 2
    · rw [mergeLoop_of_lt_two wm _ h2]
      exact h
    · obtain ⟨a, b, rest, hab, hpass⟩ := mergeLoop_pass (node := node) wm k h.nodup (Nat.le_of_not_lt h2)
      rw [hpass] at ho ⊢
      split at ho
      · cases ho
      · rename_i hw
        rw [if_neg hw]
        exact ih (h.pass hab) ho

/-- The leaves begin the history: all of them are in the set (41_tree_builder.md R171). -/
theorem mergeHistory_of_leaves (hroom : lvs.length ≤ 512) : MergeHistory lvs lvs (List.range lvs.length) where
  nodup := List.nodup_range
  leaves := List.prefix_rfl
  joins k hlk hk := absurd hk (Nat.not_lt.2 hlk)
  mem_iff c := by
    rw [List.mem_range]
    exact ⟨fun hc => ⟨hc, fun j n hlj hj => absurd hj (Nat.not_lt.2 hlj)⟩, And.left⟩
  room := by rw [List.length_range]; omega

/-- One element is left at the end, the last node made (41_tree_builder.md R175). -/
theorem MergeHistory.root_eq {r : Nat} (h : MergeHistory lvs node [r]) : r + 1 = node.length := by
  have hr := ((h.mem_iff r).1 (List.mem_singleton_self r)).1
  have hlast := (h.mem_iff (node.length - 1)).2 ⟨by omega, h.unmerged_of_le (by omega)⟩
  rw [List.mem_singleton] at hlast
  omega

/-! ### The leaves -/

theorem leafNodes_length (cs : List Nat) : ∀ i,
    (leafNodes i cs).length = (cs.filter fun c => decide (0 < c)).length := by
  induction cs with
  | nil => intro i; rfl
  | cons c cs ih =>
    intro i
    rw [leafNodes, List.filter_cons]
    simp only [decide_eq_true_eq]
    split
    · rw [List.length_cons, List.length_cons, ih]
    · exact ih _

theorem histLeafNodes_length (hist : Vector Nat 257) : (histLeafNodes hist).length = histLeaves hist :=
  leafNodes_length _ _

theorem leafNodes_eq_filterMap (cs : List Nat) : ∀ i,
    leafNodes i cs = (cs.zipIdx i).filterMap fun p =>
      if 0 < p.1 then some (leafNode (BitVec.ofNat 9 p.2) p.1) else none := by
  induction cs with
  | nil => intro i; rfl
  | cons c cs ih =>
    intro i
    rw [leafNodes, List.zipIdx_cons, List.filterMap_cons, ih]
    by_cases hc : 0 < c
    · simp only [hc, if_true]
    · simp only [hc, if_false]

/-- A 257-entry memory as the list of its symbols with their entries. -/
theorem zipIdx_toList {α : Type} (t : Vector α 257) :
    t.toList.zipIdx = (List.finRange 257).map fun x => (rdSym t x, x.val) := by
  refine List.ext_getElem (by simp) fun i h1 h2 => ?_
  simp [rdSym]

/-- The leaves are those of the symbols counted, in ascending order of symbol (41_tree_builder.md R171). -/
theorem histLeafNodes_eq_filterMap (hist : Vector Nat 257) :
    histLeafNodes hist = (List.finRange 257).filterMap fun x =>
      if 0 < rdSym hist x then some (leafNode (symField x) (rdSym hist x)) else none := by
  rw [histLeafNodes, leafNodes_eq_filterMap, zipIdx_toList, List.filterMap_map]
  rfl

/-! ### The tree -/

theorem Tree.isLeaf_iff_syms_length {tr : Tree} : tr.isLeaf = true ↔ tr.syms.length = 1 := by
  cases tr with
  | leaf x w => exact iff_of_true rfl rfl
  | node w l r =>
    have hl := l.size_eq
    have hr := r.size_eq
    simp only [Tree.isLeaf, Tree.syms, List.length_append, Bool.false_eq_true, false_iff]
    omega

/-- The tree over a histogram: as many symbols as counts above 0, the total at the root, and each count above 0 at its
symbol's leaf (41_tree_builder.md R180). -/
theorem Forest.root_tree {hist : Vector Nat 257} {r : Nat} {f : Nat → Tree × List Nat}
    (h : Forest (histPairs hist) node [r] f) :
    (f r).1.syms.length = histLeaves hist ∧ (f r).1.weight = histTotal hist ∧
      ∀ x : Sym, ∀ w, (x.val, w) ∈ (f r).1.leaves ↔ 0 < w ∧ w = rdSym hist x := by
  have hleaves : (f r).1.leaves.Perm (histPairs hist) := by simpa using h.leaves
  refine ⟨?_, ?_, fun x w => ?_⟩
  · rw [← Tree.leaves_map_fst, List.length_map, hleaves.length_eq, histPairs, List.length_map, histLeafNodes_length]
  · rw [← Tree.sum_leaves (h.summed r (List.mem_singleton_self r)), (hleaves.map Prod.snd).sum_eq, histPairs_total]
  · have hget : hist.toList[x.val]? = some (rdSym hist x) := by simp [rdSym]
    rw [hleaves.mem_iff, mem_histPairs, hget, Option.some_inj, eq_comm, and_comm]

/-- BUILD's merge loop on a histogram whose total fits: one tree over its leaves, each node of which joins the two least
of its time (41_tree_builder.md R170 to R175). -/
theorem mergeLeaves_built {hist : Vector Nat 257} (hsent : rdSym hist sentinel ≠ 0) (htotal : histTotal hist ≤ wm) :
    ∃ m r g, mergeLeaves wm (histLeafNodes hist) = m ∧ m.overflow = false ∧ m.pq = [r] ∧
      Forest (histPairs hist) m.node [r] g ∧ MergeHistory (histLeafNodes hist) m.node [r] := by
  obtain ⟨-, hover⟩ | ⟨hno, r, g, hpq, hg⟩ := mergeLeaves_forest hsent wm
  · omega
  · have hroom := histLeafNodes_length_le hist
    have hh := (mergeHistory_of_leaves (by omega)).of_mergeLoop wm _ hno
    exact ⟨_, r, g, rfl, hno, hpq, hg, hpq ▸ hh⟩

/-- Settles O22: the merge loop's forest gives the tree, its history how each node was made. -/
theorem buildMakesTheHuffmanTree : Obligations.BuildMakesTheHuffmanTree := by
  refine ⟨rfl, fun s hready hsent htotal => ?_⟩
  obtain ⟨m, r, g, hm, hno, hpq, hg, hh⟩ := mergeLeaves_built hsent htotal
  have hrun : runBuild s = .next (builtState m s) := hm ▸ runBuild_built hsent (hm ▸ hno)
  obtain ⟨tr, is, hat, hvalid, hvisits, hnn, hdegen⟩ := (builtState_treeOk hpq hg (hg.valid hsent)).1 rfl
  -- the tree in the built state is the forest's
  have hroot : (builtState m s).root = BitVec.ofNat 10 r := by rw [builtState, hpq]; rfl
  have htree := treeOf_eq_some.2 ⟨is, hat⟩
  rw [hroot] at htree
  obtain rfl : (g r).1 = tr := Option.some_inj.1 ((hg.treeOf_root (histPairs_length_le _)).symm.trans htree)
  obtain ⟨hsyms, hweight, hleaves⟩ := hg.root_tree
  -- the counts of nodes
  have hlen : (builtState m s).node.length + 1 = 2 * histLeaves s.hist := by
    have := hg.length_eq
    rwa [histPairs, List.length_map, histLeafNodes_length] at this
  have hr : r + 1 = (builtState m s).node.length := hh.root_eq
  have hroom : (builtState m s).node.length + 1 ≤ 1024 := hh.room
  have hL := histLeafNodes_length s.hist
  refine ⟨builtState m s, (g r).1, is, (accept_ready hready).trans hrun, rfl, rfl, rfl, ?_, ?_, ?_, ?_, ?_, ?_, hat,
    hvisits, hvalid, hg.summed r (List.mem_singleton_self r), hweight, hsyms, hleaves, rfl⟩
  · rw [hroot, BitVec.toNat_ofNat, Nat.mod_eq_of_lt (by omega)]
    omega
  · omega
  · omega
  · rw [hdegen, Tree.isLeaf_iff_syms_length, hsyms]
  · rw [← hL, ← histLeafNodes_eq_filterMap]
    exact (List.prefix_iff_eq_take.1 hh.leaves).symm
  · rw [← hL]
    exact hh.joins

end Sys2Proof.Machine
end

section
/-! PROOFS. The command GENCODE and the code of a valid tree (42_code_generator.md R190, R195, R196): an entry holds its
path, and the paths are a complete prefix code. -/

namespace Sys2Proof.Machine

/-! ### Code table entries -/

theorem Tree.entryOf_of_codeOf {t : Tree} {x : Nat} {p : List Bool} (h : t.codeOf x = some p) :
    t.entryOf x = codeEntry p.length (bitsVal p) := by
  rw [Tree.entryOf, h]

theorem codeEntry_len_toNat {n : Nat} (h : n ≤ 256) (v : Nat) : (codeEntry n v).len.toNat = n :=
  Nat.mod_eq_of_lt (show n < 2 ^ 9 by omega)

/-- The number of a path of at most 256 bits is not truncated (42_code_generator.md R196). -/
theorem codeEntry_bits_toNat {p : List Bool} (h : p.length ≤ 256) (n : Nat) :
    (codeEntry n (bitsVal p)).bits.toNat = bitsVal p :=
  Nat.mod_eq_of_lt ((bitsVal_lt p).trans_le (Nat.pow_le_pow_right (by decide) h))

/-! ### The prefix code -/

/-- Codes exist for the leaf symbols only (42_code_generator.md R195 (a)). -/
theorem Tree.codeOf_isSome_iff {t : Tree} {x : Nat} : (t.codeOf x).isSome = true ↔ x ∈ t.syms := by
  refine ⟨fun h => ?_, Tree.codeOf_isSome⟩
  obtain ⟨p, hp⟩ := Option.isSome_iff_exists.1 h
  rw [← t.codes_map_fst []]
  exact List.mem_map_of_mem (f := Prod.fst) (t.mem_codes_of_codeOf hp)

/-- A path that is a prefix of another leads to the same leaf (42_code_generator.md R195 (c)). -/
theorem Tree.eq_of_codes_prefix (t : Tree) : ∀ {x y : Nat} {p q : List Bool},
    (x, p) ∈ t.codes [] → (y, q) ∈ t.codes [] → p <+: q → x = y := by
  induction t with
  | leaf s w =>
    intro x y p q hx hy _
    simp only [Tree.codes, List.mem_singleton, Prod.mk.injEq] at hx hy
    exact hx.1.trans hy.1.symm
  | node w l r ihl ihr =>
    intro x y p q hx hy hpre
    obtain ⟨b, p', rfl, hp⟩ := Tree.mem_codes_node.1 hx
    obtain ⟨c, q', rfl, hq⟩ := Tree.mem_codes_node.1 hy
    obtain ⟨rfl, hpre'⟩ := List.cons_prefix_cons.1 hpre
    cases b with
    | false => exact ihl hp hq hpre'
    | true => exact ihr hp hq hpre'

/-- Below an internal root every path has a step. -/
theorem Tree.codeOf_length_pos {t : Tree} (hl : t.isLeaf = false) {x : Nat} {p : List Bool}
    (h : t.codeOf x = some p) : 1 ≤ p.length := by
  cases t with
  | leaf s w => cases hl
  | node w l r =>
    obtain ⟨b, q, rfl, -⟩ := Tree.mem_codes_node.1 (Tree.mem_codes_of_codeOf h)
    exact Nat.succ_pos _

theorem Tree.Valid.of_isLeaf {t : Tree} (hv : t.Valid) (hl : t.isLeaf = true) :
    t.syms = [256] ∧ t.codeOf 256 = some [] := by
  cases t with
  | leaf s w => simp [Tree.syms, Tree.codeOf, Tree.codes, hv.leaf_syms]
  | node w l r => cases hl

/-- The paths of a subtree fill the share of the path to it, each child a half of it, where a path has at most n bits
(42_code_generator.md R195 (e)). -/
theorem Tree.sum_codes (t : Tree) (n : Nat) : ∀ p : List Bool, p.length + t.syms.length ≤ n + 1 →
    ((t.codes p).map fun c => 2 ^ (n - c.2.length)).sum = 2 ^ (n - p.length) := by
  induction t with
  | leaf s w => intro p _; exact Nat.add_zero _
  | node w l r hl hr =>
    intro p hle
    have hlpos := l.syms_pos
    have hrpos := r.syms_pos
    simp only [Tree.syms, List.length_append] at hle
    have hchild : ∀ b : Bool, (p ++ [b]).length = p.length + 1 := fun b => List.length_append
    rw [Tree.codes, List.map_append, List.sum_append, hl _ (by rw [hchild]; omega), hr _ (by rw [hchild]; omega),
      hchild, hchild, ← Nat.mul_two, ← Nat.pow_succ]
    congr 1
    omega

/-! ### The obligations -/

/-- Settles O24: the walk's table holds the entry of each symbol's path. -/
theorem gencodeFillsTheCodeTable : Obligations.GencodeFillsTheCodeTable := by
  refine ⟨rfl, fun s tr hready htv htree hv => ?_⟩
  obtain ⟨code, hrun, hcode⟩ := runGencode_table htv htree hv
  exact ⟨_, (accept_ready hready).trans hrun, rfl, hcode, rfl⟩

/-- Settles O25: a path has at most 256 steps, which the two fields hold. -/
theorem codeEntriesHoldTheirPaths : Obligations.CodeEntriesHoldTheirPaths := by
  intro tr x p hv hp
  have hle := hv.codeOf_length_le hp
  rw [Tree.entryOf_of_codeOf hp]
  exact ⟨hle, codeEntry_len_toNat hle _, codeEntry_bits_toNat hle _, codeString_codeEntry hle⟩

/-- Settles O26: a path ends at one leaf, and the two children of a node share its weight in the sum equally. -/
theorem codesFormACompletePrefixCode : Obligations.CodesFormACompletePrefixCode := by
  intro tr hv
  have ⟨hsyms, hnodup, hsent⟩ := hv
  refine ⟨fun x => Tree.codeOf_isSome_iff, Tree.codeOf_isSome hsent, fun hl x y p q hne hp hq => ?_, hv.of_isLeaf, ?_⟩
  · have hprefix : ¬ p <+: q := fun hpre =>
      hne (tr.eq_of_codes_prefix (Tree.mem_codes_of_codeOf hp) (Tree.mem_codes_of_codeOf hq) hpre)
    exact ⟨hprefix, Tree.codeOf_length_pos hl hp, hv.codeOf_length_le hp⟩
  · have hcount := nodup_le_257 hsyms hnodup
    exact tr.sum_codes 256 [] (by rw [List.length_nil]; omega)

end Sys2Proof.Machine
end

section
/-! PROOFS. The parse function (43_tree_serial.md R213): a string parses exactly if it begins with the serialization of a
tree, and what parses is that tree without weights. -/

namespace Sys2Proof.Machine

theorem parseAt_leaf (k : Nat) (field : BitVec 9) (more : List Bool) :
    parseAt (k + 1) (true :: (bitsN 9 field.toNat ++ more)) = some (.leaf field 0, more) := by
  have hlong : ¬ (bitsN 9 field.toNat ++ more).length < 9 := by simp
  rw [parseAt, if_neg hlong, List.take_left' (bitsN_length 9 _), List.drop_left' (bitsN_length 9 _),
    bitsVal_bitsN_of_lt field.isLt, BitVec.ofNat_toNat, BitVec.setWidth_eq]

/-- What `parseAt` reads is a serialization, and its tree has no weights. -/
theorem ser_append_of_parseAt : ∀ {k : Nat} {bs rest : List Bool} {t : Tree}, parseAt k bs = some (t, rest) →
    bs = t.ser ++ rest ∧ t.unweighted = t := by
  intro k
  induction k with
  | zero => intro bs rest t h; cases h
  | succ k ih =>
    intro bs rest t h
    match bs with
    | [] => cases h
    | false :: bs =>
      simp only [parseAt] at h
      split at h
      · cases h
      · rename_i l r1 hl
        split at h
        · cases h
        · rename_i r r2 hr
          cases h
          obtain ⟨rfl, hlw⟩ := ih hl
          obtain ⟨rfl, hrw⟩ := ih hr
          exact ⟨by rw [Tree.ser, List.cons_append, List.append_assoc], by rw [Tree.unweighted, hlw, hrw]⟩
    | true :: bs =>
      rcases Nat.lt_or_ge bs.length 9 with hshort | hlong
      · rw [parseAt, if_pos hshort] at h
        cases h
      · obtain ⟨field, more, rfl⟩ := exists_field hlong
        rw [parseAt_leaf] at h
        cases h
        exact ⟨rfl, rfl⟩

/-- `parseAt` reads a serialization for which it has the levels. -/
theorem parseAt_ser (t : Tree) : ∀ {k : Nat} (x : List Bool), t.size ≤ k →
    parseAt k (t.ser ++ x) = some (t.unweighted, x) := by
  induction t with
  | leaf s w =>
    intro k x hk
    obtain ⟨k, rfl⟩ : ∃ j, k = j + 1 := ⟨k - 1, by rw [Tree.size] at hk; omega⟩
    exact parseAt_leaf k s x
  | node w l r hl hr =>
    intro k x hk
    rw [Tree.size] at hk
    obtain ⟨k, rfl⟩ : ∃ j, k = j + 1 := ⟨k - 1, by omega⟩
    rw [Tree.ser, List.cons_append, List.append_assoc, parseAt, hl _ (by omega)]
    simp only [hr x (show r.size ≤ k by omega), Tree.unweighted]

theorem parse_ser (t : Tree) (x : List Bool) : parse (t.ser ++ x) = some (t.unweighted, x) := by
  have hsize := t.size_le_ser_length
  exact parseAt_ser t x (by rw [List.length_append]; omega)

/-- A string parses to the trees without weights whose serialization it begins with. -/
theorem parse_eq_some {bs rest : List Bool} {t : Tree} :
    parse bs = some (t, rest) ↔ bs = t.ser ++ rest ∧ t.unweighted = t := by
  refine ⟨ser_append_of_parseAt, ?_⟩
  rintro ⟨rfl, hw⟩
  rw [parse_ser, hw]

theorem parse_nil : parse [] = none := rfl

/-- After a 0 the string goes on with the serializations of two subtrees. -/
theorem parse_false_cons (bs : List Bool) :
    parse (false :: bs) =
      (parse bs).bind fun p => (parse p.2).map fun q => (.node 0 p.1 q.1, q.2) := by
  refine Option.ext fun ⟨t, rest⟩ => ?_
  simp only [Option.bind_eq_some_iff, Option.map_eq_some_iff, Prod.exists, parse_eq_some, Prod.mk.injEq]
  constructor
  · rintro ⟨hbs, hw⟩
    cases t with
    | leaf s w => cases hbs
    | node w l r =>
      rw [Tree.ser, List.cons_append, List.append_assoc, List.cons.injEq] at hbs
      rw [Tree.unweighted, Tree.node.injEq] at hw
      obtain ⟨rfl, hl, hr⟩ := hw
      exact ⟨l, _, ⟨hbs.2, hl⟩, r, rest, ⟨rfl, hr⟩, rfl, rfl⟩
  · rintro ⟨l, _, ⟨rfl, hl⟩, r, _, ⟨rfl, hr⟩, rfl, rfl⟩
    exact ⟨by rw [Tree.ser, List.cons_append, List.append_assoc], by rw [Tree.unweighted, hl, hr]⟩

/-- After a 1 the string goes on with a field of nine bits. -/
theorem parse_true_cons (bs : List Bool) :
    parse (true :: bs) =
      if bs.length < 9 then none else some (.leaf (BitVec.ofNat 9 (bitsVal (bs.take 9))) 0, bs.drop 9) := by
  simp only [parse, parseAt]

/-- Settles O37: the three cases and the inverse, each a lemma above. -/
theorem parseInvertsSer : Obligations.ParseInvertsSer :=
  ⟨parse_nil, parse_false_cons, parse_true_cons, parse_ser⟩

end Sys2Proof.Machine
end

section
/-! PROOFS. The tokens of RDTREE one at a time (43_tree_serial.md R214 to R220): what each stores, which are rejected, and
that the command is its token steps (00_scope.md R12). -/

namespace Sys2Proof.Machine

variable {s t u : State} {field : BitVec 9} {x : Sym}

/-! ### Tokens as instructions -/

theorem exec_treeInternal (hq : s.seqr = .inTree) : exec .treeInternal s = .next (treeInternal s) := by
  rw [exec, execTreeInternal, hq]

theorem exec_treeLeaf (hq : s.seqr = .inTree) (field : BitVec 9) :
    exec (.treeLeaf field) s = .next (treeLeaf field s) := by
  rw [exec, execTreeLeaf, hq]

theorem treeLeaf_of_no_symbol (h : 256 < field.toNat) : treeLeaf field s = failTree .hdrSymbol field.toNat s := by
  rw [treeLeaf, symOf_eq_none.2 h]

theorem treeLeaf_of_seen (h : rdSym s.hidden.seen x = true) :
    treeLeaf (symField x) s = failTree .hdrDup x.val s := by
  simp only [treeLeaf, symOf_symField, h, if_true]

theorem treeLeaf_of_unseen (h : rdSym s.hidden.seen x = false) : treeLeaf (symField x) s = storeLeaf x s := by
  simp only [treeLeaf, symOf_symField, h, Bool.false_eq_true, if_false]

/-- The state after a leaf is stored and marked, before `afterLeaf`. -/
def leafState (x : Sym) (s : State) : State :=
  { storeNode (leafNode (symField x) 0) s with hidden := { s.hidden with seen := wrSym s.hidden.seen x true } }

theorem storeLeaf_eq (x : Sym) (s : State) : storeLeaf x s = afterLeaf (leafState x s) := rfl

/-- A last leaf that leaves the sentinel unseen: what the token stored is lost again (43_tree_serial.md R218). -/
theorem storeLeaf_without_sentinel (hstk : s.hidden.stk = []) (hx : x ≠ sentinel)
    (hsent : rdSym s.hidden.seen sentinel = false) : storeLeaf x s = failTree .hdrNoSent 0 s := by
  have hunseen : rdSym (leafState x s).hidden.seen sentinel = false := (rdSym_wrSym_ne _ _ hx).trans hsent
  rw [storeLeaf_eq, afterLeaf_of_empty (s := leafState x s) hstk, finishTree_of_unseen hunseen]
  rfl

/-- Settles O31: the token has room for its node, or it is the 257th. -/
theorem internalTokenStoresANode : Obligations.InternalTokenStoresANode := by
  intro s hq
  rw [exec_treeInternal hq]
  refine ⟨fun hroom => congrArg _ (treeInternal_of_room hroom), fun hfull => ?_⟩
  rw [treeInternal_of_full hfull]
  exact ⟨_, rfl, rfl, rfl, rfl, rfl, rfl⟩

/-- Settles O32: after the leaf is stored the stack says whether the tree goes on. -/
theorem leafTokenStoresALeaf : Obligations.LeafTokenStoresALeaf := by
  intro s x hq hnew
  rw [exec_treeLeaf hq, treeLeaf_of_unseen hnew, storeLeaf_eq]
  refine ⟨fun e stk hstk => congrArg _ (afterLeaf_of_waiting (s := leafState x s) hstk), fun hstk hsent => ?_⟩
  have hseen : rdSym (leafState x s).hidden.seen sentinel = true := by
    refine (rdSym_wrSym s.hidden.seen x sentinel true).trans ?_
    obtain hx | hmarked := hsent
    · exact if_pos hx
    · rw [hmarked, ite_self]
  rw [afterLeaf_of_empty (s := leafState x s) hstk, finishTree_of_seen hseen]
  exact ⟨_, rfl, rfl, rfl, rfl, rfl, rfl, rfl, rfl⟩

/-! ### One pass -/

/-- The errors RDTREE raises (43_tree_serial.md R215 to R219). -/
def headerErrors : List ErrKind := [.hdrExhausted, .hdrSymbol, .hdrDup, .hdrSize, .hdrNoSent]

theorem headerErrors_code_bounds : ∀ e ∈ headerErrors, 2 ≤ e.code.toNat ∧ e.code.toNat ≤ 6 := by decide

/-- t is s but for what a token that is accepted may write: the tree, its flags, the sequencer and the hidden working
state. -/
def Stores (s t : State) : Prop :=
  t = { s with tv := t.tv, degen := t.degen, root := t.root, nn := t.nn, node := t.node, seqr := t.seqr,
               hidden := t.hidden }

theorem Stores.refl (s : State) : Stores s s := rfl

theorem Stores.trans (h : Stores s u) (h' : Stores u t) : Stores s t := by
  rw [Stores, h', h]

/-- What a token does: it stores something, and may then be rejected with a header error. -/
def TokenEffect (s t : State) : Prop :=
  ∃ u, Stores s u ∧ (t = u ∨ ∃ e ∈ headerErrors, ∃ info, t = failTree e info u)

theorem TokenEffect.of_stores (h : Stores s t) : TokenEffect s t := ⟨t, h, .inl rfl⟩

theorem TokenEffect.of_error {e : ErrKind} (he : e ∈ headerErrors) (info : Nat) (s : State) :
    TokenEffect s (failTree e info s) :=
  ⟨s, .refl s, .inr ⟨e, he, info, rfl⟩⟩

theorem Stores.then_effect (h : Stores s u) (h' : TokenEffect u t) : TokenEffect s t := by
  obtain ⟨v, hv, hend⟩ := h'
  exact ⟨v, h.trans hv, hend⟩

theorem TokenEffect.pending_eq (h : TokenEffect s t) : t.pending = s.pending := by
  obtain ⟨u, hu, rfl | ⟨e, -, info, rfl⟩⟩ := h <;> exact hu ▸ rfl

theorem TokenEffect.src_eq (h : TokenEffect s t) : t.src = s.src := by
  obtain ⟨u, hu, rfl | ⟨e, -, info, rfl⟩⟩ := h <;> exact hu ▸ rfl

/-- The error registers are those of s, or those of a header error. -/
theorem TokenEffect.errors (h : TokenEffect s t) : SameErrors s t ∨ ∃ e ∈ headerErrors, t.errcode = e.code := by
  obtain ⟨u, hu, rfl | ⟨e, he, info, rfl⟩⟩ := h
  · exact .inl (hu ▸ ⟨rfl, rfl, rfl⟩)
  · exact .inr ⟨e, he, rfl⟩

theorem treeInternal_effect (s : State) : TokenEffect s (treeInternal s) := by
  by_cases hfull : s.hidden.ni = 256
  · rw [treeInternal_of_full hfull]
    exact .of_error (by decide) _ _
  · rw [treeInternal_of_room hfull]
    exact .of_stores rfl

theorem finishTree_effect (s : State) : TokenEffect s (finishTree s) := by
  cases hsent : rdSym s.hidden.seen sentinel with
  | true => rw [finishTree_of_seen hsent]; exact .of_stores rfl
  | false => rw [finishTree_of_unseen hsent]; exact .of_error (by decide) _ _

theorem storeLeaf_effect (x : Sym) (s : State) : TokenEffect s (storeLeaf x s) := by
  have hstores : Stores s (leafState x s) := rfl
  rw [storeLeaf_eq]
  cases hstk : (leafState x s).hidden.stk with
  | nil => rw [afterLeaf_of_empty hstk]; exact hstores.then_effect (finishTree_effect _)
  | cons e stk => rw [afterLeaf_of_waiting hstk]; exact .of_stores rfl

theorem treeLeaf_effect (field : BitVec 9) (s : State) : TokenEffect s (treeLeaf field s) := by
  rw [treeLeaf]
  split
  · exact .of_error (by decide) _ _
  · split
    · exact .of_error (by decide) _ _
    · exact storeLeaf_effect _ s

/-- The token fetch consumes no more than the source holds, and gives a tree token or finds the source exhausted
(43_tree_serial.md R214, R219). -/
theorem readToken_cases (src : Source) :
    ∃ k ≤ src.rest.length, readToken src = .error (src.advance k) ∨
      readToken src = .ok (.treeInternal, src.advance k) ∨
      ∃ field, readToken src = .ok (.treeLeaf field, src.advance k) := by
  match hr : src.rest with
  | [] => exact ⟨0, Nat.zero_le _, .inl (readToken_nil hr)⟩
  | false :: bs => exact ⟨1, Nat.succ_pos _, .inr (.inl (readToken_internal hr))⟩
  | true :: bs =>
    rcases Nat.lt_or_ge bs.length 9 with hshort | hlong
    · exact ⟨1, Nat.succ_pos _, .inl (readToken_short_leaf hr hshort)⟩
    · obtain ⟨field, more, rfl⟩ := exists_field hlong
      exact ⟨10, Nat.succ_le_succ hlong, .inr (.inr ⟨field, readToken_field hr⟩)⟩

/-- A pass reads a token and acts on it (43_tree_serial.md R214). -/
theorem treePass_effect (s : State) :
    ∃ k ≤ s.src.rest.length, TokenEffect { s with src := s.src.advance k } (treePass s) := by
  obtain ⟨k, hk, hr⟩ := readToken_cases s.src
  refine ⟨k, hk, ?_⟩
  obtain hr | hr | ⟨field, hr⟩ := hr <;> simp only [treePass, hr]
  · exact .of_error (by decide) _ _
  · exact treeInternal_effect _
  · exact treeLeaf_effect field _

/-! ### One step of a block inside RDTREE -/

theorem fetch_inTree (hp : s.pending.head? ≠ some .hwReset) (hq : s.seqr = .inTree) : fetch s = fetchToken s := by
  unfold fetch
  split
  next rest hreset => exact absurd (by rw [hreset]; rfl) hp
  next => rw [hq]

/-- Unless the reset input comes first, a step inside RDTREE is a pass of its loop. -/
theorem step_inTree (hp : s.pending.head? ≠ some .hwReset) (hq : s.seqr = .inTree) : step s = .next (treePass s) := by
  obtain ⟨k, -, hr | hr | ⟨field, hr⟩⟩ := readToken_cases s.src <;>
    simp only [step, fetch_inTree hp hq, fetchToken, treePass, hr]
  · exact exec_treeInternal (s := { s with src := s.src.advance k }) hq
  · exact exec_treeLeaf (s := { s with src := s.src.advance k }) hq field

theorem step_exhausted {src : Source} (hp : s.pending.head? ≠ some .hwReset) (hq : s.seqr = .inTree)
    (hr : readToken s.src = .error src) :
    step s = .next (failTree .hdrExhausted s.node.length { s with src := src }) := by
  rw [step_inTree hp hq, treePass, hr]

/-- Settles O33: each clause meets one rejection of `treeLeaf`, or a fetch that finds the source exhausted. -/
theorem rejectedTokensEndRdtree : Obligations.RejectedTokensEndRdtree := by
  intro s hq
  refine ⟨fun field hfield => ?_, fun x hseen => ?_, fun x hnew hstk hx hsent => ?_, fun hp hr => ?_,
    fun bs hp hr hshort => ?_⟩
  · rw [exec_treeLeaf hq, treeLeaf_of_no_symbol hfield]
    exact ⟨_, rfl, rfl, Nat.mod_eq_of_lt (by omega), rfl, rfl, rfl, rfl, rfl⟩
  · rw [exec_treeLeaf hq, treeLeaf_of_seen hseen]
    exact ⟨_, rfl, rfl, Nat.mod_eq_of_lt (by omega), rfl, rfl, rfl, rfl, rfl⟩
  · rw [exec_treeLeaf hq, treeLeaf_of_unseen hnew, storeLeaf_without_sentinel hstk hx hsent]
    exact ⟨_, rfl, rfl, rfl, rfl, rfl, rfl, rfl, rfl⟩
  · exact ⟨_, step_exhausted hp hq (readToken_nil hr), rfl, rfl, rfl, rfl, rfl, rfl, rfl⟩
  · exact ⟨_, step_exhausted hp hq (readToken_short_leaf hr hshort), rfl, rfl, rfl, rfl, rfl, rfl, rfl⟩

/-! ### RDTREE as its token steps -/

/-- Steps lead from s to t with `BUSY = 1` on the way. -/
def RunsBusyTo (s t : State) : Prop :=
  ∃ k, core.run k s = .next t ∧ ∀ j < k, ∃ u : State, core.run j s = .next u ∧ u.busy = true

theorem RunsBusyTo.refl (s : State) : RunsBusyTo s s := ⟨0, rfl, fun _ hj => absurd hj (Nat.not_lt_zero _)⟩

theorem run_succ_of_step {M : Host.Core} {a b : M.State} (h : M.step a = .next b) (k : Nat) :
    M.run (k + 1) a = M.run k b := by
  rw [Host.Core.run, h]

theorem core_run_succ (h : step s = .next u) (k : Nat) : core.run (k + 1) s = core.run k u :=
  run_succ_of_step (M := core) h k

theorem RunsBusyTo.of_step (hb : s.busy = true) (h : step s = .next u) (hu : RunsBusyTo u t) : RunsBusyTo s t := by
  obtain ⟨k, hrun, hbusy⟩ := hu
  refine ⟨k + 1, (core_run_succ h k).trans hrun, fun j hj => ?_⟩
  cases j with
  | zero => exact ⟨s, rfl, hb⟩
  | succ j =>
    rw [core_run_succ h]
    exact hbusy j (Nat.lt_of_succ_lt_succ hj)

/-- Where RDTREE's loop ends idle, the token steps lead there. -/
theorem runsBusyTo_treeLoop : ∀ (n : Nat) {s : State}, s.pending.head? ≠ some .hwReset →
    (treeLoop n s).seqr = .idle → RunsBusyTo s (treeLoop n s) := by
  intro n
  induction n with
  | zero => intro s _ _; exact .refl s
  | succ n ih =>
    intro s hp hend
    cases hq : s.seqr with
    | idle => rw [treeLoop_of_idle hq]; exact .refl s
    | inMarker => simp only [treeLoop, hq] at hend; cases hend
    | inTree =>
      rw [treeLoop_succ hq] at hend ⊢
      obtain ⟨k, -, heffect⟩ := treePass_effect s
      have hp' : (treePass s).pending.head? ≠ some .hwReset := heffect.pending_eq ▸ hp
      exact .of_step (by rw [State.busy, hq]; rfl) (step_inTree hp hq) (ih hp' hend)

theorem runRdtree_idle (h : runRdtree s = .next t) : t.seqr = .idle := by
  obtain ⟨e, info, src, rfl⟩ | ⟨tr, more, -, -, rfl⟩ := runRdtree_cases h <;> rfl

/-- Settles O36: RDTREE's loop ends idle, and each of its passes is a step. -/
theorem rdtreeIsItsTokenSteps : Obligations.RdtreeIsItsTokenSteps := by
  intro s hready hp
  have hidle := runRdtree_idle (s := s) rfl
  obtain ⟨k, hrun, hbusy⟩ := runsBusyTo_treeLoop (s.src.rest.length + 1) (s := startTree s) hp hidle
  exact ⟨k, _, accept_ready hready, by rw [State.busy, hidle]; rfl, hrun, hbusy⟩

end Sys2Proof.Machine
end

section
/-! PROOFS. The serializer and the deserializer (43_tree_serial.md R205 to R222): the marker, the tree, the round trip, the
headers that are rejected, and DECOMPRESS at another marker (46_control_and_sequences.md R293). -/

namespace Sys2Proof.Machine

variable {s t : State}

/-! ### The marker -/

/-- Settles O27: the body of an accepted WRMAGIC writes the marker to the open sink. -/
theorem wrmagicWritesTheMarker : Obligations.WrmagicWritesTheMarker :=
  ⟨rfl, fun _ hready hopen => (accept_ready hready).trans (runWrmagic_marker hopen)⟩

theorem runRdmagic_other {w : BitVec 32} {rest : List Bool} (hw : w ≠ s.cfg.magic)
    (hr : s.src.rest = bitsN 32 w.toNat ++ rest) :
    runRdmagic s = .next (raise .badMagic w.toNat { s with src := s.src.advance 32 }) := by
  have hread : srcRead 32 s.src = some (w.toNat, s.src.advance 32) := by
    rw [srcRead_of_le s.src (by decide) (by simp [hr]), hr, List.take_left' (by simp), bitsVal_bitsN_of_lt w.isLt]
  simp only [runRdmagic, hread, checkMarker, BitVec.ofNat_toNat, BitVec.setWidth_eq, if_neg hw]

/-- A command that ends idle leaves the sequencer of a ready block as it was. -/
theorem with_idle_eq (hready : Ready s) : { s with seqr := .idle } = s :=
  congrArg (fun q => { s with seqr := q }) hready.1.symm

/-- Settles O29: the source is too short, or it goes on with the marker, or with another word. -/
theorem rdmagicChecksTheMarker : Obligations.RdmagicChecksTheMarker := by
  refine ⟨rfl, fun s hready => ⟨fun hshort => ?_, fun rest hr => ?_, fun w rest hw hr => ?_⟩⟩
  · exact (accept_ready hready).trans (runRdmagic_short hshort)
  · refine (accept_ready hready).trans ((runRdmagic_marker hr).trans (congrArg _ ?_))
    exact with_idle_eq (s := { s with src := s.src.advance 32 }) hready
  · exact (accept_ready hready).trans (runRdmagic_other hw hr)

/-- Settles O49: DECOMPRESS stops at the error of its first step, and the error leaves `MSTEP` with all hidden state. -/
theorem decompressRejectsAnotherMarker : Obligations.DecompressRejectsAnotherMarker := by
  intro s w rest hready hw hr
  exact (accept_ready hready).trans (runSteps_cons_error (runRdmagic_other (s := setStep 0 s) hw hr) rfl)

/-! ### The tree -/

/-- Settles O28: the walk writes the serialization, 10 bits for each leaf and 1 for each internal node. -/
theorem wrtreeWritesTheSerialization : Obligations.WrtreeWritesTheSerialization := by
  refine ⟨rfl, fun s tr hready htv htree hv hopen => ⟨?_, ?_⟩⟩
  · exact Nat.eq_sub_of_add_eq tr.ser_length
  · exact ⟨_, (accept_ready hready).trans (runWrtree_ser htv htree hv hopen), rfl, rfl⟩

/-- Settles O34: what parses is the serialization of the tree, and RDTREE rebuilds that tree. -/
theorem rdtreeRebuildsTheTree : Obligations.RdtreeRebuildsTheTree := by
  refine ⟨rfl, fun s tr rest hready hparse hv => ?_⟩
  obtain ⟨hr, hw⟩ := parse_eq_some.1 hparse
  have hsize := hv.size_le
  have hat := treeAt_rebuiltState hv s
  rw [hw] at hat
  have hlen : (rebuiltState tr s).node.length = tr.size := by
    rw [rebuiltState, Tree.layout_length, Tree.unweighted_size]
  have hconsumed : s.src.rest.length - rest.length = tr.ser.length := by
    rw [hr, List.length_append, Nat.add_sub_cancel]
  refine ⟨_, (accept_ready hready).trans (runRdtree_rebuilds hv hr), rfl, rfl, rfl, rfl, rfl, ?_, hlen, hat, ?_, ?_⟩
  · exact Nat.mod_eq_of_lt (show tr.size < 1024 by omega)
  · rw [hconsumed]
    rfl
  · exact with_idle_eq hready

/-- Settles O38: both commands pass the serialization of one tree, the one writing it and the other consuming it. -/
theorem rdtreeInvertsWrtree : Obligations.RdtreeInvertsWrtree := by
  refine ⟨fun s1 s2 tr y hready1 htv htree hv hopen => ?_, fun s t hready hopen hrd herr => ?_⟩
  · refine ⟨_, tr.ser, (accept_ready hready1).trans (runWrtree_ser htv htree hv hopen), rfl, fun hready2 hr => ?_⟩
    have hrd := (accept_ready hready2).trans (runRdtree_rebuilds hv hr)
    exact ⟨_, hrd, hready2.2, rfl, treeOf_rebuiltState hv s2⟩
  · obtain ⟨e, info, src, rfl⟩ | ⟨tr, more, hv, hr, rfl⟩ := runRdtree_cases ((accept_ready hready).symm.trans hrd)
    · cases herr
    · have hwr := runWrtree_ser (s := rebuiltState tr s) rfl (treeOf_rebuiltState hv s) hv.unweighted hopen
      refine ⟨tr.ser.length, _, by simp [hr], rfl, (accept_ready ⟨rfl, herr⟩).trans hwr, ?_⟩
      rw [hr, List.take_left, Tree.unweighted_ser]
      rfl

/-! ### Headers that are rejected -/

/-- A property that every pass keeps is kept by RDTREE's loop. -/
theorem treeLoop_keeps {P : State → Prop} (hpass : ∀ s, P s → P (treePass s)) :
    ∀ (n : Nat) {s : State}, P s → P (treeLoop n s) := by
  intro n
  induction n with
  | zero => exact id
  | succ n ih =>
    intro s hs
    simp only [treeLoop]
    split
    · exact ih (hpass s hs)
    · exact hs
    · exact hs

/-- RDTREE, started with the source src, has consumed no more than src held, and an error it has raised is a header
error. -/
def WithinHeader (src : Source) (s : State) : Prop :=
  (∃ k ≤ src.rest.length, s.src = src.advance k) ∧
  (s.err = true → 2 ≤ s.errcode.toNat ∧ s.errcode.toNat ≤ 6)

theorem treePass_withinHeader {src : Source} (h : WithinHeader src s) : WithinHeader src (treePass s) := by
  obtain ⟨⟨k, hk, hsrc⟩, herr⟩ := h
  obtain ⟨m, hm, heffect⟩ := treePass_effect s
  rw [hsrc, Source.rest_advance, List.length_drop] at hm
  refine ⟨⟨k + m, by omega, ?_⟩, fun he => ?_⟩
  · rw [heffect.src_eq, hsrc, Source.advance_advance]
  · obtain ⟨hsame, hcode, -⟩ | ⟨e, hmem, hcode⟩ := heffect.errors
    · rw [hcode]
      exact herr (hsame.symm.trans he)
    · rw [hcode]
      exact headerErrors_code_bounds e hmem

theorem runRdtree_withinHeader (herr : s.err = false) (h : runRdtree s = .next t) : WithinHeader s.src t := by
  cases h
  have hstart : WithinHeader s.src (startTree s) :=
    ⟨⟨0, Nat.zero_le _, rfl⟩, fun he => Bool.noConfusion (herr.symm.trans he)⟩
  exact treeLoop_keeps (P := WithinHeader s.src) (fun _ => treePass_withinHeader) _ hstart

/-- Settles O35: RDTREE that succeeds has read the serialization of a valid tree, which parses. -/
theorem rdtreeRejectsEveryOtherHeader : Obligations.RdtreeRejectsEveryOtherHeader := by
  intro s hready hno
  obtain ⟨t, hrun⟩ : ∃ t, runRdtree s = .next t := ⟨_, rfl⟩
  obtain ⟨⟨k, hk, hsrc⟩, hcode⟩ := runRdtree_withinHeader hready.2 hrun
  obtain ⟨e, info, src, rfl⟩ | ⟨tr, more, hv, hr, -⟩ := runRdtree_cases hrun
  · obtain ⟨hlow, hhigh⟩ := hcode rfl
    exact ⟨_, k, (accept_ready hready).trans hrun, rfl, hlow, hhigh, rfl, rfl, rfl, rfl, hsrc, hk,
      with_idle_eq hready⟩
  · exact absurd ⟨_, more, hr ▸ parse_ser tr more, hv.unweighted⟩ hno

end Sys2Proof.Machine
end

section
/-! PROOFS. The command ENCODE (44_encoder.md R240 to R243): the two ends of its loop. -/

namespace Sys2Proof.Machine

variable {s : State}

/-- The body of ENCODE at the first unit without a code (44_encoder.md R243). -/
theorem runEncode_noCode {pre post : List Nat} {u : Nat} (hcv : s.cv = true) (hopen : s.snk.closed = false)
    (hus : units s.src.rest = pre ++ u :: post) (hpre : ∀ v ∈ pre, (rdSym s.code (unitSym v)).valid = true)
    (hu : (rdSym s.code (unitSym u)).valid = false) :
    runEncode s = .next (raise .noCode u
      { s with src := s.src.advance (8 * (pre.length + 1)),
               snk := { bits := s.snk.bits ++ pre.flatMap (fun v => codeString (rdSym s.code (unitSym v))),
                        closed := false } }) := by
  have hlt : u < 256 := units_lt s.src.rest u (by simp [hus])
  have hloop := encodeLoop_noCode s.code pre _ s.src s.snk.bits u post le_rfl hus hpre hu
  rw [runEncode, if_pos hcv, Sink.eq_of_open hopen, hloop, bindOut_next]
  simp only [unitSym_val hlt]

/-- Settles O39: the body of an accepted ENCODE writes the payload of the units left in the source. -/
theorem encodeWritesThePayload : Obligations.EncodeWritesThePayload :=
  ⟨rfl, fun _ hready hcv hopen hvalid => (accept_ready hready).trans (runEncode_payload hcv hopen hvalid)⟩

/-- Settles O40: the body of an accepted ENCODE stops just past the first unit without a code. -/
theorem encodeStopsAtAUnitWithoutCode : Obligations.EncodeStopsAtAUnitWithoutCode :=
  fun _ _ _ _ hready hcv hopen hus hpre hu =>
    (accept_ready hready).trans (runEncode_noCode hcv hopen hus hpre hu)

end Sys2Proof.Machine
end

section
/-! PROOFS. The decode automaton on the bits of a source (45_decoder.md R255 to R265): every bit string is code words
and then the sentinel's code and a rest, or code words and then a code that is cut short, and the automaton follows
them. -/

namespace Sys2Proof.Machine

/-! ### Code words -/

/-- Settles O43: the walk emits the symbol of each whole code word and ends at the sentinel's. -/
theorem decodeInvertsTheCode : Obligations.DecodeInvertsTheCode := by
  intro tr us x hv hus
  rw [← List.append_assoc]
  exact hv.decode_codeWords hus x

/-- A symbol stands at one leaf, so a path to it is its code (42_code_generator.md R191). -/
theorem Tree.codeOf_of_mem_codes {t : Tree} (hnd : t.syms.Nodup) {x : Nat} {p : List Bool} (h : (x, p) ∈ t.codes []) :
    x ∈ t.syms ∧ t.codeOf x = some p := by
  rw [← t.codes_map_fst []] at hnd
  have hx : x ∈ t.syms := t.codes_map_fst [] ▸ List.mem_map_of_mem h
  obtain ⟨q, hq⟩ := Option.isSome_iff_exists.1 (t.codeOf_isSome hx)
  have hpq := List.inj_on_of_nodup_map hnd (t.mem_codes_of_codeOf hq) h rfl
  exact ⟨hx, hq.trans (congrArg some (congrArg Prod.snd hpq))⟩

/-- A bit string goes on after a code, or it is a code cut short (42_code_generator.md R195 (e)). -/
theorem Tree.exists_code (t : Tree) : ∀ bs : List Bool, ∃ x q, (x, q) ∈ t.codes [] ∧
    ((∃ more, bs = q ++ more) ∨ ∃ k < q.length, bs = q.take k) := by
  induction t with
  | leaf s w => exact fun bs => ⟨_, [], List.mem_singleton_self _, .inl ⟨bs, rfl⟩⟩
  | node w l r hl hr =>
    intro bs
    cases bs with
    | nil =>
      obtain ⟨x, q, hq, -⟩ := hl []
      exact ⟨x, false :: q, Tree.mem_codes_node.2 ⟨false, q, rfl, hq⟩, .inr ⟨0, Nat.succ_pos _, rfl⟩⟩
    | cons b bs =>
      obtain ⟨x, q, hq, h⟩ : ∃ x q, (x, q) ∈ (if b then r else l).codes [] ∧
          ((∃ more, bs = q ++ more) ∨ ∃ k < q.length, bs = q.take k) := by
        cases b with
        | false => exact hl bs
        | true => exact hr bs
      refine ⟨x, b :: q, Tree.mem_codes_node.2 ⟨b, q, rfl, hq⟩, ?_⟩
      obtain ⟨more, rfl⟩ | ⟨k, hk, rfl⟩ := h
      · exact .inl ⟨more, rfl⟩
      · exact .inr ⟨k + 1, Nat.succ_lt_succ hk, rfl⟩

/-- The code words of units. -/
def Tree.unitWords (t : Tree) (us : List Nat) : List Bool := us.flatMap (fun u => (t.codeOf u).getD [])

theorem Tree.unitWords_cons (t : Tree) (u : Nat) (us : List Nat) :
    t.unitWords (u :: us) = (t.codeOf u).getD [] ++ t.unitWords us := List.flatMap_cons

theorem Tree.codeWords_eq (t : Tree) (us : List Nat) :
    t.codeWords us = t.unitWords us ++ (t.codeOf 256).getD [] := rfl

/-- Units with a code in the tree. -/
abbrev Tree.Units (t : Tree) (us : List Nat) : Prop := ∀ u ∈ us, u < 256 ∧ u ∈ t.syms

/-- The bits are the code words of units and then a code that is cut short. -/
def Tree.CutAfter (t : Tree) (bs : List Bool) (us : List Nat) (p : List Bool) : Prop :=
  bs = t.unitWords us ++ p ∧ ∃ x ∈ t.syms, ∃ k < ((t.codeOf x).getD []).length, p = ((t.codeOf x).getD []).take k

/-- Every bit string is code words, whole with the sentinel's at their end or cut short. -/
theorem Tree.Valid.exists_words {t : Tree} (hv : t.Valid) (hl : t.isLeaf = false) (bs : List Bool) :
    ∃ us, t.Units us ∧ ((∃ rest, bs = t.codeWords us ++ rest) ∨ ∃ p, t.CutAfter bs us p) := by
  induction hlen : bs.length using Nat.strong_induction_on generalizing bs with
  | _ n ih =>
    obtain ⟨x, q, hq, hbits⟩ := t.exists_code bs
    obtain ⟨hx, hcode⟩ := Tree.codeOf_of_mem_codes hv.2.1 hq
    have hword : (t.codeOf x).getD [] = q := by rw [hcode, Option.getD_some]
    obtain ⟨more, rfl⟩ | ⟨k, hk, rfl⟩ := hbits
    · by_cases h256 : x = 256
      · subst h256
        exact ⟨[], List.forall_mem_nil _, .inl ⟨more, by rw [Tree.codeWords_eq, hword]; rfl⟩⟩
      · have hpos := Tree.codeOf_length_pos hl hcode
        rw [List.length_append] at hlen
        obtain ⟨us, hus, h⟩ := ih more.length (by omega) more rfl
        refine ⟨x :: us, List.forall_mem_cons.2 ⟨⟨Nat.lt_of_le_of_ne (hv.1 x hx) h256, hx⟩, hus⟩, ?_⟩
        obtain ⟨rest, rfl⟩ | ⟨p, rfl, hp⟩ := h
        · exact .inl ⟨rest, by rw [Tree.codeWords_cons, hword, List.append_assoc]⟩
        · exact .inr ⟨p, by rw [Tree.unitWords_cons, hword, List.append_assoc], hp⟩
    · exact ⟨[], List.forall_mem_nil _, .inr ⟨q.take k, rfl, x, hx, k, by rw [hword]; exact hk, by rw [hword]⟩⟩

/-- The walk emits the units of whole code words. -/
theorem Tree.walk_unitWords {t : Tree} (hl : t.isLeaf = false) (bs : List Bool) : ∀ us out : List Nat, t.Units us →
    t.walk t (t.unitWords us ++ bs) out = t.walk t bs (out ++ us) := by
  intro us
  induction us with
  | nil => intro out _; rw [List.append_nil]; rfl
  | cons u us ih =>
    intro out hus
    obtain ⟨⟨hlt, hu⟩, hus⟩ := List.forall_mem_cons.1 hus
    rw [Tree.unitWords_cons, List.append_assoc, ← Tree.arrive_of_not_leaf hl, t.arrive_path t _ out (t.codeOf_mem hu),
      if_neg (Nat.ne_of_lt hlt), ih _ hus, List.append_assoc, List.singleton_append]

theorem Tree.decode_of_not_leaf {t : Tree} (hl : t.isLeaf = false) (bs : List Bool) : t.decode bs = t.walk t bs [] := by
  cases t with
  | leaf s w => cases hl
  | node w l r => rfl

/-- The bits after the last whole code word emit nothing. -/
theorem Tree.decode_cutAfter {t : Tree} (hl : t.isLeaf = false) {bs p : List Bool} {us : List Nat} (hus : t.Units us)
    (h : t.CutAfter bs us p) : t.decode bs = .truncated us := by
  obtain ⟨rfl, x, hx, k, hk, rfl⟩ := h
  rw [Tree.decode_of_not_leaf hl, Tree.walk_unitWords hl _ us [] hus, ← Tree.arrive_of_not_leaf hl]
  exact t.arrive_cut_path t us (t.codeOf_mem hx) hk

/-- What `decode` comes to, by the code words its bits are (45_decoder.md R264, R265). -/
theorem Tree.Valid.decode_cases {t : Tree} (hv : t.Valid) (bs : List Bool) : ∃ us, t.Units us ∧
    ((∃ rest, bs = t.codeWords us ++ rest ∧ t.decode bs = .done us rest) ∨
     (t.isLeaf = false ∧ ∃ p, t.CutAfter bs us p ∧ t.decode bs = .truncated us)) := by
  cases hl : t.isLeaf with
  | true =>
    obtain ⟨-, hcode⟩ := hv.of_isLeaf hl
    have hbits : bs = t.codeWords [] ++ bs := by rw [Tree.codeWords_eq, hcode]; rfl
    have hd := hv.decode_codeWords (us := []) (List.forall_mem_nil _) bs
    rw [← hbits] at hd
    exact ⟨[], List.forall_mem_nil _, .inl ⟨bs, hbits, hd⟩⟩
  | false =>
    obtain ⟨us, hus, ⟨rest, rfl⟩ | ⟨p, hp⟩⟩ := hv.exists_words hl bs
    · exact ⟨us, hus, .inl ⟨rest, rfl, hv.decode_codeWords hus rest⟩⟩
    · exact ⟨us, hus, .inr ⟨rfl, p, hp, Tree.decode_cutAfter hl hus hp⟩⟩

/-! ### Paths in the node memory -/

section
variable {node : List Node} {c d : Idx} {n : Node}

theorem follow_cons_eq_some {b : Bool} {p : List Bool} : follow node c (b :: p) = some d ↔
    ∃ m, nodeAt node c = some m ∧ m.leaf = false ∧ follow node (if b then m.right else m.left) p = some d := by
  rw [follow]
  cases nodeAt node c with
  | none => simp
  | some m => cases hm : m.leaf <;> simp [hm]

/-- A path that goes on to an internal node starts at one. -/
theorem follow_starts_inside {p : List Bool} (h : follow node c p = some d) (hn : nodeAt node d = some n)
    (hl : n.leaf = false) : ∃ m, nodeAt node c = some m ∧ m.leaf = false := by
  cases p with
  | nil => cases h; exact ⟨n, hn, hl⟩
  | cons b p =>
    obtain ⟨m, hm, hml, -⟩ := follow_cons_eq_some.1 h
    exact ⟨m, hm, hml⟩

/-- A code leads to the leaf of its symbol (42_code_generator.md R191). -/
theorem follow_code (t : Tree) : ∀ {k : Nat} {is : List Nat} {c : Idx} {x : Nat} {q : List Bool},
    treeAt k node c.toNat = some (t, is) → (x, q) ∈ t.codes [] →
    ∃ d n, follow node c q = some d ∧ nodeAt node d = some n ∧ n.leaf = true ∧ n.sym.toNat = x := by
  induction t with
  | leaf s w =>
    intro k is c x q hat hq
    obtain ⟨-, n, -, hn, ⟨hl, ht, -⟩ | ⟨-, l, r, ls, rs, -, -, ht, -⟩⟩ := treeAt_cases hat
    · cases ht
      obtain ⟨rfl, rfl⟩ := Prod.mk.inj (List.mem_singleton.1 hq)
      exact ⟨c, n, rfl, hn, hl, rfl⟩
    · cases ht
  | node w l r ihl ihr =>
    intro k is c x q hat hq
    obtain ⟨m, n, -, hn, ⟨-, ht, -⟩ | ⟨hl, l', r', ls, rs, hatl, hatr, ht, -⟩⟩ := treeAt_cases hat
    · cases ht
    · cases ht
      obtain ⟨b, p, rfl, hp⟩ := Tree.mem_codes_node.1 hq
      have hchild : ∃ d n', follow node (if b then n.right else n.left) p = some d ∧ nodeAt node d = some n' ∧
          n'.leaf = true ∧ n'.sym.toNat = x := by
        cases b with
        | false => exact ihl hatl hp
        | true => exact ihr hatr hp
      obtain ⟨d, n', hd, hleaf⟩ := hchild
      exact ⟨d, n', follow_cons_eq_some.2 ⟨n, hn, hl, hd⟩, hleaf⟩

/-- A path that is cut short leads to an internal node. -/
theorem follow_take {q : List Bool} {k : Nat} (h : follow node c q = some d) (hk : k < q.length) :
    ∃ e m, follow node c (q.take k) = some e ∧ nodeAt node e = some m ∧ m.leaf = false := by
  rw [← List.take_append_drop k q, follow_append, Option.bind_eq_some_iff, List.drop_eq_getElem_cons hk] at h
  obtain ⟨e, he, hd⟩ := h
  obtain ⟨m, hm, hl, -⟩ := follow_cons_eq_some.1 hd
  exact ⟨e, m, he, hm, hl⟩

end

/-! ### The loop along a path -/

section
variable {node : List Node} {root c : Idx} {n : Node} {src : Source} {snk : Sink}

theorem bindOut_assoc {α β γ : Type} (o : Out α) (f : α → Out β) (g : β → Out γ) :
    bindOut (bindOut o f) g = bindOut o (fun a => bindOut (f a) g) := by
  cases o <;> rfl

theorem decodeLoop_exhausted (hr : src.rest = []) (k : Nat) (cur : Idx) (snk : Sink) :
    decodeLoop node root (k + 1) src cur snk = .next { src := src, cur := cur, snk := snk, truncated := true } := by
  rw [decodeLoop, srcRead_of_lt src (by simp [hr])]

/-- One pass of the loop: a bit is read and its child taken (45_decoder.md R257, R259, R260). -/
theorem decodeLoop_bit {cur : Idx} {m : Node} {b : Bool} {bs : List Bool} (hr : src.rest = b :: bs)
    (hm : nodeAt node cur = some m) (hc : (if b then m.right else m.left) = c) (hn : nodeAt node c = some n) (k : Nat)
    (snk : Sink) : decodeLoop node root (k + 1) src cur snk =
      if n.leaf then
        if n.sym.toNat = 256 then .next { src := src.advance 1, cur := c, snk := snk, truncated := false }
        else bindOut (snkWrite 8 n.sym.toNat snk) (decodeLoop node root k (src.advance 1) root)
      else decodeLoop node root k (src.advance 1) c snk := by
  have hread : srcRead 1 src = some (b.toNat, src.advance 1) := by
    rw [srcRead_of_le src (by decide) (by simp [hr]), hr]
    cases b <;> rfl
  have hchild : (if b.toNat = 0 then m.left else m.right) = c := by rw [← hc]; cases b <;> rfl
  rw [decodeLoop, hread]
  simp only [hm, hchild, hn]
  cases snkWrite 8 n.sym.toNat snk <;> rfl

/-- Along a path to an internal node the loop reads the path's bits and writes nothing. -/
theorem decodeLoop_path (hn : nodeAt node c = some n) (hl : n.leaf = false) (k : Nat) (snk : Sink) (more : List Bool) :
    ∀ (p : List Bool) (src : Source) (cur : Idx), follow node cur p = some c → src.rest = p ++ more →
      decodeLoop node root (k + p.length) src cur snk = decodeLoop node root k (src.advance p.length) c snk := by
  intro p
  induction p with
  | nil => intro src cur hp _; cases hp; rfl
  | cons b p ih =>
    intro src cur hp hr
    obtain ⟨m, hm, -, hp⟩ := follow_cons_eq_some.1 hp
    obtain ⟨n', hn', hl'⟩ := follow_starts_inside hp hn hl
    rw [List.length_cons, ← Nat.add_assoc, decodeLoop_bit hr hm rfl hn', hl', if_neg Bool.false_ne_true,
      ih _ _ hp (by rw [Source.rest_advance, hr]; rfl), Source.advance_advance, Nat.add_comm 1]

/-- Along a path to a leaf the loop reads the path's bits and takes the leaf's symbol. -/
theorem decodeLoop_code {q more : List Bool} (hne : q ≠ []) (hq : follow node root q = some c)
    (hn : nodeAt node c = some n) (hl : n.leaf = true) (hr : src.rest = q ++ more) (k : Nat) :
    decodeLoop node root (k + q.length) src root snk =
      if n.sym.toNat = 256 then .next { src := src.advance q.length, cur := c, snk := snk, truncated := false }
      else bindOut (snkWrite 8 n.sym.toNat snk) (decodeLoop node root k (src.advance q.length) root) := by
  obtain rfl | ⟨p, b, rfl⟩ := q.eq_nil_or_concat'
  · exact absurd rfl hne
  rw [List.append_assoc] at hr
  rw [follow_append, Option.bind_eq_some_iff] at hq
  obtain ⟨e, he, hb⟩ := hq
  obtain ⟨m, hm, hml, hb⟩ := follow_cons_eq_some.1 hb
  have hlast : (src.advance p.length).rest = b :: more := by rw [Source.rest_advance, hr]; simp
  rw [List.length_append, List.length_singleton, Nat.add_comm p.length, ← Nat.add_assoc,
    decodeLoop_path hm hml _ snk _ p src root he hr, decodeLoop_bit hlast hm (Option.some.inj hb) hn, if_pos hl,
    Source.advance_advance, Nat.add_comm 1]

end

/-! ### The loop on code words -/

section
variable {node : List Node} {root : Idx} {src : Source} {snk : Sink} {tr : Tree} {is : List Nat} {us : List Nat}

/-- Write units to a sink, each of 8 bits (45_decoder.md R259). -/
def emit : List Nat → Sink → Out Sink
  | [], snk => .next snk
  | u :: us, snk => bindOut (snkWrite 8 u snk) (emit us)

/-- Units go to an open sink, and no units to any. -/
theorem emit_eq_next (h : snk.closed = false ∨ us = []) :
    emit us snk = .next { bits := snk.bits ++ us.flatMap (bitsN 8), closed := snk.closed } := by
  induction us generalizing snk with
  | nil => rw [emit, List.flatMap_nil, List.append_nil]
  | cons u us ih =>
    have ho : snk.closed = false := h.resolve_right (List.cons_ne_nil u us)
    rw [emit, snkWrite_eq_next.2 ⟨ho, rfl⟩, bindOut_next, ih (.inl rfl), List.flatMap_cons, List.append_assoc, ho]

theorem Tree.code_ne_nil {t : Tree} (hl : t.isLeaf = false) {x : Nat} {q : List Bool} (h : (x, q) ∈ t.codes []) :
    q ≠ [] := by
  cases t with
  | leaf s w => cases hl
  | node w l r =>
    obtain ⟨b, p, rfl, -⟩ := Tree.mem_codes_node.1 h
    exact List.cons_ne_nil b p

/-- The loop reads whole code words and emits their units. -/
theorem decodeLoop_unitWords (hat : treeAt maxNodes node root.toNat = some (tr, is)) (hl : tr.isLeaf = false) (k : Nat)
    (more : List Bool) (hus : tr.Units us) (hr : src.rest = tr.unitWords us ++ more) :
    decodeLoop node root (k + (tr.unitWords us).length) src root snk =
      bindOut (emit us snk) (decodeLoop node root k (src.advance (tr.unitWords us).length) root) := by
  induction us generalizing src snk with
  | nil => rfl
  | cons u us ih =>
    obtain ⟨⟨hlt, hu⟩, hunits⟩ := List.forall_mem_cons.1 hus
    have hcode := tr.codeOf_mem hu
    obtain ⟨c, n, hc, hn, hleaf, rfl⟩ := follow_code tr hat hcode
    rw [Tree.unitWords_cons] at hr ⊢
    rw [List.append_assoc] at hr
    rw [List.length_append, Nat.add_comm _ (tr.unitWords us).length, ← Nat.add_assoc,
      decodeLoop_code (Tree.code_ne_nil hl hcode) hc hn hleaf hr, if_neg (Nat.ne_of_lt hlt), emit, bindOut_assoc]
    refine congrArg _ (funext fun snk1 => ?_)
    rw [ih hunits (by rw [Source.rest_advance, hr, List.drop_left]), Source.advance_advance,
      Nat.add_comm (tr.unitWords us).length]

/-- On whole code words the loop ends at the sentinel's leaf (45_decoder.md R260). -/
theorem decodeLoop_codeWords (hat : treeAt maxNodes node root.toNat = some (tr, is)) (hl : tr.isLeaf = false)
    (hsent : 256 ∈ tr.syms) (hus : tr.Units us) {rest : List Bool} (hr : src.rest = tr.codeWords us ++ rest) :
    ∃ c n, follow node root ((tr.codeOf 256).getD []) = some c ∧ nodeAt node c = some n ∧ n.leaf = true ∧
      n.sym.toNat = 256 ∧ ∀ snk, decodeLoop node root (src.rest.length + 1) src root snk =
        mapOut (fun snk => { src := src.advance (src.rest.length - rest.length), cur := c, snk := snk,
                             truncated := false })
          (emit us snk) := by
  have hcode := tr.codeOf_mem hsent
  obtain ⟨c, n, hc, hn, hleaf, h256⟩ := follow_code tr hat hcode
  refine ⟨c, n, hc, hn, hleaf, h256, fun snk => ?_⟩
  rw [Tree.codeWords_eq, List.append_assoc] at hr
  have hlen := congrArg List.length hr
  rw [List.length_append, List.length_append] at hlen
  have hfuel : src.rest.length + 1 =
      rest.length + 1 + ((tr.codeOf 256).getD []).length + (tr.unitWords us).length := by omega
  have hread : src.rest.length - rest.length = (tr.unitWords us).length + ((tr.codeOf 256).getD []).length := by omega
  have hafter : (src.advance (tr.unitWords us).length).rest = (tr.codeOf 256).getD [] ++ rest := by
    rw [Source.rest_advance, hr, List.drop_left]
  rw [hfuel, hread, decodeLoop_unitWords hat hl _ _ hus hr]
  refine congrArg _ (funext fun snk1 => ?_)
  rw [decodeLoop_code (Tree.code_ne_nil hl hcode) hc hn hleaf hafter, if_pos h256, Source.advance_advance]

/-- On code words that are cut short the loop ends at the end of the source, at an internal node (45_decoder.md
R258). -/
theorem decodeLoop_cutAfter (hat : treeAt maxNodes node root.toNat = some (tr, is)) (hl : tr.isLeaf = false)
    (hus : tr.Units us) {p : List Bool} (hp : tr.CutAfter src.rest us p) :
    ∃ c n, follow node root p = some c ∧ nodeAt node c = some n ∧ n.leaf = false ∧ ∀ snk,
      decodeLoop node root (src.rest.length + 1) src root snk =
        mapOut (fun snk => { src := src.advance src.rest.length, cur := c, snk := snk, truncated := true })
          (emit us snk) := by
  obtain ⟨hr, x, hx, k, hk, rfl⟩ := hp
  obtain ⟨d, -, hd, -⟩ := follow_code tr hat (tr.codeOf_mem hx)
  obtain ⟨c, n, hc, hn, hleaf⟩ := follow_take hd hk
  refine ⟨c, n, hc, hn, hleaf, fun snk => ?_⟩
  generalize ((tr.codeOf x).getD []).take k = p at hr hc
  have hafter : (src.advance (tr.unitWords us).length).rest = p ++ [] := by
    rw [Source.rest_advance, hr, List.drop_left, List.append_nil]
  have hend : (src.advance ((tr.unitWords us).length + p.length)).rest = [] := by
    rw [Source.rest_advance, hr, ← List.length_append, List.drop_length]
  rw [congrArg List.length hr, List.length_append,
    show (tr.unitWords us).length + p.length + 1 = 1 + p.length + (tr.unitWords us).length by omega,
    decodeLoop_unitWords hat hl _ _ hus hr]
  refine congrArg _ (funext fun snk1 => ?_)
  rw [decodeLoop_path hn hleaf 1 snk1 [] p _ _ hc hafter, Source.advance_advance, decodeLoop_exhausted hend]

end

/-! ### DECODE -/

section
variable {s : State} {n : Node} {tr : Tree} {us : List Nat}

/-- What DECODE makes of the end of its loop (45_decoder.md R258, R260). -/
def endDecode (s : State) (w : Walked) : State :=
  let s1 := { s with src := w.src, cur := w.cur, snk := w.snk }
  if w.truncated then raise .truncated w.cur.toNat s1 else s1

theorem runDecode_leaf (htv : s.tv = true) (hn : nodeAt s.node s.root = some n) (hl : n.leaf = true) :
    runDecode s = .next { s with cur := s.root } := by
  rw [runDecode, if_pos htv, hn]
  exact if_pos hl

theorem runDecode_internal (htv : s.tv = true) (hn : nodeAt s.node s.root = some n) (hl : n.leaf = false) :
    runDecode s =
      mapOut (endDecode s) (decodeLoop s.node s.root (s.src.rest.length + 1) s.src s.root s.snk) := by
  rw [runDecode, if_pos htv, hn]
  refine (if_neg (Bool.eq_false_iff.1 hl)).trans (congrArg _ (funext fun w => ?_))
  cases hw : w.truncated <;> simp [endDecode, hw]

/-- Settles O42: the leaf of a degenerate tree is seen before any bit is read. -/
theorem decodeOfALeafRootEndsAtOnce : Obligations.DecodeOfALeafRootEndsAtOnce :=
  fun _ _ hready htv hn hl => (accept_ready hready).trans (runDecode_leaf htv hn hl)

/-- DECODE on whole code words: the units are emitted and `CUR` is left at the sentinel's leaf (45_decoder.md R259,
R260). -/
theorem runDecode_codeWords (htv : s.tv = true) (ht : treeOf s.node s.root.toNat = some tr) (hv : tr.Valid)
    (hus : tr.Units us) {rest : List Bool} (hr : s.src.rest = tr.codeWords us ++ rest) :
    ∃ c n, follow s.node s.root ((tr.codeOf 256).getD []) = some c ∧ nodeAt s.node c = some n ∧ n.leaf = true ∧
      n.sym = 256#9 ∧
      runDecode s = mapOut
        (fun snk => { s with cur := c, src := s.src.advance (s.src.rest.length - rest.length), snk := snk })
        (emit us s.snk) := by
  obtain ⟨is, hat⟩ := treeOf_eq_some.1 ht
  obtain ⟨-, m, -, hm, ⟨hml, rfl, -⟩ | ⟨hml, l, r, ls, rs, -, -, rfl, -⟩⟩ := treeAt_cases hat
  · obtain ⟨rfl, hnil⟩ := hv.leaf_codeWords hus
    obtain ⟨-, hcode⟩ := hv.of_isLeaf rfl
    refine ⟨s.root, m, by rw [hcode]; rfl, hm, hml, BitVec.eq_of_toNat_eq hv.leaf_syms, ?_⟩
    rw [runDecode_leaf htv hm hml, hr, hnil, List.nil_append, Nat.sub_self]
    rfl
  · obtain ⟨c, n, hc, hn, hleaf, h256, hloop⟩ := decodeLoop_codeWords hat rfl hv.2.2 hus hr
    refine ⟨c, n, hc, hn, hleaf, BitVec.eq_of_toNat_eq h256, ?_⟩
    rw [runDecode_internal htv hm hml, hloop]
    exact bindOut_assoc _ _ _

/-- DECODE on code words that are cut short: the whole ones' units are emitted, and Truncated is raised with `CUR` at
the internal node where the source ends (45_decoder.md R258). -/
theorem runDecode_cutAfter (htv : s.tv = true) (ht : treeOf s.node s.root.toNat = some tr) (hl : tr.isLeaf = false)
    (hus : tr.Units us) {p : List Bool} (hp : tr.CutAfter s.src.rest us p) :
    ∃ c n, follow s.node s.root p = some c ∧ nodeAt s.node c = some n ∧ n.leaf = false ∧
      runDecode s = mapOut (fun snk => raise .truncated c.toNat
          { s with cur := c, src := s.src.advance s.src.rest.length, snk := snk })
        (emit us s.snk) := by
  obtain ⟨is, hat⟩ := treeOf_eq_some.1 ht
  obtain ⟨c, n, hc, hn, hleaf, hloop⟩ := decodeLoop_cutAfter hat hl hus hp
  obtain ⟨m, hm, hml⟩ := follow_starts_inside hc hn hleaf
  refine ⟨c, n, hc, hn, hleaf, ?_⟩
  rw [runDecode_internal htv hm hml, hloop]
  exact bindOut_assoc _ _ _

/-- Settles O41: the bits of the source are code words, whole with the sentinel's or cut short, and the loop reads them
as `decode` does. -/
theorem decodeRunsTheAutomaton : Obligations.DecodeRunsTheAutomaton := by
  refine ⟨rfl, fun s tr hready htv ht hv => ?_⟩
  obtain ⟨us, hus, ⟨rest, hr, hdec⟩ | ⟨hl, p, hp, hdec⟩⟩ := hv.decode_cases s.src.rest <;> rw [hdec]
  · obtain ⟨c, n, hc, hn, hleaf, hsym, hrun⟩ := runDecode_codeWords htv ht hv hus hr
    refine ⟨fun out rest' hd hwritable => ?_, nofun⟩
    cases hd
    rw [emit_eq_next hwritable] at hrun
    exact ⟨c, n, (accept_ready hready).trans hrun, hc, hn, hleaf, hsym⟩
  · obtain ⟨c, n, hc, hn, hleaf, hrun⟩ := runDecode_cutAfter htv ht hl hus hp
    refine ⟨nofun, fun out hd hwritable => ?_⟩
    cases hd
    rw [emit_eq_next hwritable] at hrun
    exact ⟨p, c, n, (accept_ready hready).trans hrun, hp.1, hc, hn, hleaf⟩

end
end Sys2Proof.Machine
end

section
/-! PROOFS. With the tree invariant every command ends: a body answers a next state unless it would write or flush a
closed sink (45_decoder.md R263, 20_memory.md R90). -/

namespace Sys2Proof.Machine

/-! ### Outcomes that end -/

/-- An outcome is a value, or the refusal to write or flush the closed sink. -/
def Ends {α : Type} (snk : Sink) (o : Out α) : Prop :=
  (∃ a, o = .next a) ∨ (o = .refused .sinkClosed ∧ snk.closed = true)

/-- An outcome that ends, and whose value holds (by `f`) a sink that is closed only if it was. -/
def KeepsOpen {α : Type} (snk : Sink) (f : α → Sink) (o : Out α) : Prop :=
  (∃ a, o = .next a ∧ ((f a).closed = true → snk.closed = true)) ∨ (o = .refused .sinkClosed ∧ snk.closed = true)

section
variable {α β : Type} {snk : Sink} {f : α → Sink} {g : β → Sink} {o : Out α}

theorem KeepsOpen.next {a : α} (h : f a = snk) : KeepsOpen snk f (.next a) := .inl ⟨a, rfl, fun hc => h ▸ hc⟩

theorem KeepsOpen.ends (h : KeepsOpen snk f o) : Ends snk o := h.imp_left fun ⟨a, ha, _⟩ => ⟨a, ha⟩

theorem KeepsOpen.bind {h : α → Out β} (ho : KeepsOpen snk f o) (hh : ∀ a, KeepsOpen (f a) g (h a)) :
    KeepsOpen snk g (bindOut o h) := by
  obtain ⟨a, rfl, hopen⟩ | ⟨rfl, hc⟩ := ho
  · obtain ⟨b, hb, hopen'⟩ | ⟨hb, hc⟩ := hh a
    · exact .inl ⟨b, hb, hopen ∘ hopen'⟩
    · exact .inr ⟨hb, hopen hc⟩
  · exact .inr ⟨rfl, hc⟩

theorem KeepsOpen.map {h : α → β} (ho : KeepsOpen snk f o) (hh : ∀ a, g (h a) = f a) :
    KeepsOpen snk g (mapOut h o) := ho.bind fun a => .next (hh a)

end

/-! ### Writes -/

theorem snkWrite_keepsOpen (n v : Nat) (snk : Sink) : KeepsOpen snk id (snkWrite n v snk) := by
  cases hc : snk.closed with
  | false => exact .inl ⟨_, snkWrite_eq_next.2 ⟨hc, rfl⟩, nofun⟩
  | true => exact .inr ⟨snkWrite_closed hc, hc⟩

theorem emit_keepsOpen : ∀ (us : List Nat) (snk : Sink), KeepsOpen snk id (emit us snk)
  | [], _ => .next rfl
  | u :: us, snk => (snkWrite_keepsOpen 8 u snk).bind (emit_keepsOpen us)

/-- A pass of ENCODE's loop on a unit with a code (44_encoder.md R241). -/
theorem encodeLoop_unit {code : Vector CodeEntry 257} {src src1 : Source} {u : Nat}
    (hread : srcRead 8 src = some (u, src1)) (hvalid : (rdSym code (unitSym u)).valid = true) (k : Nat) (snk : Sink) :
    encodeLoop code (k + 1) src snk =
      bindOut (snkWrite (rdSym code (unitSym u)).len.toNat (rdSym code (unitSym u)).bits.toNat snk)
        (encodeLoop code k src1) := by
  simp only [encodeLoop, hread, hvalid, if_true]
  cases snkWrite _ _ snk <;> rfl

theorem encodeLoop_keepsOpen (code : Vector CodeEntry 257) : ∀ (k : Nat) (src : Source) (snk : Sink),
    KeepsOpen snk Encoded.snk (encodeLoop code k src snk) := by
  intro k
  induction k with
  | zero => exact fun src snk => .next rfl
  | succ k ih =>
    intro src snk
    cases hread : srcRead 8 src with
    | none => rw [encodeLoop, hread]; exact .next rfl
    | some r =>
      obtain ⟨u, src1⟩ := r
      cases hvalid : (rdSym code (unitSym u)).valid with
      | true => rw [encodeLoop_unit hread hvalid]; exact (snkWrite_keepsOpen _ _ snk).bind (ih src1)
      | false => simp only [encodeLoop, hread, hvalid, Bool.false_eq_true, if_false]; exact .next rfl

/-! ### Bodies -/

section
variable {s : State} {i : Instr}

theorem runEncode_keepsOpen (s : State) : KeepsOpen s.snk State.snk (runEncode s) := by
  rw [runEncode]
  split
  · refine (encodeLoop_keepsOpen s.code _ s.src s.snk).bind fun e => ?_
    split
    · exact .next rfl
    · exact (snkWrite_keepsOpen _ _ e.snk).map fun _ => rfl
  · exact .next rfl

theorem runWrtree_keepsOpen (hs : TreeOk s) : KeepsOpen s.snk State.snk (runWrtree s) := by
  cases htv : s.tv with
  | false => rw [runWrtree, htv]; exact .next rfl
  | true =>
    obtain ⟨tr, is, hat, hv, -⟩ := hs.1 htv
    have ht := treeOf_eq_some.2 ⟨is, hat⟩
    cases hc : s.snk.closed with
    | false => exact .inl ⟨_, runWrtree_ser htv ht hv hc, nofun⟩
    | true => exact .inr ⟨runWrtree_closed hc htv ht, hc⟩

theorem runDecode_keepsOpen (hs : TreeOk s) : KeepsOpen s.snk State.snk (runDecode s) := by
  cases htv : s.tv with
  | false => rw [runDecode, htv]; exact .next rfl
  | true =>
    obtain ⟨tr, is, hat, hv, -⟩ := hs.1 htv
    have ht := treeOf_eq_some.2 ⟨is, hat⟩
    obtain ⟨us, hus, ⟨rest, hr, -⟩ | ⟨hl, p, hp, -⟩⟩ := hv.decode_cases s.src.rest
    · obtain ⟨c, n, -, -, -, -, hrun⟩ := runDecode_codeWords htv ht hv hus hr
      rw [hrun]
      exact (emit_keepsOpen us s.snk).map fun _ => rfl
    · obtain ⟨c, n, -, -, -, hrun⟩ := runDecode_cutAfter htv ht hl hus hp
      rw [hrun]
      exact (emit_keepsOpen us s.snk).map fun _ => rfl

theorem runGencode_next (hs : TreeOk s) : ∃ t, runGencode s = .next t := by
  cases htv : s.tv with
  | false => rw [runGencode, htv]; exact ⟨_, rfl⟩
  | true =>
    obtain ⟨tr, is, hat, hv, -⟩ := hs.1 htv
    obtain ⟨code, hrun, -⟩ := runGencode_table htv (treeOf_eq_some.2 ⟨is, hat⟩) hv
    exact ⟨_, hrun⟩

theorem runHist_next (s : State) : ∃ t, runHist s = .next t := by
  rw [runHist]
  split <;> exact ⟨_, rfl⟩

theorem runBuild_next (s : State) : ∃ t, runBuild s = .next t := by
  by_cases h0 : rdSym s.hist sentinel = 0
  · exact ⟨_, runBuild_badHist h0⟩
  · cases ho : (mergeLeaves (wmax s.cfg) (histLeafNodes s.hist)).overflow with
    | true => exact ⟨_, runBuild_overflow h0 ho⟩
    | false => exact ⟨_, runBuild_built h0 ho⟩

theorem runRdmagic_next (s : State) : ∃ t, runRdmagic s = .next t := by
  rw [runRdmagic]
  split <;> exact ⟨_, rfl⟩

/-- No command but FLUSH closes the sink, and no body faults with the tree invariant. -/
theorem bodyOf_keepsOpen (hi : i ∉ [Instr.flush, .compress, .decompress]) (hs : TreeOk s) :
    KeepsOpen s.snk State.snk (bodyOf i s) := by
  have silent {j : Instr} (hj : j ∉ [Instr.wrmagic, .wrtree, .encode, .flush, .decode, .compress, .decompress])
      (h : ∃ t, bodyOf j s = .next t) : KeepsOpen s.snk State.snk (bodyOf j s) := by
    obtain ⟨t, ht⟩ := h
    rw [ht]
    exact .next (bodyOf_snk_eq hj ht)
  cases i with
  | wrmagic => exact (snkWrite_keepsOpen _ _ s.snk).map fun _ => rfl
  | wrtree => exact runWrtree_keepsOpen hs
  | encode => exact runEncode_keepsOpen s
  | decode => exact runDecode_keepsOpen hs
  | hist => exact silent (by simp) (runHist_next s)
  | build => exact silent (by simp) (runBuild_next s)
  | gencode => exact silent (by simp) (runGencode_next hs)
  | rdmagic => exact silent (by simp) (runRdmagic_next s)
  | flush | compress | decompress => simp at hi
  | _ => exact silent (by simp) ⟨_, rfl⟩

theorem runFlush_ends (s : State) : Ends s.snk (runFlush s) := by
  cases hc : s.snk.closed with
  | false => exact .inl ⟨_, runFlush_pads hc⟩
  | true => exact .inr ⟨by rw [runFlush, snkFlush_closed hc, mapOut_refused], hc⟩

/-- The steps of a composite before its FLUSH end, and so does the composite. -/
theorem runSteps_ends {is : List Instr} (his : ∀ i ∈ is, i ∉ [Instr.flush, .compress, .decompress]) :
    ∀ {k : Nat} {s : State}, TreeOk s → Ends s.snk (runSteps k ((is ++ [Instr.flush]).map bodyOf) s) := by
  induction is with
  | nil =>
    intro k s _
    obtain ⟨t, ht⟩ | ⟨hrefused, hc⟩ := runFlush_ends (setStep k s)
    · cases he : t.err with
      | true => exact .inl ⟨t, runSteps_cons_error ht he⟩
      | false => exact .inl ⟨_, runSteps_cons_ok ht he⟩
    · exact .inr ⟨congrArg (thenOk · _) hrefused, hc⟩
  | cons i is ih =>
    obtain ⟨hi, his⟩ := List.forall_mem_cons.1 his
    intro k s hs
    obtain ⟨t, ht, hopen⟩ | ⟨hrefused, hc⟩ := bodyOf_keepsOpen (s := setStep k s) hi hs
    · cases he : t.err with
      | true => exact .inl ⟨t, runSteps_cons_error ht he⟩
      | false =>
        rw [List.cons_append, List.map_cons, runSteps_cons_ok ht he]
        exact (ih his (bodyOf_treeOk (s := setStep k s) ht hs)).imp_right (And.imp_right hopen)
    · exact .inr ⟨congrArg (thenOk · _) hrefused, hc⟩

theorem bodyOf_ends (i : Instr) (hs : TreeOk s) : Ends s.snk (bodyOf i s) := by
  cases i with
  | flush => exact runFlush_ends s
  | compress =>
    exact runSteps_ends (is := [Instr.hist, .build, .gencode, .rewind, .wrmagic, .wrtree, .encode]) (by decide) hs
  | decompress => exact runSteps_ends (is := [Instr.rdmagic, .rdtree, .decode]) (by decide) hs
  | _ => exact (bodyOf_keepsOpen (by simp) hs).ends

/-! ### Steps -/

theorem exec_ends (hf : i.format = .cmd4) (hidle : s.seqr = .idle) (hs : TreeOk s) : Ends s.snk (exec i s) := by
  by_cases hclr : i = .clrerr
  · rw [hclr, exec_clrerr, acceptAlways_idle hidle]
    exact bodyOf_ends _ hs
  by_cases hres : i = .reset
  · rw [hres, exec_reset, acceptAlways_idle hidle]
    exact bodyOf_ends _ hs
  rw [exec_eq_accept hf hclr hres]
  cases he : s.err with
  | true => exact .inl ⟨s, accept_error hidle he⟩
  | false =>
    rw [accept_ready ⟨hidle, he⟩]
    exact bodyOf_ends i hs

theorem takeAction_ends (a : HostAction) (hidle : s.seqr = .idle) (hs : TreeOk s) : Ends s.snk (takeAction a s) := by
  cases a with
  | write addr v =>
    rw [takeAction]
    split
    · exact exec_ends (decodeCmd_format v) hidle hs
    · exact .inl ⟨_, rfl⟩
  | _ => exact .inl ⟨_, rfl⟩

/-- Settles O57: every sub-command keeps the tree invariant, a walk over a valid tree ends, and every other loop has a
bound. -/
theorem stepEndsWithoutFault : Obligations.StepEndsWithoutFault := by
  intro s hidle hs
  cases hp : s.pending with
  | nil => exact .inl ⟨s, step_idle_nil hidle hp⟩
  | cons a rest =>
    rw [step_idle_cons hidle hp]
    exact takeAction_ends (s := { s with pending := rest }) a hidle hs

end
end Sys2Proof.Machine
end

section
/-! PROOFS. The control commands (46_control_and_sequences.md R275 to R279), and the composites as whole runs: the state
that DECOMPRESS of an artifact and COMPRESS of units that fit end in (R290, R292). -/

namespace Sys2Proof.Machine

variable {s : State}

/-! ### The control commands -/

/-- Settles O9: the body of RESET is the reset of the block, and it looks at `BUSY` only. -/
theorem resetCommandRestoresResetState : Obligations.ResetCommandRestoresResetState :=
  ⟨rfl, fun s hidle => (exec_reset s).trans (acceptAlways_idle hidle)⟩

/-- Settles O10: the body of an accepted FLUSH pads by `padBits`. -/
theorem flushPadsAndCloses : Obligations.FlushPadsAndCloses :=
  ⟨rfl, fun s hready hopen => ⟨padBits s.snk.bits.length, padBits_le _, padBits_mod _,
    (accept_ready hready).trans (runFlush_pads hopen)⟩⟩

/-- Settles O11: the body of an accepted NOP answers the state it gets, that of REWIND the state with the source
rewound. -/
theorem nopChangesNothingAndRewindThePosition : Obligations.NopChangesNothingAndRewindThePosition :=
  ⟨rfl, rfl, fun _ hready => ⟨accept_ready hready, accept_ready hready⟩⟩

/-- Settles O12: the body of CLRERR clears the error, and it looks at `BUSY` only. -/
theorem clrerrClearsOnlyTheError : Obligations.ClrerrClearsOnlyTheError :=
  ⟨rfl, fun s hidle => (exec_clrerr s).trans (acceptAlways_idle hidle)⟩

/-! ### DECOMPRESS of an artifact -/

/-- FLUSH as the last step: the sink is padded and closed, and `MSTEP` is cleared. -/
theorem runSteps_flush (herr : s.err = false) (hopen : s.snk.closed = false) (k : Nat) :
    runSteps k [runFlush] s =
      .next { s with snk := { bits := s.snk.bits ++ List.replicate (padBits s.snk.bits.length) false, closed := true },
                     hidden := { s.hidden with mstep := 0 } } :=
  runSteps_cons_ok (runFlush_pads (s := setStep k s) hopen) herr

/-- The state once DECOMPRESS has read a marker and the serialization of a tree. -/
def headerReadState (tr : Tree) (s : State) : State :=
  rebuiltState tr (setStep 1 { s with src := s.src.advance 32 })

theorem headerReadState_src (tr : Tree) (s : State) :
    (headerReadState tr s).src = s.src.advance (32 + tr.ser.length) :=
  Source.advance_advance _ _ _

/-- Steps 0 and 1 at a marker and a valid tree: RDTREE rebuilds the tree. -/
theorem runSteps_readHeader {tr : Tree} {more : List Bool} (herr : s.err = false) (hv : tr.Valid)
    (hr : s.src.rest = bitsN 32 s.cfg.magic.toNat ++ (tr.ser ++ more)) (bodies : List (State → Out State)) :
    runSteps 0 (runRdmagic :: runRdtree :: bodies) s = runSteps 2 bodies (headerReadState tr s) := by
  rw [runSteps_cons_ok (runRdmagic_marker (s := setStep 0 s) hr) herr]
  refine runSteps_cons_ok (runRdtree_rebuilds (more := more) hv ?_) herr
  simp [hr]

/-- Steps 2 and 3 at the code words of units and the sentinel's: the units go to the empty sink, which is closed. -/
theorem runSteps_readUnits {tr : Tree} {us : List Nat} {x : List Bool} (herr : s.err = false) (htv : s.tv = true)
    (ht : treeOf s.node s.root.toNat = some tr) (hv : tr.Valid) (hus : tr.Units us)
    (hsnk : s.snk = { bits := [], closed := false }) (hr : s.src.rest = tr.codeWords us ++ x) :
    ∃ c, runSteps 2 [runDecode, runFlush] s =
      .next { s with cur := c, src := s.src.advance (tr.codeWords us).length,
                     snk := { bits := us.flatMap (bitsN 8), closed := true },
                     hidden := { s.hidden with mstep := 0 } } := by
  obtain ⟨c, -, -, -, -, -, hdecode⟩ := runDecode_codeWords (s := setStep 2 s) htv ht hv hus hr
  rw [setStep_snk, hsnk, emit_eq_next (.inl rfl), List.nil_append, mapOut_next, setStep_src, hr, List.length_append,
    Nat.add_sub_cancel] at hdecode
  have hpad : padBits (us.flatMap (bitsN 8)).length = 0 := by rw [length_flatMap_bitsN, padBits]; omega
  refine ⟨c, (runSteps_cons_ok hdecode herr).trans ((runSteps_flush (by exact herr) rfl 3).trans ?_)⟩
  simp only [hpad, List.replicate_zero, List.append_nil]
  rfl

/-- Settles O46: RDTREE rebuilds the tree that the artifact names, and DECODE reads the units' code words with it. -/
theorem decompressReadsTheArtifact : Obligations.DecompressReadsTheArtifact := by
  intro s tr us x hready hsnk hv hus hr
  have hrest : (headerReadState tr s).src.rest = tr.unweighted.codeWords us ++ x := by
    rw [headerReadState_src, Source.rest_advance, hr, ← List.append_assoc (bitsN 32 _), List.drop_left' (by simp),
      Tree.unweighted_codeWords, Tree.codeWords, List.append_assoc]
  have hlen : s.src.rest.length - x.length = 32 + tr.ser.length + (tr.unweighted.codeWords us).length := by
    rw [hr, Tree.unweighted_codeWords, Tree.codeWords]
    simp only [List.length_append, bitsN_length]
    omega
  have hheader := runSteps_readHeader hready.2 hv hr [runDecode, runFlush]
  obtain ⟨c, hunits⟩ := runSteps_readUnits (s := headerReadState tr s) hready.2 rfl (treeOf_rebuiltState hv _)
    hv.unweighted (by rwa [Tree.Units, Tree.unweighted_syms]) hsnk hrest
  refine ⟨_, (accept_ready hready).trans (hheader.trans hunits), hready.2, rfl, rfl, rfl, rfl, ?_,
    treeOf_rebuiltState hv (setStep 1 { s with src := s.src.advance 32 }), rfl, rfl, rfl, rfl⟩
  rw [hlen, headerReadState_src, Source.advance_advance]

/-! ### COMPRESS -/

/-- The state after steps 4 to 6: the units are read, and the marker, the tree and the payload stand in the open sink. -/
def artifactWrittenState (tr : Tree) (s : State) : State :=
  { s with src := s.src.advance (8 * (units s.src.bits).length),
           snk := { bits := s.snk.bits ++ (bitsN 32 s.cfg.magic.toNat ++ (tr.ser ++ payload s.code (units s.src.bits))),
                    closed := false },
           hidden := { s.hidden with stk := [], mstep := 6 } }

/-- Steps 4 to 6, with a tree's code held and the source at its first bit: WRMAGIC, WRTREE and ENCODE. -/
theorem runSteps_writeArtifact {tr : Tree} (h : HoldsCode tr s) (herr : s.err = false) (hpos : s.src.pos = 0)
    (hopen : s.snk.closed = false) (hsyms : ∀ u ∈ units s.src.bits, u ∈ tr.syms) (bodies : List (State → Out State)) :
    runSteps 4 (runWrmagic :: runWrtree :: runEncode :: bodies) s =
      runSteps 7 bodies (artifactWrittenState tr s) := by
  have hrest : s.src.rest = s.src.bits := by rw [Source.rest, hpos, List.drop_zero]
  have hcodes : ∀ u ∈ units s.src.rest, (rdSym s.code (unitSym u)).valid = true := fun u hu => by
    rw [h.code, unitSym_val (units_lt _ u hu)]
    exact Tree.entryOf_valid (hsyms u (hrest ▸ hu))
  rw [artifactWrittenState, ← List.append_assoc, ← List.append_assoc, ← hrest]
  refine (runSteps_cons_ok (runWrmagic_marker (s := setStep 4 s) hopen) herr).trans ?_
  refine (runSteps_cons_ok (runWrtree_ser (by exact h.tv) (by exact h.tree) h.valid rfl) (by exact herr)).trans ?_
  refine (runSteps_cons_ok (runEncode_payload (by exact h.cv) rfl (by exact hcodes)) (by exact herr)).trans ?_
  rfl

/-- Settles O45: the first four steps leave the code of a tree for the units, the others write the artifact. -/
theorem compressWritesTheArtifact : Obligations.CompressWritesTheArtifact := by
  intro s hready hpos hopen hfit
  obtain ⟨u, tr, hfirst, hcode, hsyms, hcounts, herr, hseqr, hsrc, hsnk, hcfg, hpending⟩ :=
    compress_first_steps hready.2 hpos hfit [runWrmagic, runWrtree, runEncode, runFlush]
  have hwrite := runSteps_writeArtifact hcode herr (hsrc ▸ hpos) (hsnk ▸ hopen) (hsrc ▸ hsyms) [runFlush]
  have hflush := runSteps_flush (s := artifactWrittenState tr u) herr rfl 7
  refine ⟨_, tr, padBits (artifactWrittenState tr u).snk.bits.length,
    (accept_ready hready).trans (hfirst.trans (hwrite.trans hflush)), herr, hseqr.trans hready.1, hcode.tv, hcode.cv,
    hcode.tree, hcode.valid, hcode.code, hcounts, padBits_le _, ?_, ?_, ?_, hcfg, hpending⟩
  · rw [List.length_append, List.length_replicate]
    exact padBits_mod _
  · simp only [artifactWrittenState, hsrc, hsnk, hcfg, List.append_assoc]
  · rw [artifactWrittenState, hsrc, Source.advance, hpos, Nat.zero_add]

end Sys2Proof.Machine
end

section
/-! PROOFS. Each composite gives what its expansion gives, command by command (46_control_and_sequences.md R290, R292,
R294): no command's effect depends on `MSTEP`, and none writes it but in the hidden state of an error. -/

namespace Sys2Proof.Machine

variable {s t : State} {k : Nat}

/-! ### `MSTEP` in a state and in an outcome -/

/-- t as it is when the command that led to it ran at step k: an error leaves nothing of `MSTEP`, a success leaves it as
it was (10_state.md R51, 93_implementation_defined.md U10). -/
def endAtStep (k : Nat) (t : State) : State := if t.err then t else setStep k t

theorem endAtStep_ok (h : t.err = false) : endAtStep k t = setStep k t := if_neg (Bool.eq_false_iff.1 h)

theorem endAtStep_error (h : t.err = true) : endAtStep k t = t := if_pos h

/-- A body does at step k what it does at any other. -/
def IgnoresStep (body : State → Out State) : Prop :=
  ∀ k s, s.err = false → body (setStep k s) = mapOut (endAtStep k) (body s)

theorem eq_endAtStep {u : State} (hu : u = setStep k t) (herr : t.err = false) : u = endAtStep k t :=
  hu.trans (endAtStep_ok herr).symm

/-- One outcome carried into states that differ in `MSTEP` only. -/
theorem mapOut_atStep {α : Type} {f g : α → State} (h : ∀ a, g a = endAtStep k (f a)) (o : Out α) :
    mapOut g o = mapOut (endAtStep k) (mapOut f o) := by
  cases o with
  | next a => exact congrArg Host.Outcome.next (h a)
  | fault | refused => rfl

/-! ### The bodies without a loop over tokens -/

theorem runHist_ignoresStep : IgnoresStep runHist := by
  intro k s herr
  rw [runHist, runHist, setStep_cfg, setStep_src]
  obtain ⟨src, hist, _ | x⟩ := countUnits (wmax s.cfg) s.src.rest.length s.src (Vector.replicate 257 0)
  · exact congrArg Host.Outcome.next (eq_endAtStep rfl herr)
  · rfl

theorem runBuild_ignoresStep : IgnoresStep runBuild := by
  intro k s herr
  by_cases hsent : rdSym s.hist sentinel = 0
  · rw [runBuild_badHist hsent, runBuild_badHist (s := setStep k s) hsent]
    rfl
  · cases hover : (mergeLeaves (wmax s.cfg) (histLeafNodes s.hist)).overflow with
    | true =>
      rw [runBuild_overflow hsent hover, runBuild_overflow (s := setStep k s) hsent hover]
      rfl
    | false =>
      rw [runBuild_built hsent hover, runBuild_built (s := setStep k s) hsent hover]
      exact congrArg Host.Outcome.next (eq_endAtStep rfl herr)

theorem runGencode_ignoresStep : IgnoresStep runGencode := by
  intro k s herr
  rw [runGencode, runGencode, setStep_tv]
  cases s.tv with
  | false => rfl
  | true =>
    simp only [if_true]
    exact mapOut_atStep (fun _ => by exact eq_endAtStep rfl herr) _

theorem runRewind_ignoresStep : IgnoresStep runRewind :=
  fun _ _ herr => congrArg Host.Outcome.next (eq_endAtStep rfl herr)

theorem runWrmagic_ignoresStep : IgnoresStep runWrmagic :=
  fun _ _ herr => mapOut_atStep (fun _ => by exact eq_endAtStep rfl herr) _

theorem runWrtree_ignoresStep : IgnoresStep runWrtree := by
  intro k s herr
  rw [runWrtree, runWrtree, setStep_tv]
  cases s.tv with
  | false => rfl
  | true =>
    simp only [if_true]
    exact mapOut_atStep (fun _ => by exact eq_endAtStep rfl herr) _

theorem runEncode_ignoresStep : IgnoresStep runEncode := by
  intro k s herr
  rw [runEncode, runEncode, setStep_cv]
  cases s.cv with
  | false => rfl
  | true =>
    simp only [if_true, setStep_code, setStep_src, setStep_snk]
    cases encodeLoop s.code s.src.rest.length s.src s.snk with
    | next e =>
      simp only [bindOut_next]
      cases e.noCode with
      | some x => rfl
      | none => exact mapOut_atStep (fun _ => by exact eq_endAtStep rfl herr) _
    | fault | refused => rfl

theorem runFlush_ignoresStep : IgnoresStep runFlush :=
  fun _ _ herr => mapOut_atStep (fun _ => by exact eq_endAtStep rfl herr) _

theorem checkMarker_setStep (w : BitVec 32) (herr : s.err = false) :
    checkMarker w (setStep k s) = endAtStep k (checkMarker w s) := by
  rw [checkMarker, checkMarker, setStep_cfg]
  split
  · exact eq_endAtStep rfl herr
  · rfl

theorem runRdmagic_ignoresStep : IgnoresStep runRdmagic := by
  intro k s herr
  rw [runRdmagic, runRdmagic, setStep_src]
  cases srcRead 32 s.src with
  | none => rfl
  | some r => exact congrArg Host.Outcome.next (checkMarker_setStep (s := { s with src := r.2 }) _ herr)

theorem endDecode_setStep (w : Walked) (herr : s.err = false) :
    endDecode (setStep k s) w = endAtStep k (endDecode s w) := by
  rw [endDecode, endDecode]
  cases w.truncated with
  | false => exact eq_endAtStep rfl herr
  | true => rfl

theorem runDecode_ignoresStep : IgnoresStep runDecode := by
  intro k s herr
  cases htv : s.tv with
  | false => rw [runDecode, runDecode, setStep_tv, htv]; rfl
  | true =>
    cases hn : nodeAt s.node s.root with
    | none => rw [runDecode, runDecode, setStep_tv, setStep_node, setStep_root, htv, hn]; rfl
    | some n =>
      cases hl : n.leaf with
      | true =>
        rw [runDecode_leaf htv hn hl, runDecode_leaf (s := setStep k s) htv hn hl]
        exact congrArg Host.Outcome.next (eq_endAtStep rfl herr)
      | false =>
        rw [runDecode_internal htv hn hl, runDecode_internal (s := setStep k s) htv hn hl]
        exact mapOut_atStep (fun w => endDecode_setStep w herr) _

/-! ### RDTREE -/

theorem treeInternal_setStep (herr : s.err = false) : treeInternal (setStep k s) = endAtStep k (treeInternal s) := by
  by_cases hfull : s.hidden.ni = 256
  · rw [treeInternal_of_full hfull, treeInternal_of_full (s := setStep k s) hfull]
    rfl
  · rw [treeInternal_of_room hfull, treeInternal_of_room (s := setStep k s) hfull]
    exact eq_endAtStep rfl herr

theorem finishTree_setStep (herr : s.err = false) : finishTree (setStep k s) = endAtStep k (finishTree s) := by
  cases hsent : rdSym s.hidden.seen sentinel with
  | true =>
    rw [finishTree_of_seen hsent, finishTree_of_seen (s := setStep k s) hsent]
    exact eq_endAtStep rfl herr
  | false =>
    rw [finishTree_of_unseen hsent, finishTree_of_unseen (s := setStep k s) hsent]
    rfl

theorem afterLeaf_setStep (herr : s.err = false) : afterLeaf (setStep k s) = endAtStep k (afterLeaf s) := by
  cases hstk : s.hidden.stk with
  | nil =>
    rw [afterLeaf_of_empty hstk, afterLeaf_of_empty (s := setStep k s) hstk]
    exact finishTree_setStep herr
  | cons e stk =>
    rw [afterLeaf_of_waiting hstk, afterLeaf_of_waiting (s := setStep k s) hstk]
    exact eq_endAtStep rfl herr

theorem treeLeaf_setStep (field : BitVec 9) (herr : s.err = false) :
    treeLeaf field (setStep k s) = endAtStep k (treeLeaf field s) := by
  rw [treeLeaf, treeLeaf]
  cases symOf field with
  | none => rfl
  | some x =>
    cases hseen : rdSym s.hidden.seen x with
    | true =>
      simp only [setStep_hidden, hseen, if_true]
      rfl
    | false =>
      simp only [setStep_hidden, hseen, Bool.false_eq_true, if_false]
      exact afterLeaf_setStep (s := leafState x s) herr

theorem treePass_setStep (herr : s.err = false) : treePass (setStep k s) = endAtStep k (treePass s) := by
  obtain ⟨n, -, hr | hr | ⟨field, hr⟩⟩ := readToken_cases s.src <;> simp only [treePass, setStep_src, hr]
  · rfl
  · exact treeInternal_setStep (s := { s with src := s.src.advance n }) herr
  · exact treeLeaf_setStep (s := { s with src := s.src.advance n }) field herr

/-- A pass that raises an error ends the loop. -/
theorem treePass_idle_of_error (herr : s.err = false) (h : (treePass s).err = true) : (treePass s).seqr = .idle := by
  obtain ⟨n, -, u, hu, he | ⟨e, -, info, he⟩⟩ := treePass_effect s
  · rw [he, hu] at h
    exact absurd (h.symm.trans herr) Bool.noConfusion
  · rw [he]
    rfl

theorem treeLoop_setStep : ∀ (n : Nat) {s : State}, s.err = false →
    treeLoop n (setStep k s) = endAtStep k (treeLoop n s) := by
  intro n
  induction n with
  | zero => intro s herr; exact eq_endAtStep rfl herr
  | succ n ih =>
    intro s herr
    cases hq : s.seqr with
    | idle | inMarker => simp only [treeLoop, setStep_seqr, hq, endAtStep_ok herr]
    | inTree =>
      rw [treeLoop_succ hq, treeLoop_succ (s := setStep k s) hq, treePass_setStep herr]
      cases hpass : (treePass s).err with
      | false => rw [endAtStep_ok hpass, ih hpass]
      | true => rw [endAtStep_error hpass, treeLoop_of_idle (treePass_idle_of_error herr hpass), endAtStep_error hpass]

theorem runRdtree_ignoresStep : IgnoresStep runRdtree :=
  fun _ s herr => congrArg Host.Outcome.next (treeLoop_setStep (s := startTree s) _ herr)

/-! ### Sequences -/

theorem bodyOf_ignoresStep {i : Instr} (hi : Plain i) : IgnoresStep (bodyOf i) := by
  cases i with
  | nop | treeInternal | treeLeaf sym | marker word =>
    exact fun _ _ herr => congrArg Host.Outcome.next (eq_endAtStep rfl herr)
  | hist => exact runHist_ignoresStep
  | build => exact runBuild_ignoresStep
  | gencode => exact runGencode_ignoresStep
  | wrmagic => exact runWrmagic_ignoresStep
  | wrtree => exact runWrtree_ignoresStep
  | encode => exact runEncode_ignoresStep
  | flush => exact runFlush_ignoresStep
  | rdmagic => exact runRdmagic_ignoresStep
  | rdtree => exact runRdtree_ignoresStep
  | decode => exact runDecode_ignoresStep
  | rewind => exact runRewind_ignoresStep
  | clrerr | reset | compress | decompress => simp [Plain] at hi

/-- Commands issued one after another, from an outcome on. -/
def issue (is : List Instr) (o : Out State) : Out State := is.foldl (fun o i => bindOut o (exec i)) o

theorem issue_cons (i : Instr) (is : List Instr) : issue (i :: is) (.next s) = issue is (exec i s) := rfl

theorem issue_fault (is : List Instr) (r : Fault) : issue is (.fault r) = .fault r := by
  induction is with
  | nil => rfl
  | cons i is ih => exact ih

theorem issue_refused (is : List Instr) (r : Refusal) : issue is (.refused r) = .refused r := by
  induction is with
  | nil => rfl
  | cons i is ih => exact ih

/-- A command that a composite may have as a step: it is accepted only without an error, and is no composite itself. -/
abbrev SubCommand (i : Instr) : Prop := Plain i ∧ i.format = .cmd4

theorem exec_subCommand {i : Instr} (hi : SubCommand i) : exec i s = accept (bodyOf i) s := by
  obtain ⟨hplain, hf⟩ := hi
  simp only [Plain, List.mem_cons, not_or] at hplain
  exact exec_eq_accept hf hplain.1 hplain.2.1

/-- After an error the commands that follow are ignored (30_encoding.md R145). -/
theorem issue_error {is : List Instr} (his : ∀ i ∈ is, SubCommand i) (hidle : s.seqr = .idle) (herr : s.err = true) :
    issue is (.next s) = .next s := by
  induction is with
  | nil => rfl
  | cons i is ih =>
    obtain ⟨hi, his⟩ := List.forall_mem_cons.1 his
    rw [issue_cons, exec_subCommand hi, accept_error hidle herr, ih his]

/-- The first step sets `MSTEP` anew. -/
theorem runSteps_setStep (m : Nat) (bodies : List (State → Out State)) :
    runSteps k bodies (setStep m s) = runSteps k bodies s := by
  cases bodies <;> rfl

/-- The steps of a composite give what the commands give, but for `MSTEP`. -/
theorem runSteps_eq_issue {is : List Instr} (his : ∀ i ∈ is, SubCommand i) : ∀ {k : Nat} {s : State}, Ready s →
    runSteps k (is.map bodyOf) s = mapOut (endAtStep 0) (issue is (.next s)) := by
  induction is with
  | nil => exact fun hready => congrArg Host.Outcome.next (endAtStep_ok hready.2).symm
  | cons i is ih =>
    obtain ⟨hi, his⟩ := List.forall_mem_cons.1 his
    intro k s hready
    rw [List.map_cons, runSteps, atStep, bodyOf_ignoresStep hi.1 k s hready.2, issue_cons, exec_subCommand hi,
      accept_ready hready]
    cases hbody : bodyOf i s with
    | fault r => rw [issue_fault]; rfl
    | refused r => rw [issue_refused]; rfl
    | next t =>
      have hidle := bodyOf_idle hbody hready.1
      rw [mapOut_next]
      cases herr : t.err with
      | true =>
        rw [endAtStep_error herr, thenOk_next_error herr, issue_error his hidle herr, mapOut_next, endAtStep_error herr]
      | false =>
        rw [endAtStep_ok herr, thenOk_next_ok (s := setStep k t) herr, runSteps_setStep, ih his ⟨hidle, herr⟩]

/-- Settles O44: the steps of each composite are commands that do not look at `MSTEP`. -/
theorem compositesEqualTheirExpansions : Obligations.CompositesEqualTheirExpansions :=
  ⟨rfl, rfl, fun _ hready =>
    ⟨(accept_ready hready).trans (runSteps_eq_issue (is := compressSteps) (by decide) hready),
     (accept_ready hready).trans (runSteps_eq_issue (is := decompressSteps) (by decide) hready)⟩⟩

end Sys2Proof.Machine
end

section
/-! PROOFS. Decoding and encoding are inverse in every format (30_encoding.md R121 to R123, R140): a code of 4 bits, a
token of 1 or 10, a marker of 32. -/

namespace Sys2Proof.Machine

variable {i : Instr} {bs rest : List Bool}

/-! ### Fields -/

/-- The field of w bits at the head of a bit string. -/
def fieldAt (w : Nat) (bs : List Bool) : BitVec w := BitVec.ofNat w (bitsVal (bs.take w))

theorem fieldAt_bitsN {w : Nat} (b : BitVec w) (rest : List Bool) : fieldAt w (bitsN w b.toNat ++ rest) = b := by
  rw [fieldAt, List.take_left' (bitsN_length w _), bitsVal_bitsN_of_lt b.isLt, BitVec.ofNat_toNat, BitVec.setWidth_eq]

theorem bitsN_bitsVal_take {w : Nat} (h : w ≤ bs.length) : bitsN w (bitsVal (bs.take w)) = bs.take w := by
  have hbits := bitsN_bitsVal (bs.take w)
  rwa [List.length_take_of_le h] at hbits

theorem bitsN_fieldAt {w : Nat} (h : w ≤ bs.length) : bitsN w (fieldAt w bs).toNat ++ bs.drop w = bs := by
  rw [fieldAt, BitVec.toNat_ofNat, bitsN_mod, bitsN_bitsVal_take h, List.take_append_drop]

/-! ### The three formats -/

theorem decode_wireToken_internal (bs : List Bool) : decode .wireToken (false :: bs) = .ok (.treeInternal, bs) := rfl

theorem decode_wireToken_leaf (h : 9 ≤ bs.length) :
    decode .wireToken (true :: bs) = .ok (.treeLeaf (fieldAt 9 bs), bs.drop 9) :=
  if_neg (Nat.not_lt.2 h)

theorem decode_wireHeader (h : 32 ≤ bs.length) :
    decode .wireHeader bs = .ok (.marker (fieldAt 32 bs), bs.drop 32) :=
  if_neg (Nat.not_lt.2 h)

/-- The encoder gives the command of a written value the low four bits of that value (30_encoding.md R140, R141). -/
theorem encode_decodeCmd (v : Nat) : encode (decodeCmd v) = bitsN 4 v := by
  have htable : ∀ c < 16, encode (decodeCmd c) = bitsN 4 c := by decide
  calc encode (decodeCmd v) = encode (decodeCmd (v % 16)) := by rw [decodeCmd_mod]
    _ = bitsN 4 (v % 16) := htable _ (Nat.mod_lt v (by decide))
    _ = bitsN 4 v := bitsN_mod 4 v

/-! ### Decoding after encoding -/

theorem decode_encode_cmd4 (hi : i.format = .cmd4) (rest : List Bool) :
    decode .cmd4 (encode i ++ rest) = .ok (i, rest) := by
  have hlen := encode_cmd4_length hi
  rw [decode_cmd4 (by rw [List.length_append, hlen]; omega), List.take_left' hlen, List.drop_left' hlen,
    decodeCmd_encode hi]

theorem decode_encode_treeLeaf (sym : BitVec 9) (rest : List Bool) :
    decode .wireToken (encode (.treeLeaf sym) ++ rest) = .ok (.treeLeaf sym, rest) := by
  have hlen := bitsN_length 9 sym.toNat
  rw [encode, List.cons_append, decode_wireToken_leaf (by rw [List.length_append, hlen]; omega), fieldAt_bitsN,
    List.drop_left' hlen]

theorem decode_encode_marker (word : BitVec 32) (rest : List Bool) :
    decode .wireHeader (encode (.marker word) ++ rest) = .ok (.marker word, rest) := by
  have hlen := bitsN_length 32 word.toNat
  rw [encode, decode_wireHeader (by rw [List.length_append, hlen]; omega), fieldAt_bitsN, List.drop_left' hlen]

/-- Settles O2: a command by its code, a token by its flag bit and field, a marker by its field. -/
theorem decodeInvertsEncode : Obligations.DecodeInvertsEncode := by
  intro i rest
  cases i with
  | treeInternal => exact decode_wireToken_internal rest
  | treeLeaf sym => exact decode_encode_treeLeaf sym rest
  | marker word => exact decode_encode_marker word rest
  | _ => exact decode_encode_cmd4 rfl rest

/-! ### Encoding after decoding -/

theorem encode_of_decode_cmd4 (h : decode .cmd4 bs = .ok (i, rest)) : i.format = .cmd4 ∧ encode i ++ rest = bs := by
  rcases Nat.lt_or_ge bs.length 4 with hshort | hlong
  · rw [decode, if_pos hshort] at h
    cases h
  · rw [decode_cmd4 hlong] at h
    cases h
    rw [encode_decodeCmd, bitsN_bitsVal_take hlong, List.take_append_drop]
    exact ⟨decodeCmd_format _, rfl⟩

theorem encode_of_decode_wireToken (h : decode .wireToken bs = .ok (i, rest)) :
    i.format = .wireToken ∧ encode i ++ rest = bs := by
  cases bs with
  | nil => cases h
  | cons b bs =>
    cases b with
    | false => cases h; exact ⟨rfl, rfl⟩
    | true =>
      rcases Nat.lt_or_ge bs.length 9 with hshort | hlong
      · rw [decode, decodeToken, if_pos hshort] at h
        cases h
      · rw [decode_wireToken_leaf hlong] at h
        cases h
        exact ⟨rfl, congrArg (true :: ·) (bitsN_fieldAt hlong)⟩

theorem encode_of_decode_wireHeader (h : decode .wireHeader bs = .ok (i, rest)) :
    i.format = .wireHeader ∧ encode i ++ rest = bs := by
  rcases Nat.lt_or_ge bs.length 32 with hshort | hlong
  · rw [decode, if_pos hshort] at h
    cases h
  · rw [decode_wireHeader hlong] at h
    cases h
    exact ⟨rfl, bitsN_fieldAt hlong⟩

/-- Settles O3: a string too short for its format does not decode, and of a longer one the encoder gives back the bits
that the decoder took. -/
theorem encodeInvertsDecode : Obligations.EncodeInvertsDecode := by
  intro f bs rest i h
  cases f with
  | cmd4 => exact encode_of_decode_cmd4 h
  | wireToken => exact encode_of_decode_wireToken h
  | wireHeader => exact encode_of_decode_wireHeader h

/-- Settles O1: the words are the encodings of the nine instructions, by evaluation. -/
theorem opcodeTableWordsDecode : Obligations.OpcodeTableWordsDecode := by
  unfold Obligations.OpcodeTableWordsDecode
  decide

end Sys2Proof.Machine
end

section
/-! PROOFS. What a step finds to do: a command or another action of the host's queue, a token or marker of the source, the
reset input (10_state.md R31, R58, R59; 43_tree_serial.md R210, R214; 70_reset_and_hazards.md R340). -/

namespace Sys2Proof.Machine

variable {s : State} {i : Instr} {rest : List Bool}

/-! ### The host's actions -/

/-- Settles O5: the host's next action is a write to the address of `CMD`. -/
theorem stepRunsCommandWritten : Obligations.StepRunsCommandWritten :=
  fun _ _ _ hidle hp => step_idle_cons hidle hp

theorem takeAction_write_elsewhere {addr : BitVec 12} (h : addr.toNat ≠ 0) (v : Nat) (s : State) :
    takeAction (.write addr v) s = .next (hostWrite addr v s) :=
  if_neg h

/-- The address of a HIST entry (10_state.md R58). -/
theorem histAddr_toNat (x : Sym) : (BitVec.ofNat 12 (0x100 + x.val)).toNat = 0x100 + x.val :=
  Nat.mod_eq_of_lt (show 0x100 + x.val < 4096 by omega)

theorem takeAction_write_hist (x : Sym) (v : Nat) (s : State) :
    takeAction (.write (BitVec.ofNat 12 (0x100 + x.val)) v) s =
      .next { s with hist := wrSym s.hist x (v % 2 ^ s.cfg.wbits) } := by
  have haddr := histAddr_toNat x
  rw [takeAction_write_elsewhere (by omega), hostWrite_hist v haddr]

theorem takeAction_write_ignored {addr : BitVec 12} (h0 : addr ≠ 0#12) (h : addr.toNat < 0x100 ∨ 0x200 < addr.toNat)
    (v : Nat) (s : State) : takeAction (.write addr v) s = .next s := by
  have hne : addr.toNat ≠ 0 := fun hz => h0 (BitVec.eq_of_toNat_eq hz)
  rw [takeAction_write_elsewhere hne, hostWrite_ignored v (by omega)]

/-- The reset input acts whatever the sequencer is doing (70_reset_and_hazards.md R340). -/
theorem step_hwReset {rest : List HostAction} (hp : s.pending = .hwReset :: rest) :
    step s = .next (resetBlock { s with pending := rest }) := by
  simp only [step, fetch, hp]

/-- Settles O7: an idle block takes the head of the queue, and each clause is one kind of head. -/
theorem stepTakesHostActions : Obligations.StepTakesHostActions := by
  intro s rest
  refine ⟨step_idle_nil, fun bits hidle hp => step_idle_cons hidle hp, fun hidle hp => step_idle_cons hidle hp,
    fun x v hidle hp => ?_, fun addr v hidle hp h0 h => ?_, fun addr hidle hp => step_idle_cons hidle hp, step_hwReset⟩
  · exact (step_idle_cons hidle hp).trans (takeAction_write_hist x v _)
  · exact (step_idle_cons hidle hp).trans (takeAction_write_ignored h0 h v _)

/-! ### The words of the source -/

theorem fetchToken_decoded (h : decode .wireToken s.src.rest = .ok (i, rest)) :
    fetchToken s = .instr i { s with src := s.src.advance (encode i).length } := by
  simp only [fetchToken, readToken, h]

theorem encode_wireHeader_length (hi : i.format = .wireHeader) : (encode i).length = 32 := by
  cases i with
  | marker word => exact bitsN_length 32 _
  | _ => cases hi

theorem fetchMarker_decoded (h : decode .wireHeader s.src.rest = .ok (i, rest)) :
    fetchMarker s = .instr i { s with src := s.src.advance 32 } := by
  simp only [fetchMarker, h, encode_wireHeader_length (encode_of_decode_wireHeader h).1]

theorem fetch_inMarker (hp : s.pending.head? ≠ some .hwReset) (hq : s.seqr = .inMarker) : fetch s = fetchMarker s := by
  unfold fetch
  split
  next rest hreset => exact absurd (by rw [hreset]; rfl) hp
  next => rw [hq]

/-- Settles O6: without the reset input at the head of the queue a busy block fetches what the source holds. -/
theorem stepRunsDecodedToken : Obligations.StepRunsDecodedToken := by
  intro s i rest hp
  refine ⟨fun hq h => ?_, fun hq h => ?_⟩
  · rw [step, fetch_inTree hp hq, fetchToken_decoded h]
  · rw [step, fetch_inMarker hp hq, fetchMarker_decoded h]

end Sys2Proof.Machine
end

section
/-! PROOFS. Errors (60_exceptions.md R300, R308, R316, R318): what raising one records, the commands out of order, and how
the error state ends; and the invariants at reset (10_state.md R70). -/

namespace Sys2Proof.Machine

variable {s t : State} {i : Instr}

/-! ### Raising an error -/

/-- Settles O15: `raise` writes the error registers, the sequencer and the hidden working state. -/
theorem raiseRecordsTheError : Obligations.RaiseRecordsTheError :=
  ⟨rfl, rfl, rfl, rfl, rfl, rfl, rfl, rfl, rfl, rfl, rfl, fun _ _ _ => ⟨rfl, rfl, rfl, rfl, rfl⟩⟩

theorem runGencode_without_tree (h : s.tv = false) : runGencode s = .next (raise .seqError 0x3 s) :=
  if_neg (Bool.eq_false_iff.1 h)

theorem runWrtree_without_tree (h : s.tv = false) : runWrtree s = .next (raise .seqError 0x5 s) :=
  if_neg (Bool.eq_false_iff.1 h)

theorem runEncode_without_table (h : s.cv = false) : runEncode s = .next (raise .seqError 0x6 s) :=
  if_neg (Bool.eq_false_iff.1 h)

theorem runDecode_without_tree (h : s.tv = false) : runDecode s = .next (raise .seqError 0xA s) :=
  if_neg (Bool.eq_false_iff.1 h)

/-- Settles O16: the body of an accepted command looks at `TV` or `CV` first. -/
theorem commandsOutOfOrderRaiseSeqError : Obligations.CommandsOutOfOrderRaiseSeqError :=
  fun _ hready =>
    ⟨fun htv => (accept_ready hready).trans (runGencode_without_tree htv),
     fun htv => (accept_ready hready).trans (runWrtree_without_tree htv),
     fun hcv => (accept_ready hready).trans (runEncode_without_table hcv),
     fun htv => (accept_ready hready).trans (runDecode_without_tree htv)⟩

/-! ### The error state -/

/-- No error is recorded (10_state.md R33, R34). -/
def NoError (t : State) : Prop := t.err = false ∧ t.errcode = 0#4 ∧ t.errinfo = 0#32

theorem HostOnly.sameErrors (h : HostOnly s t) : SameErrors s t := by
  rw [h]
  exact ⟨rfl, rfl, rfl⟩

/-- In the error state CLRERR and RESET clear the error, and every other command is ignored (60_exceptions.md R316). -/
theorem exec_in_error (hf : i.format = .cmd4) (hidle : s.seqr = .idle) (herr : s.err = true) (h : exec i s = .next t) :
    SameErrors s t ∨ NoError t ∧ (i = .clrerr ∨ i = .reset) := by
  by_cases hclr : i = .clrerr
  · rw [hclr, exec_clrerr, acceptAlways_idle hidle] at h
    cases h
    exact .inr ⟨⟨rfl, rfl, rfl⟩, .inl hclr⟩
  by_cases hres : i = .reset
  · rw [hres, exec_reset, acceptAlways_idle hidle] at h
    cases h
    exact .inr ⟨⟨rfl, rfl, rfl⟩, .inr hres⟩
  · rw [exec_eq_accept hf hclr hres, accept_error hidle herr] at h
    cases h
    exact .inl ⟨rfl, rfl, rfl⟩

/-- The actions that end the error state: writing CLRERR or RESET to `CMD`, and the reset input (60_exceptions.md R316,
70_reset_and_hazards.md R340). -/
def EndsError (a : HostAction) : Prop :=
  (∃ v, a = .write 0#12 v ∧ (decodeCmd v = .clrerr ∨ decodeCmd v = .reset)) ∨ a = .hwReset

theorem takeAction_in_error {a : HostAction} (hidle : s.seqr = .idle) (herr : s.err = true)
    (h : takeAction a s = .next t) : SameErrors s t ∨ NoError t ∧ EndsError a := by
  cases a with
  | write addr v =>
    by_cases h0 : addr.toNat = 0
    · rw [takeAction, if_pos h0] at h
      have haddr : addr = 0#12 := BitVec.eq_of_toNat_eq h0
      exact (exec_in_error (decodeCmd_format v) hidle herr h).imp_right
        (And.imp_right fun hcmd => .inl ⟨v, by rw [haddr], hcmd⟩)
    · rw [takeAction_write_elsewhere h0] at h
      cases h
      exact .inl (hostWrite_hostOnly addr v s).sameErrors
  | read addr => cases h; exact .inl (hostRead_hostOnly addr s).sameErrors
  | attachSrc bits => cases h; exact .inl ⟨rfl, rfl, rfl⟩
  | attachSnk => cases h; exact .inl ⟨rfl, rfl, rfl⟩
  | hwReset => cases h; exact .inr ⟨⟨rfl, rfl, rfl⟩, .inr rfl⟩

theorem step_in_error (hidle : s.seqr = .idle) (herr : s.err = true) (h : step s = .next t) :
    SameErrors s t ∨ NoError t ∧ ∃ a rest, s.pending = a :: rest ∧ EndsError a := by
  cases hp : s.pending with
  | nil =>
    rw [step_idle_nil hidle hp] at h
    cases h
    exact .inl ⟨rfl, rfl, rfl⟩
  | cons a rest =>
    rw [step_idle_cons hidle hp] at h
    exact (takeAction_in_error (s := { s with pending := rest }) hidle herr h).imp_right
      (And.imp_right fun hends => ⟨a, rest, rfl, hends⟩)

/-- Settles O17: the head of the host's queue keeps the error registers or is one of the three ways out. -/
theorem firstErrorIsKept : Obligations.FirstErrorIsKept := by
  intro s t hidle herr h
  obtain ⟨he, hkept⟩ | ⟨⟨he, hcode, hinfo⟩, a, rest, hp, ⟨v, rfl, hcmd⟩ | rfl⟩ := step_in_error hidle herr h
  · exact .inl ⟨he.trans herr, hkept⟩
  · exact .inr ⟨he, hcode, hinfo, .inl ⟨v, rest, hp, hcmd⟩⟩
  · exact .inr ⟨he, hcode, hinfo, .inr ⟨rest, hp⟩⟩

/-! ### Reset -/

/-- The companion constant differs from the marker (92_eei_decisions.md D3). -/
theorem magic_ne_magicAlt : Config.magic ≠ Config.magicAlt := by
  unfold Config.magicAlt
  split
  next => exact fun h => absurd h (by bv_omega)
  next hne => exact Ne.symm hne

/-- Settles O51: the reset state has no error, no tree and no table, and its memories hold zeros. -/
theorem resetMeetsTheInvariants : Obligations.ResetMeetsTheInvariants :=
  ⟨⟨rfl, rfl⟩, ⟨by decide, magic_ne_magicAlt⟩, resetBlock_errorRegsOk State.reset, fun _ => rfl,
   ⟨Nat.le_refl 0, nofun⟩, Memory.wf_resetBlock State.reset, treeOk_of_no_tree rfl rfl rfl rfl, codeOk_of_no_code rfl⟩

end Sys2Proof.Machine
end
